-- ==== Sys2Proof/Word.lean ====
section
/-! DEFINITION. The word types of DES3-CORE. The widths are those of rule R7 (block 64, half 32, subkey 48, key-schedule half
28, byte 8) and of the 32-bit bus and command word (rules R42 and R54). Every value is unsigned (rule R9). -/

namespace Sys2Proof

/-- A byte of a message, of a buffer or of a bus lane. -/
abbrev Byte := BitVec 8

/-- A 32-bit register, a bus data word or a command word (rules R42, R54, R56). -/
abbrev Word := BitVec 32

/-- A 64-bit block, key or IV (rule R7). -/
abbrev Block := BitVec 64

/-- A 32-bit half-block (rule R7). -/
abbrev Half := BitVec 32

/-- A 48-bit round subkey, or an expanded half (rule R7). -/
abbrev Subkey := BitVec 48

/-- A 28-bit half of the key-schedule state (rule R7). -/
abbrev HalfKey := BitVec 28

end Sys2Proof
end

