-- ==== Sys2Proof/Config.lean ====
section
/-! DEFINITION. The parameters no source fixes (rule R8) and the free values the spec leaves unspecified. The third parameter
of rule R8, LATENCY, is the position of the engine's turn among the pending events (log entry 3). -/

namespace Sys2Proof

/-- The parameters of one DES3-CORE, which no command, access or reset changes: `base` is BASE, the bus address of offset 0 of
the 64 KiB window, and `bufBytes` is BUF_BYTES, the size of IN (rule R8). -/
structure Config where
  base : Nat
  bufBytes : Nat
  deriving DecidableEq, Repr

/-- The bounds rule R8 puts on BUF_BYTES. BASE is open. -/
abbrev Config.wf (c : Config) : Prop :=
  c.bufBytes % 8 = 0 ∧ 96 ≤ c.bufBytes ∧ c.bufBytes ≤ 16376

/-- OUT_BYTES = BUF_BYTES + 8 (rule R8), derived and not free. -/
def Config.outBytes (c : Config) : Nat := c.bufBytes + 8

/-- The configuration of `State.reset`: the spec's default BUF_BYTES of 4096 (rule R8), and BASE 0 (DESIGN CHOICE, log entry 1:
the spec leaves BASE open; no claim rests on this number). -/
def Config.default : Config := { base := 0, bufBytes := 4096 }

/-- FREE VALUE (log entry 6): the byte an unspecified read returns. The first argument is the draw counter of the state and
the second the window offset of the byte. It has no body, so no proof can learn a value of it. -/
opaque Config.freeByte : Nat → Nat → Byte

end Sys2Proof
end

