-- ==== Sys2Proof/Syntax.lean ====
section
/-! DEFINITION. The commands of DES3-CORE: one constructor per row of spec/opcode_table.json (rule R70). A command's other
inputs are the registers and the buffer it samples at accept (rules R55 and R71); only KSREAD has an operand in its word. -/

namespace Sys2Proof

/-- A command. `ksread` carries KSEL, an unsigned 2-bit number (rule R71); the eleven `reserved` constructors are the reserved
opcodes of rule R72. -/
inductive Instr where
  | init
  | encrypt
  | decrypt
  | resetIv
  | ksread (ksel : Nat)
  | reserved0
  | reserved6
  | reserved7
  | reserved8
  | reserved9
  | reservedA
  | reservedB
  | reservedC
  | reservedD
  | reservedE
  | reservedF
  deriving DecidableEq, Repr

end Sys2Proof
end

