-- ==== Sys2Proof/WellFormed.lean ====
section
/-! DEFINITION. When a command is one that a command word can express: KSEL fits its 2-bit field (rule R55). KSEL = 3 is a
well-formed command, which KSREAD answers with an error (rule R144). -/

namespace Sys2Proof

/-- The check: the operand of KSREAD fits the field KSEL, bits 5:4 of the command word (rules R55 and R71). -/
abbrev WellFormed : Instr → Prop
  | .ksread ksel => ksel < 4
  | .init | .encrypt | .decrypt | .resetIv => True
  | .reserved0 | .reserved6 | .reserved7 | .reserved8 | .reserved9 => True
  | .reservedA | .reservedB | .reservedC | .reservedD | .reservedE | .reservedF => True

end Sys2Proof
end

