-- ==== Sys2Proof/Decode.lean ====
section
/-! DEFINITION. The decoder and the encoder of the 32-bit command word (rules R54, R55, R70, R73). The bytes of a command word
are in bus order, the byte at the lowest offset in bits 31:24 (rule R35). -/

namespace Sys2Proof

/-- Why a byte string holds no command: it has fewer than the four bytes of the one instruction format (rule R54). -/
inductive DecodeError where
  | truncated
  deriving DecidableEq, Repr

/-- The opcode map of rule R70, entry k for OP = k. The argument is KSEL, which only KSREAD reads (rule R55). -/
def opcodeMap (ksel : Nat) : Vector Instr 16 :=
  #v[.reserved0, .init, .encrypt, .decrypt, .resetIv, .ksread ksel, .reserved6, .reserved7,
     .reserved8, .reserved9, .reservedA, .reservedB, .reservedC, .reservedD, .reservedE, .reservedF]

/-- The command that the fields OP and KSEL select (rule R70). -/
def decodeFields (op : BitVec 4) (ksel : BitVec 2) : Instr :=
  (opcodeMap ksel.toNat)[op.toNat]'op.isLt

/-- Field OP, bits 3:0 of the command word (rule R55). -/
def opField (w : Word) : BitVec 4 := w.extractLsb' 0 4

/-- Field KSEL, bits 5:4 of the command word (rule R55). -/
def kselField (w : Word) : BitVec 2 := w.extractLsb' 4 2

/-- Every 32-bit value decodes to exactly one command; bits 31:6 are ignored (rules R54 and R73). -/
def decodeWord (w : Word) : Instr := decodeFields (opField w) (kselField w)

/-- Decode the command at the head of a byte string, with the rest of the string; four bytes always decode. -/
def decode : List Byte → Except DecodeError (Instr × List Byte)
  | b0 :: b1 :: b2 :: b3 :: rest => .ok (decodeWord (b0 ++ b1 ++ b2 ++ b3), rest)
  | _ => .error .truncated

/-- The OP value of a command (rule R70), which STATUS.LASTOP holds after it (rule R138). -/
def opcode : Instr → BitVec 4
  | .reserved0 => 0x0
  | .init => 0x1
  | .encrypt => 0x2
  | .decrypt => 0x3
  | .resetIv => 0x4
  | .ksread _ => 0x5
  | .reserved6 => 0x6
  | .reserved7 => 0x7
  | .reserved8 => 0x8
  | .reserved9 => 0x9
  | .reservedA => 0xA
  | .reservedB => 0xB
  | .reservedC => 0xC
  | .reservedD => 0xD
  | .reservedE => 0xE
  | .reservedF => 0xF

/-- The KSEL field a command is written with: KSREAD's operand, and 0 for the others, which ignore it (rule R55). -/
def kselOf : Instr → BitVec 2
  | .ksread ksel => BitVec.ofNat 2 ksel
  | .init | .encrypt | .decrypt | .resetIv => 0
  | .reserved0 | .reserved6 | .reserved7 | .reserved8 | .reserved9 => 0
  | .reservedA | .reservedB | .reservedC | .reservedD | .reservedE | .reservedF => 0

/-- The command word `zext_32(s << 4 | OP)` of rule R74, with 0 in the reserved bits 31:6. -/
def encodeWord (i : Instr) : Word := (0#26 ++ kselOf i) ++ opcode i

/-- The four bytes of a word in bus order (rule R35). -/
def wordBytes (w : Word) : List Byte :=
  [w.extractLsb' 24 8, w.extractLsb' 16 8, w.extractLsb' 8 8, w.extractLsb' 0 8]

/-- The bytes of a command's word. -/
def encode (i : Instr) : List Byte := wordBytes (encodeWord i)

/-- The word of an instruction the table gives in its `nbits` low bits; the bits above them are 0. -/
def tableWord (nbits w : Nat) : Word := BitVec.ofNat 32 (w % 2 ^ nbits)

/-- What the decoder reads from the word `w` of a table row of `nbits` bits; no command is longer than 32 bits (rule R54). -/
def decodeTableWord (nbits w : Nat) : Option Instr :=
  if 32 < nbits then none
  else match decode (wordBytes (tableWord nbits w)) with
    | .ok (i, _) => some i
    | .error _ => none

end Sys2Proof
end

