-- ==== Sys2Proof/Machine/State.lean ====
section
/-! DEFINITION. The state of DES3-CORE as plain data: every register, flag and buffer of 10_state.md, the sampled command of a
busy engine, the level of the reset input, the parameters of rule R8, and three fields of the model's own (`bus`, `answer`, `draws`). -/

namespace Sys2Proof.Machine

/-- The result codes of STATUS.ERR that are produced (rule R146); codes 7 to 15 are never produced. -/
inductive ErrCode where
  | ok
  | validation
  | unsupportedMode
  | padding
  | length
  | notConfigured
  | illegalCommand
  deriving DecidableEq, Repr

/-- The active mode A_MODE (rule R21). The mode field's value 3 is never latched, so it has no constructor here. -/
inductive Mode where
  | ecb
  | cbc
  | ofb
  deriving DecidableEq, Repr

/-- The active algorithm A_ALG (rule R21). -/
inductive Alg where
  | des
  | tdes
  deriving DecidableEq, Repr

/-- The registers INIT samples at accept, besides the command itself: c, k0, k1, k2 and v of rule R137. -/
structure InitOperands where
  ctrl : Word
  key0 : Block
  key1 : Block
  key2 : Block
  iv : Block
  deriving DecidableEq, Repr

/-- The sampled command of a busy engine (rules R28 and R137): OP, KSEL, n, and for INIT also its registers. -/
structure Command where
  op : BitVec 4
  ksel : BitVec 2
  len : Word
  init : Option InitOperands
  deriving DecidableEq, Repr

/-- The widths a bus access can have: 1, 2 or 4 bytes (rules R38 and R42). -/
inductive AccessWidth where
  | byte
  | half
  | word
  deriving DecidableEq, Repr

/-- One bus access of the host, at a bus address. A write's data are right-aligned in the data word (log entry 13). -/
inductive Access where
  | read (addr : Nat) (width : AccessWidth)
  | write (addr : Nat) (width : AccessWidth) (data : Word)
  deriving DecidableEq, Repr

/-- What happens next to the block (rules R16, R153 and R160; log entries 3 and 5): the host makes an access, the engine takes
its turn, the host makes an access at the very instant the engine takes its turn, or the reset input takes a level, `true` where
it is asserted and `false` where it is released. -/
inductive BusEvent where
  | host (a : Access)
  | engine
  | together (a : Access)
  | reset (asserted : Bool)
  deriving DecidableEq, Repr

/-- A byte buffer: the bytes that hold a specified value, at strictly rising buffer offsets. An unlisted offset holds an
unspecified value (rules R32, R33 and R44). -/
abbrev Memory := List Host.Cell

/-- Why the model stops with a fault (rule R159). Both are safe: nothing is claimed about what follows. -/
inductive Fault where
  /-- Raised by ENCRYPT and DECRYPT: the engine reads an IN byte the host has not written since reset (rules R33 and R164).
  Safe: hardware goes on with an unspecified byte. -/
  | uninitialisedInput
  /-- Raised by a host write to IN while an ENCRYPT or DECRYPT is busy (rules R47 and R166). Safe: hardware goes on, and no
  rule fixes the result. -/
  | hostRaceOnIN
  deriving DecidableEq, Repr

/-- Why the model refuses to go on. -/
inductive Refusal where
  /-- Raised by an arm of `exec` whose instruction has no meaning yet. Safe. No arm is in this case. -/
  | notModelled (mnemonic : String)
  deriving DecidableEq, Repr

/-- The state of one DES3-CORE with the host's pending moves. Every instance has its own copy (rule R17). -/
structure State where
  /-- The parameters of rule R8; nothing writes them. -/
  cfg : Config
  /-- CTRL, staging (rules R20 and R58); its reserved bits are never set. -/
  ctrl : Word
  /-- LEN, staging (rules R20 and R65). -/
  len : Word
  /-- KEY0, staging, write-only to the host (rules R20, R25 and R67). -/
  key0 : Block
  /-- KEY1, staging. -/
  key1 : Block
  /-- KEY2, staging. -/
  key2 : Block
  /-- IVIN, staging (rules R20 and R68). -/
  ivin : Block
  /-- CONFIGURED: an INIT has succeeded since reset (rule R21). -/
  configured : Bool
  /-- A_MODE (rule R21). -/
  aMode : Mode
  /-- A_ALG (rule R21). -/
  aAlg : Alg
  /-- A_K0, the key applied first in encryption (rules R21 and R61). -/
  aK0 : Block
  /-- A_K1. -/
  aK1 : Block
  /-- A_K2. -/
  aK2 : Block
  /-- IV_INIT, the IV as supplied (rule R23). -/
  ivInit : Block
  /-- IV_CHAIN, the chaining register (rule R23), which IVCUR reads. -/
  ivChain : Block
  /-- DONE (rule R24). -/
  done : Bool
  /-- OVR, sticky (rule R24). -/
  ovr : Bool
  /-- ACCERR, sticky (rule R24). -/
  accErr : Bool
  /-- ERR, the result code of the last completed command (rule R24). -/
  err : ErrCode
  /-- LASTOP, the OP of the last completed command (rule R24). -/
  lastop : BitVec 4
  /-- OUTLEN, the number of valid bytes in OUT (rule R24). -/
  outlen : Word
  /-- IN, at buffer offsets (rule R26): the bytes the host has written since reset. -/
  inBuf : Memory
  /-- OUT, at buffer offsets (rule R26): the bytes the last completed command specifies. -/
  outBuf : Memory
  /-- The command in progress; BUSY = 1 exactly when there is one (rules R24 and R137). -/
  running : Option Command
  /-- The level of the reset input: true while it is asserted (rule R160). -/
  resetLine : Bool
  /-- MODEL'S OWN (log entry 3): the host's pending moves and the engine's turns among them, the next one first. -/
  bus : List BusEvent
  /-- MODEL'S OWN (log entry 13): the data word the block returned to the latest access, if that access was a read of it. -/
  answer : Option Word
  /-- MODEL'S OWN (log entry 6): the counter the free values are drawn with. -/
  draws : Nat
  deriving DecidableEq, Repr

/-- The state after reset of a block with the parameters `c`: every register is 0, CONFIGURED is 0, the engine is idle, and IN
and OUT hold unspecified values (rules R32 and R160). The reset input is released. -/
def State.resetWith (c : Config) : State where
  cfg := c
  ctrl := 0
  len := 0
  key0 := 0
  key1 := 0
  key2 := 0
  ivin := 0
  configured := false
  aMode := .ecb
  aAlg := .des
  aK0 := 0
  aK1 := 0
  aK2 := 0
  ivInit := 0
  ivChain := 0
  done := false
  ovr := false
  accErr := false
  err := .ok
  lastop := 0
  outlen := 0
  inBuf := []
  outBuf := []
  running := none
  resetLine := false
  bus := []
  answer := none
  draws := 0

/-- The machine right after reset (rule R32), with the default parameters. -/
def State.reset : State := State.resetWith Config.default

end Sys2Proof.Machine
end

