-- ==== Sys2Proof/Machine/Ops.lean ====
section
/-! DEFINITION. The operations the meanings share: byte order, the two buffers, accepting a command, and completing one, with
success or with an error. -/

namespace Sys2Proof.Machine

/-- What one move of the machine answers. -/
abbrev Result := Host.Outcome State Fault Refusal

/-- One move and then another; a fault or a refusal of the first stops. -/
def andThen (r : Result) (f : State → Result) : Result :=
  match r with
  | .next s => f s
  | .fault e => .fault e
  | .refused e => .refused e

/-- `be(b)` of rule R11 as a `w`-bit value: the bytes read as one number, byte 0 most significant. -/
def be (w : Nat) (b : List Byte) : BitVec w :=
  b.foldl (fun v x => (v <<< 8) ||| x.setWidth w) 0

/-- `unbe_n(v)` of rule R11: the low `n` bytes of `v`, the most significant first. -/
def unbe (n : Nat) {w : Nat} (v : BitVec w) : List Byte :=
  (List.range n).map fun k => v.extractLsb' (8 * (n - 1 - k)) 8

/-- `top_k(v)` of rule R11 as bytes: the `k` most significant bytes of a block. -/
def top (k : Nat) (v : Block) : List Byte := (unbe 8 v).take k

/-- The byte at a buffer offset; none where the buffer holds an unspecified value. -/
def Memory.read : Memory → Nat → Option Byte
  | [], _ => none
  | (k, b) :: rest, a => if k = a then some b else Memory.read rest a

/-- Store one byte, keeping the offsets strictly rising. -/
def Memory.write : Memory → Nat → Byte → Memory
  | [], a, b => [(a, b)]
  | (k, c) :: rest, a, b =>
    if a < k then (a, b) :: (k, c) :: rest
    else if a = k then (a, b) :: rest
    else (k, c) :: Memory.write rest a b

/-- `MemWrite(BUF, a, n, v)` of rule R14 on the bytes of `v`, the first at the lowest offset. -/
def Memory.writeBytes : Memory → Nat → List Byte → Memory
  | m, _, [] => m
  | m, a, b :: bs => Memory.writeBytes (Memory.write m a b) (a + 1) bs

/-- The `n` bytes from offset `a`, as `MemRead` of rule R14 reads them; none if one of them is unspecified. -/
def Memory.readBytes (m : Memory) (a : Nat) : Nat → Option (List Byte)
  | 0 => some []
  | n + 1 =>
    match Memory.read m a, Memory.readBytes m (a + 1) n with
    | some b, some bs => some (b :: bs)
    | _, _ => none

/-- A buffer that holds exactly these bytes, from offset `a` on. -/
def Memory.ofBytes (a : Nat) : List Byte → Memory
  | [] => []
  | b :: bs => (a, b) :: Memory.ofBytes (a + 1) bs

/-- The canonical form: the offsets strictly rise. An unlisted offset reads as unspecified, which no entry can be. -/
abbrev Memory.wf (m : Memory) : Prop := m.Pairwise fun x y => x.1 < y.1

/-- STATUS.BUSY: a command is in progress (rules R24 and R137). -/
def State.busy (s : State) : Bool := s.running.isSome

/-- The registers INIT samples, as they stand now. -/
def State.liveInit (s : State) : InitOperands :=
  { ctrl := s.ctrl, key0 := s.key0, key1 := s.key1, key2 := s.key2, iv := s.ivin }

/-- What accept samples from a command word and the staging registers (rule R137). -/
def State.sample (s : State) (w : Word) : Command :=
  { op := opField w, ksel := kselField w, len := s.len,
    init := if opField w = 0x1 then some s.liveInit else none }

/-- Accept (rule R137): BUSY becomes 1 and the operands are sampled. DONE is not changed. -/
def State.accept (s : State) (w : Word) : State := { s with running := some (s.sample w) }

/-- Complete (rule R138): ERR, LASTOP and OUTLEN are written, DONE becomes 1, BUSY becomes 0, and OUT holds exactly the `out`
bytes; every other OUT byte is unspecified after any command (rule R44). -/
def complete (op : BitVec 4) (code : ErrCode) (out : List Byte) (s : State) : State :=
  { s with
    running := none
    done := true
    err := code
    lastop := op
    outlen := BitVec.ofNat 32 out.length
    outBuf := Memory.ofBytes 0 out
    draws := s.draws + 1 }

/-- Complete with ERR = OK. -/
def succeed (op : BitVec 4) (out : List Byte) (s : State) : Result := .next (complete op .ok out s)

/-- `raise Error(code)` (rules R14, R145 and R149), this hardware's form of taking an exception: the command completes with the
code, OUTLEN is 0 and OUT is unspecified. Nothing is saved and nothing is returned from (rule R150). -/
def raiseError (op : BitVec 4) (code : ErrCode) (s : State) : Result := .next (complete op code [] s)

end Sys2Proof.Machine
end

