-- ==== Sys2Proof/Machine/Operands.lean ====
section
/-! DEFINITION. The operands of the commands: the fields of CTRL, the values sampled at accept, and the key KSEL selects
(rules R58, R71 and R137). -/

namespace Sys2Proof.Machine

/-- CTRL.MODE, bits 1:0: the mode it names, none for the unrecognised selector 3 (rules R58 and R59). -/
def ctrlMode (c : Word) : Option Mode :=
  match (c.extractLsb' 0 2).toNat with
  | 0 => some .ecb
  | 1 => some .cbc
  | 2 => some .ofb
  | _ => none

/-- CTRL.ALG, bit 2 (rule R58). -/
def ctrlAlg (c : Word) : Alg := if c.getLsbD 2 then .tdes else .des

/-- CTRL.IRQEN, bit 3 (rule R58). -/
def ctrlIrqen (c : Word) : Bool := c.getLsbD 3

/-- CTRL.KEYLEN, bits 12:8, as an unsigned number (rules R58 and R60). -/
def ctrlKeylen (c : Word) : Nat := (c.extractLsb' 8 5).toNat

/-- CTRL.IVLEN, bits 19:16, as an unsigned number (rules R58 and R60). -/
def ctrlIvlen (c : Word) : Nat := (c.extractLsb' 16 4).toNat

/-- The bits of CTRL that a write stores; bits 7:4, 15:13 and 31:20 are reserved (rule R58). -/
def ctrlMask : Word := 0x000F1F0F

/-- The key length INIT accepts for an algorithm: 8 bytes for DES, 24 for TDES (rule R141). -/
def Alg.keyBytes : Alg → Nat
  | .des => 8
  | .tdes => 24

/-- Whether a mode requires an IV (rule R141). -/
def Mode.needsIv : Mode → Bool
  | .ecb => false
  | .cbc => true
  | .ofb => true

/-- The sampled LEN of the command in progress (rule R137); with no command in progress, what an accept would sample now
(log entry 9). -/
def State.sampledLen (s : State) : Nat :=
  match s.running with
  | some r => r.len.toNat
  | none => s.len.toNat

/-- The sampled INIT registers of the command in progress (rule R137); where none were sampled, what an accept of INIT would
sample now (log entry 9). -/
def State.sampledInit (s : State) : InitOperands :=
  match s.running with
  | some r => r.init.getD s.liveInit
  | none => s.liveInit

/-- The active key KSEL names: 0, 1, 2 for A_K0, A_K1, A_K2 (rule R55), none where KSREAD answers Validation, which is KSEL = 3
or KSEL ≠ 0 with DES (rule R144). -/
def State.selectKey (s : State) (ksel : Nat) : Option Block :=
  match ksel, s.aAlg with
  | 0, _ => some s.aK0
  | 1, .tdes => some s.aK1
  | 2, .tdes => some s.aK2
  | _, _ => none

/-- The 64-bit register whose upper 32 bits are replaced (rule R36). -/
def withHi (x : Block) (hi : Word) : Block := hi ++ (x.extractLsb' 0 32 : Word)

/-- The 64-bit register whose lower 32 bits are replaced (rule R36). -/
def withLo (x : Block) (lo : Word) : Block := (x.extractLsb' 32 32 : Word) ++ lo

/-- X_HI, bits 63:32 (rule R36). -/
def hiWord (x : Block) : Word := x.extractLsb' 32 32

/-- X_LO, bits 31:0 (rule R36). -/
def loWord (x : Block) : Word := x.extractLsb' 0 32

end Sys2Proof.Machine
end

