-- ==== Sys2Proof/Machine/Flags.lean ====
section
/-! DEFINITION. The flags: the STATUS word, its write-1-to-clear bits and the interrupt line (rules R24, R31, R63, R146, R152).
The engine has no arithmetic condition codes. -/

namespace Sys2Proof.Machine

/-- The number of a result code in STATUS.ERR (rule R146). -/
def ErrCode.code : ErrCode → BitVec 4
  | .ok => 0
  | .validation => 1
  | .unsupportedMode => 2
  | .padding => 3
  | .length => 4
  | .notConfigured => 5
  | .illegalCommand => 6

/-- The STATUS word (rule R63): LASTOP 15:12, ERR 11:8, ACCERR 4, OVR 3, CONFIGURED 2, DONE 1, BUSY 0; the reserved bits 31:16
and 7:5 read 0. -/
def State.statusWord (s : State) : Word :=
  0#16 ++ s.lastop ++ s.err.code ++ 0#3 ++ BitVec.ofBool s.accErr ++ BitVec.ofBool s.ovr ++
    BitVec.ofBool s.configured ++ BitVec.ofBool s.done ++ BitVec.ofBool s.busy

/-- A write to STATUS clears DONE, OVR and ACCERR where bit 1, 3 and 4 of the word is 1, and changes nothing else (rule R63). -/
def State.writeStatus (s : State) (d : Word) : State :=
  { s with
    done := s.done && !d.getLsbD 1
    ovr := s.ovr && !d.getLsbD 3
    accErr := s.accErr && !d.getLsbD 4 }

/-- The output line `irq` = STATUS.DONE AND CTRL.IRQEN, a level (rules R30 and R152). -/
def State.irq (s : State) : Bool := s.done && ctrlIrqen s.ctrl

end Sys2Proof.Machine
end

