-- ==== Sys2Proof/Machine/PermutationNetwork.lean ====
section
/-! DEFINITION. The permutation network and the bit-level primitives (40_permutation_network.md). The tables are the spec's,
which marks them as general knowledge (log entry 23); they are fixed wiring that nothing writes (rule R78). -/

namespace Sys2Proof.Machine

/-- `v⟨j⟩`, the cipher's 1-based bit j counted from the most significant bit: `v[w-j]` (rule R10). -/
def cipherBit {w : Nat} (v : BitVec w) (j : Nat) : Bool := v.getLsbD (w - j)

/-- `permute(v, w, T)` with an `n`-bit result (rule R77): output bit ⟨i⟩ is input bit ⟨T[i]⟩. -/
def permute (n : Nat) (t : List Nat) {w : Nat} (v : BitVec w) : BitVec n :=
  BitVec.ofNat n (t.foldl (fun u j => 2 * u + (cipherBit v j).toNat) 0)

/-- `rotl_28(v, n)` (rules R13 and R80). -/
def rotl28 (v : HalfKey) (n : Nat) : HalfKey := (v <<< n) ||| (v >>> (28 - n))

/-- XOR of two byte strings, as long as the shorter: the truncating XOR of rules R79 and R129. -/
def xorBytes (a b : List Byte) : List Byte := List.zipWith (fun x y => x ^^^ y) a b

/-- T_IP (rule R81). -/
def tIP : List Nat :=
  [58, 50, 42, 34, 26, 18, 10, 2, 60, 52, 44, 36, 28, 20, 12, 4,
   62, 54, 46, 38, 30, 22, 14, 6, 64, 56, 48, 40, 32, 24, 16, 8,
   57, 49, 41, 33, 25, 17, 9, 1, 59, 51, 43, 35, 27, 19, 11, 3,
   61, 53, 45, 37, 29, 21, 13, 5, 63, 55, 47, 39, 31, 23, 15, 7]

/-- T_FP (rule R82). -/
def tFP : List Nat :=
  [40, 8, 48, 16, 56, 24, 64, 32, 39, 7, 47, 15, 55, 23, 63, 31,
   38, 6, 46, 14, 54, 22, 62, 30, 37, 5, 45, 13, 53, 21, 61, 29,
   36, 4, 44, 12, 52, 20, 60, 28, 35, 3, 43, 11, 51, 19, 59, 27,
   34, 2, 42, 10, 50, 18, 58, 26, 33, 1, 41, 9, 49, 17, 57, 25]

/-- T_E (rule R83). -/
def tE : List Nat :=
  [32, 1, 2, 3, 4, 5, 4, 5, 6, 7, 8, 9,
   8, 9, 10, 11, 12, 13, 12, 13, 14, 15, 16, 17,
   16, 17, 18, 19, 20, 21, 20, 21, 22, 23, 24, 25,
   24, 25, 26, 27, 28, 29, 28, 29, 30, 31, 32, 1]

/-- T_P (rule R84). -/
def tP : List Nat :=
  [16, 7, 20, 21, 29, 12, 28, 17, 1, 15, 23, 26, 5, 18, 31, 10,
   2, 8, 24, 14, 32, 27, 3, 9, 19, 13, 30, 6, 22, 11, 4, 25]

/-- IP, the initial permutation (rule R81). -/
def ip (x : Block) : Block := permute 64 tIP x

/-- FP, the final permutation (rule R82). -/
def fp (x : Block) : Block := permute 64 tFP x

/-- E, the expansion (rule R83). -/
def expand (r : Half) : Subkey := permute 48 tE r

/-- P, the contraction permutation (rule R84). -/
def contract (x : Half) : Half := permute 32 tP x

end Sys2Proof.Machine
end

