-- ==== Sys2Proof/Machine/KeySchedule.lean ====
section
/-! DEFINITION. The key schedule rotator (41_key_schedule.md). The tables are the spec's, which marks them as general knowledge
(log entry 23). -/

namespace Sys2Proof.Machine

/-- T_PC1 (rule R85). -/
def tPC1 : List Nat :=
  [57, 49, 41, 33, 25, 17, 9, 1, 58, 50, 42, 34, 26, 18,
   10, 2, 59, 51, 43, 35, 27, 19, 11, 3, 60, 52, 44, 36,
   63, 55, 47, 39, 31, 23, 15, 7, 62, 54, 46, 38, 30, 22,
   14, 6, 61, 53, 45, 37, 29, 21, 13, 5, 28, 20, 12, 4]

/-- T_PC2 (rule R87). -/
def tPC2 : List Nat :=
  [14, 17, 11, 24, 1, 5, 3, 28, 15, 6, 21, 10,
   23, 19, 12, 4, 26, 8, 16, 7, 27, 20, 13, 2,
   41, 52, 31, 37, 47, 55, 30, 40, 51, 45, 33, 48,
   44, 49, 39, 56, 34, 53, 46, 42, 50, 36, 29, 32]

/-- The shift counts s_1 to s_16 (rule R86). -/
def shiftCounts : List Nat :=
  [1, 1, 2, 2, 2, 2, 2, 2, 1, 2, 2, 2, 2, 2, 2, 1]

/-- PC-1 (rule R85). -/
def pc1 (k : Block) : BitVec 56 := permute 56 tPC1 k

/-- PC-2 (rule R87). -/
def pc2 (cd : BitVec 56) : Subkey := permute 48 tPC2 cd

/-- C_0, the first 28 bits of PC1(k) (rule R88). -/
def c0 (k : Block) : HalfKey := (pc1 k).extractLsb' 28 28

/-- D_0, the last 28 bits of PC1(k) (rule R88). -/
def d0 (k : Block) : HalfKey := (pc1 k).extractLsb' 0 28

/-- The cumulative rotation of one half: the half after each round, round 1 first (rule R89). -/
def rotations (h : HalfKey) : List Nat → List HalfKey
  | [] => []
  | n :: ns => rotl28 h n :: rotations (rotl28 h n) ns

/-- `KS(k) = [K_1, ..., K_16]` with `K_i = PC2(C_i ‖ D_i)` (rules R90 and R91). -/
def ks (k : Block) : List Subkey :=
  List.zipWith (fun c d => pc2 (c ++ d)) (rotations (c0 k) shiftCounts) (rotations (d0 k) shiftCounts)

/-- `KSR(k) = [K_16, ..., K_1]` (rule R92). -/
def ksr (k : Block) : List Subkey := (ks k).reverse

end Sys2Proof.Machine
end

