-- ==== Sys2Proof/Machine/RoundFunction.lean ====
section
/-! DEFINITION. The round function and the S-box substitution array (42_round_function.md). The tables are the spec's, which
marks them as general knowledge (log entry 23). -/

namespace Sys2Proof.Machine

/-- T_S1 (rule R100), one row a line. -/
def tS1 : List (List Nat) :=
  [[14, 4, 13, 1, 2, 15, 11, 8, 3, 10, 6, 12, 5, 9, 0, 7],
   [0, 15, 7, 4, 14, 2, 13, 1, 10, 6, 12, 11, 9, 5, 3, 8],
   [4, 1, 14, 8, 13, 6, 2, 11, 15, 12, 9, 7, 3, 10, 5, 0],
   [15, 12, 8, 2, 4, 9, 1, 7, 5, 11, 3, 14, 10, 0, 6, 13]]

/-- T_S2 (rule R101), one row a line. -/
def tS2 : List (List Nat) :=
  [[15, 1, 8, 14, 6, 11, 3, 4, 9, 7, 2, 13, 12, 0, 5, 10],
   [3, 13, 4, 7, 15, 2, 8, 14, 12, 0, 1, 10, 6, 9, 11, 5],
   [0, 14, 7, 11, 10, 4, 13, 1, 5, 8, 12, 6, 9, 3, 2, 15],
   [13, 8, 10, 1, 3, 15, 4, 2, 11, 6, 7, 12, 0, 5, 14, 9]]

/-- T_S3 (rule R102), one row a line. -/
def tS3 : List (List Nat) :=
  [[10, 0, 9, 14, 6, 3, 15, 5, 1, 13, 12, 7, 11, 4, 2, 8],
   [13, 7, 0, 9, 3, 4, 6, 10, 2, 8, 5, 14, 12, 11, 15, 1],
   [13, 6, 4, 9, 8, 15, 3, 0, 11, 1, 2, 12, 5, 10, 14, 7],
   [1, 10, 13, 0, 6, 9, 8, 7, 4, 15, 14, 3, 11, 5, 2, 12]]

/-- T_S4 (rule R103), one row a line. -/
def tS4 : List (List Nat) :=
  [[7, 13, 14, 3, 0, 6, 9, 10, 1, 2, 8, 5, 11, 12, 4, 15],
   [13, 8, 11, 5, 6, 15, 0, 3, 4, 7, 2, 12, 1, 10, 14, 9],
   [10, 6, 9, 0, 12, 11, 7, 13, 15, 1, 3, 14, 5, 2, 8, 4],
   [3, 15, 0, 6, 10, 1, 13, 8, 9, 4, 5, 11, 12, 7, 2, 14]]

/-- T_S5 (rule R104), one row a line. -/
def tS5 : List (List Nat) :=
  [[2, 12, 4, 1, 7, 10, 11, 6, 8, 5, 3, 15, 13, 0, 14, 9],
   [14, 11, 2, 12, 4, 7, 13, 1, 5, 0, 15, 10, 3, 9, 8, 6],
   [4, 2, 1, 11, 10, 13, 7, 8, 15, 9, 12, 5, 6, 3, 0, 14],
   [11, 8, 12, 7, 1, 14, 2, 13, 6, 15, 0, 9, 10, 4, 5, 3]]

/-- T_S6 (rule R105), one row a line. -/
def tS6 : List (List Nat) :=
  [[12, 1, 10, 15, 9, 2, 6, 8, 0, 13, 3, 4, 14, 7, 5, 11],
   [10, 15, 4, 2, 7, 12, 9, 5, 6, 1, 13, 14, 0, 11, 3, 8],
   [9, 14, 15, 5, 2, 8, 12, 3, 7, 0, 4, 10, 1, 13, 11, 6],
   [4, 3, 2, 12, 9, 5, 15, 10, 11, 14, 1, 7, 6, 0, 8, 13]]

/-- T_S7 (rule R106), one row a line. -/
def tS7 : List (List Nat) :=
  [[4, 11, 2, 14, 15, 0, 8, 13, 3, 12, 9, 7, 5, 10, 6, 1],
   [13, 0, 11, 7, 4, 9, 1, 10, 14, 3, 5, 12, 2, 15, 8, 6],
   [1, 4, 11, 13, 12, 3, 7, 14, 10, 15, 6, 8, 0, 5, 9, 2],
   [6, 11, 13, 8, 1, 4, 10, 7, 9, 5, 0, 15, 14, 2, 3, 12]]

/-- T_S8 (rule R107), one row a line. -/
def tS8 : List (List Nat) :=
  [[13, 2, 8, 4, 6, 15, 11, 1, 10, 9, 3, 14, 5, 0, 12, 7],
   [1, 15, 13, 8, 10, 3, 7, 4, 12, 5, 6, 11, 0, 14, 9, 2],
   [7, 11, 4, 1, 9, 12, 14, 2, 0, 6, 10, 13, 15, 3, 5, 8],
   [2, 1, 14, 7, 4, 10, 8, 13, 15, 12, 9, 0, 3, 5, 6, 11]]

/-- The row of a chunk: its outer two bits, b1 the high one (rule R99). -/
def sboxRow (b : BitVec 6) : Nat := 2 * (b.getLsbD 5).toNat + (b.getLsbD 0).toNat

/-- The column of a chunk: its inner four bits, b2 the highest (rule R99). -/
def sboxCol (b : BitVec 6) : Nat := (b.extractLsb' 1 4).toNat

/-- One lane of the array: the table's entry at the chunk's row and column (rule R99). -/
def sboxLane (t : List (List Nat)) (b : BitVec 6) : BitVec 4 :=
  BitVec.ofNat 4 ((t.getD (sboxRow b) []).getD (sboxCol b) 0)

/-- Chunk B_m of Y, m = 1 to 8: `Y[53-6m : 48-6m]` (rule R98). -/
def chunk (m : Nat) (y : Subkey) : BitVec 6 := y.extractLsb' (48 - 6 * m) 6

/-- The substitution array: `S1(B_1) ‖ ... ‖ S8(B_8)` (rule R108). -/
def sboxArray (y : Subkey) : Half :=
  sboxLane tS1 (chunk 1 y) ++ sboxLane tS2 (chunk 2 y) ++ sboxLane tS3 (chunk 3 y) ++ sboxLane tS4 (chunk 4 y) ++
  sboxLane tS5 (chunk 5 y) ++ sboxLane tS6 (chunk 6 y) ++ sboxLane tS7 (chunk 7 y) ++ sboxLane tS8 (chunk 8 y)

/-- F, the round function: expand, mix with the subkey, substitute, contract (rules R95 to R97, R109 and R110). -/
def roundF (r : Half) (k : Subkey) : Half := contract (sboxArray (expand r ^^^ k))

end Sys2Proof.Machine
end

