-- ==== Sys2Proof/Machine/BlockCipher.lean ====
section
/-! DEFINITION. The Feistel block primitive, single DES, Triple DES in EDE form, and the block primitive the modes use
(43_block_cipher.md). -/

namespace Sys2Proof.Machine

/-- One round: `(L, R) <- (R, L XOR F(R, k))` (rule R113). -/
def feistelRound (lr : Half × Half) (k : Subkey) : Half × Half := (lr.2, lr.1 ^^^ roundF lr.2 k)

/-- The halves L_0 and R_0 of a block (rule R112). -/
def splitIP (x : Block) : Half × Half := ((ip x).extractLsb' 32 32, (ip x).extractLsb' 0 32)

/-- The half-swap after the last round, and the final permutation (rule R114). -/
def joinFP (lr : Half × Half) : Block := fp (lr.2 ++ lr.1)

/-- `Feistel(x, ks)`: the rounds in the order of the list as passed (rules R111 and R115). -/
def feistel (x : Block) (keys : List Subkey) : Block := joinFP (keys.foldl feistelRound (splitIP x))

/-- DES_E (rule R116). -/
def desE (k x : Block) : Block := feistel x (ks k)

/-- DES_D (rule R116). -/
def desD (k x : Block) : Block := feistel x (ksr k)

/-- TDES_E, K0 applied first (rule R118; 90_conflicts.md C1). -/
def tdesE (k0 k1 k2 x : Block) : Block := desE k2 (desD k1 (desE k0 x))

/-- TDES_D (rule R119). -/
def tdesD (k0 k1 k2 x : Block) : Block := desD k0 (desE k1 (desD k2 x))

/-- Block_E of the active configuration (rule R122). -/
def State.blockE (s : State) (x : Block) : Block :=
  match s.aAlg with
  | .des => desE s.aK0 x
  | .tdes => tdesE s.aK0 s.aK1 s.aK2 x

/-- Block_D of the active configuration (rule R122). -/
def State.blockD (s : State) (x : Block) : Block :=
  match s.aAlg with
  | .des => desD s.aK0 x
  | .tdes => tdesD s.aK0 s.aK1 s.aK2 x

end Sys2Proof.Machine
end

