-- ==== Sys2Proof/Machine/ModeChainer.lean ====
section
/-! DEFINITION. The mode chainer: padding, the per-block rules of ECB, CBC and OFB, and the commands ENCRYPT and DECRYPT
(44_mode_chainer.md). -/

namespace Sys2Proof.Machine

/-- The number of padding bytes for a message of `n` bytes: `8 - (n mod 8)` (rule R124). -/
def padCount (n : Nat) : Nat := 8 - n % 8

/-- Padding add (rule R124). -/
def pad (m : List Byte) : List Byte :=
  m ++ List.replicate (padCount m.length) (BitVec.ofNat 8 (padCount m.length))

/-- Padding remove (rule R125): none is PaddingError. Only the last byte is examined. -/
def unpad (q : List Byte) : Option (List Byte) :=
  let p := (q.getD (q.length - 1) 0).toNat
  if q.length < p ∨ p = 0 ∨ 8 < p then none else some (q.take (q.length - p))

/-- The blocks of a byte string, `b[8j .. 8j+7]` for each j; the last one has fewer bytes where the length is not a multiple
of 8 (rules R129 and R133). -/
def chunks8 (b : List Byte) : List (List Byte) :=
  (List.range ((b.length + 7) / 8)).map fun j => (b.drop (8 * j)).take 8

/-- Block load of every block (rule R75). -/
def loadBlocks (b : List Byte) : List Block := (chunks8 b).map (be 64)

/-- Block store of every block, one after another (rule R76). -/
def storeBlocks (bs : List Block) : List Byte := bs.flatMap (unbe 8)

/-- CBC encryption from a chaining value: the output blocks and the chaining value after them (rule R127). -/
def cbcEncrypt (e : Block → Block) (iv : Block) : List Block → List Block × Block
  | [] => ([], iv)
  | p :: ps =>
    let c := e (p ^^^ iv)
    let r := cbcEncrypt e c ps
    (c :: r.1, r.2)

/-- CBC decryption from a chaining value: block j is XORed with the chaining value from before it, and the ciphertext block is
the next one (rule R127). -/
def cbcDecrypt (d : Block → Block) (iv : Block) : List Block → List Block × Block
  | [] => ([], iv)
  | c :: cs =>
    let r := cbcDecrypt d c cs
    ((d c ^^^ iv) :: r.1, r.2)

/-- OFB in both directions: the chaining register is advanced in full before each block, and a block of k bytes is XORed with
its k most significant bytes (rules R128 and R129). -/
def ofbRun (e : Block → Block) (iv : Block) : List (List Byte) → List Byte × Block
  | [] => ([], iv)
  | x :: xs =>
    let v := e iv
    let r := ofbRun e v xs
    (xorBytes x (top x.length v) ++ r.1, r.2)

/-- What ENCRYPT computes from a message in the active mode: the output bytes and IV_CHAIN after it (rule R133). -/
def State.encryptBytes (s : State) (m : List Byte) : List Byte × Block :=
  match s.aMode with
  | .ecb => (storeBlocks ((loadBlocks (pad m)).map s.blockE), s.ivChain)
  | .cbc =>
    let r := cbcEncrypt s.blockE s.ivChain (loadBlocks (pad m))
    (storeBlocks r.1, r.2)
  | .ofb => ofbRun s.blockE s.ivChain (chunks8 m)

/-- What DECRYPT computes from the IN bytes in the active mode, before padding is removed: the bytes Q and IV_CHAIN after them
(rule R134). OFB uses Block_E (rule R128). -/
def State.decryptBytes (s : State) (c : List Byte) : List Byte × Block :=
  match s.aMode with
  | .ecb => (storeBlocks ((loadBlocks c).map s.blockD), s.ivChain)
  | .cbc =>
    let r := cbcDecrypt s.blockD s.ivChain (loadBlocks c)
    (storeBlocks r.1, r.2)
  | .ofb => ofbRun s.blockE s.ivChain (chunks8 c)

/-- What DECRYPT makes of the bytes Q: padding is removed in ECB and CBC, and OFB has none (rule R134). -/
def State.stripPadding (s : State) (q : List Byte) : Option (List Byte) :=
  match s.aMode with
  | .ecb => unpad q
  | .cbc => unpad q
  | .ofb => some q

/-- Whether DECRYPT rejects a length that is no whole number of blocks: ECB and CBC with n = 0 or n mod 8 ≠ 0 (rule R134). -/
def State.rejectsLength (s : State) (n : Nat) : Bool :=
  match s.aMode with
  | .ecb => n == 0 || n % 8 != 0
  | .cbc => n == 0 || n % 8 != 0
  | .ofb => false

/-- ENCRYPT (rule R133). -/
def execEncrypt (s : State) : Result :=
  if s.configured = false then raiseError 0x2 .notConfigured s
  else if s.cfg.bufBytes < s.sampledLen then raiseError 0x2 .length s
  else
    match Memory.readBytes s.inBuf 0 s.sampledLen with
    | none => .fault .uninitialisedInput
    | some m => succeed 0x2 (s.encryptBytes m).1 { s with ivChain := (s.encryptBytes m).2 }

/-- DECRYPT (rule R134). A PaddingError is found after every block is processed, so IV_CHAIN keeps its new value (R149). -/
def execDecrypt (s : State) : Result :=
  if s.configured = false then raiseError 0x3 .notConfigured s
  else if s.cfg.bufBytes < s.sampledLen then raiseError 0x3 .length s
  else if s.rejectsLength s.sampledLen then raiseError 0x3 .length s
  else
    match Memory.readBytes s.inBuf 0 s.sampledLen with
    | none => .fault .uninitialisedInput
    | some c =>
      match s.stripPadding (s.decryptBytes c).1 with
      | none => raiseError 0x3 .padding { s with ivChain := (s.decryptBytes c).2 }
      | some out => succeed 0x3 out { s with ivChain := (s.decryptBytes c).2 }

end Sys2Proof.Machine
end

