-- ==== Sys2Proof/Machine/Control.lean ====
section
/-! DEFINITION. The control commands INIT, RESET_IV and KSREAD (45_control_commands.md). -/

namespace Sys2Proof.Machine

/-- INIT's effect on the active configuration and the chaining registers (rule R141). -/
def State.latch (s : State) (m : Mode) (o : InitOperands) : State :=
  { s with
    configured := true
    aMode := m
    aAlg := ctrlAlg o.ctrl
    aK0 := o.key0
    aK1 := o.key1
    aK2 := o.key2
    ivInit := o.iv
    ivChain := o.iv }

/-- INIT (rule R141), its checks in the order of rule R142: key length, mode, IV length. -/
def execInit (s : State) : Result :=
  if ctrlKeylen s.sampledInit.ctrl ≠ (ctrlAlg s.sampledInit.ctrl).keyBytes then raiseError 0x1 .validation s
  else
    match ctrlMode s.sampledInit.ctrl with
    | none => raiseError 0x1 .unsupportedMode s
    | some m =>
      if m.needsIv = true ∧ ctrlIvlen s.sampledInit.ctrl ≠ 8 then raiseError 0x1 .validation s
      else succeed 0x1 [] (s.latch m s.sampledInit)

/-- RESET_IV (rule R143). -/
def execResetIv (s : State) : Result :=
  if s.configured = false then raiseError 0x4 .notConfigured s
  else succeed 0x4 [] { s with ivChain := s.ivInit }

/-- The bytes KSREAD writes for a key: K_1 to K_16, 6 bytes each, the most significant first (rule R144). -/
def scheduleBytes (k : Block) : List Byte := (ks k).flatMap (unbe 6)

/-- KSREAD (rule R144). -/
def execKsread (ksel : Nat) (s : State) : Result :=
  if s.configured = false then raiseError 0x5 .notConfigured s
  else
    match s.selectKey ksel with
    | none => raiseError 0x5 .validation s
    | some k => succeed 0x5 (scheduleBytes k) s

end Sys2Proof.Machine
end

