-- ==== Sys2Proof/Machine/Reserved.lean ====
section
/-! DEFINITION. The reserved opcodes 0x0 and 0x6 to 0xF (rule R72): each completes with ERR = IllegalCommand, LASTOP = its OP
and OUTLEN = 0, and changes no other state. -/

namespace Sys2Proof.Machine

/-- What a reserved opcode does (rule R72). -/
def illegalCommand (op : BitVec 4) (s : State) : Result := raiseError op .illegalCommand s

/-- Reserved opcode 0x0 (rule R72). -/
def execReserved0 (s : State) : Result := illegalCommand 0x0 s

/-- Reserved opcode 0x6 (rule R72). -/
def execReserved6 (s : State) : Result := illegalCommand 0x6 s

/-- Reserved opcode 0x7 (rule R72). -/
def execReserved7 (s : State) : Result := illegalCommand 0x7 s

/-- Reserved opcode 0x8 (rule R72). -/
def execReserved8 (s : State) : Result := illegalCommand 0x8 s

/-- Reserved opcode 0x9 (rule R72). -/
def execReserved9 (s : State) : Result := illegalCommand 0x9 s

/-- Reserved opcode 0xA (rule R72). -/
def execReservedA (s : State) : Result := illegalCommand 0xA s

/-- Reserved opcode 0xB (rule R72). -/
def execReservedB (s : State) : Result := illegalCommand 0xB s

/-- Reserved opcode 0xC (rule R72). -/
def execReservedC (s : State) : Result := illegalCommand 0xC s

/-- Reserved opcode 0xD (rule R72). -/
def execReservedD (s : State) : Result := illegalCommand 0xD s

/-- Reserved opcode 0xE (rule R72). -/
def execReservedE (s : State) : Result := illegalCommand 0xE s

/-- Reserved opcode 0xF (rule R72). -/
def execReservedF (s : State) : Result := illegalCommand 0xF s

end Sys2Proof.Machine
end

