-- ==== Sys2Proof/Machine/Bus.lean ====
section
/-! DEFINITION. The host's side of the block: the 64 KiB window, the register map, and what a bus read or write does
(20_memory.md and 30_encoding.md). -/

namespace Sys2Proof.Machine

/-- The registers the host sees (rules R22 and R56). -/
inductive Reg where
  | id | ctrl | cmd | status | len | outlen
  | key0Hi | key0Lo | key1Hi | key1Lo | key2Hi | key2Lo
  | ivinHi | ivinLo | ivcurHi | ivcurLo
  deriving DecidableEq, Repr

/-- The window offset of a register (rule R56). -/
def Reg.offset : Reg → Nat
  | .id => 0x000
  | .ctrl => 0x004
  | .cmd => 0x008
  | .status => 0x00C
  | .len => 0x010
  | .outlen => 0x014
  | .key0Hi => 0x020
  | .key0Lo => 0x024
  | .key1Hi => 0x028
  | .key1Lo => 0x02C
  | .key2Hi => 0x030
  | .key2Lo => 0x034
  | .ivinHi => 0x038
  | .ivinLo => 0x03C
  | .ivcurHi => 0x040
  | .ivcurLo => 0x044

/-- The register map, in the order of rule R56. -/
def registerMap : List Reg :=
  [.id, .ctrl, .cmd, .status, .len, .outlen, .key0Hi, .key0Lo, .key1Hi, .key1Lo, .key2Hi, .key2Lo,
   .ivinHi, .ivinLo, .ivcurHi, .ivcurLo]

/-- The register at a window offset; none where the offset is reserved (rule R56). -/
def regAt (off : Nat) : Option Reg := registerMap.find? fun r => r.offset == off

/-- The regions of the window (rule R38), in address order. -/
inductive Region where
  | registers
  | reservedLow
  | inBuf
  | reservedAfterIn
  | outBuf
  | reservedAfterOut
  deriving DecidableEq, Repr

/-- The region of a window offset (rule R38). -/
def regionOf (c : Config) (off : Nat) : Region :=
  if off < 0x0048 then .registers
  else if off < 0x4000 then .reservedLow
  else if off < 0x4000 + c.bufBytes then .inBuf
  else if off < 0x8000 then .reservedAfterIn
  else if off < 0x8000 + c.outBytes then .outBuf
  else .reservedAfterOut

/-- The number of bytes of an access. -/
def AccessWidth.bytes : AccessWidth → Nat
  | .byte => 1
  | .half => 2
  | .word => 4

/-- The widths a region takes (rule R38). -/
def Region.takes : Region → AccessWidth → Bool
  | .registers, w => w == .word
  | .reservedLow, w => w == .word
  | .inBuf, _ => true
  | .reservedAfterIn, _ => true
  | .outBuf, _ => true
  | .reservedAfterOut, _ => true

/-- Whether an access is taken: its width is one the region lists and its offset is a multiple of its width (rule R41). -/
def taken (c : Config) (off : Nat) (w : AccessWidth) : Bool :=
  (regionOf c off).takes w && off % w.bytes == 0

/-- The bus address of an access. -/
def Access.addr : Access → Nat
  | .read a _ => a
  | .write a _ _ => a

/-- The window offset of a bus address; none where the address is not in this block's window (rules R38 and R40). -/
def windowOffset (c : Config) (addr : Nat) : Option Nat :=
  if c.base ≤ addr ∧ addr < c.base + 0x10000 then some (addr - c.base) else none

/-- The data bytes of a write in offset order, on big-endian lanes (rule R35). -/
def laneBytes (w : AccessWidth) (d : Word) : List Byte := unbe w.bytes d

/-- The free byte an unspecified read of a window offset returns in this state (log entry 6). -/
def State.freeByte (s : State) (off : Nat) : Byte := Config.freeByte s.draws off

/-- The free word an unspecified register read returns (rule R47). -/
def State.freeWord (s : State) (off : Nat) : Word :=
  be 32 [s.freeByte off, s.freeByte (off + 1), s.freeByte (off + 2), s.freeByte (off + 3)]

/-- The byte a host read of the window offset `off` of a buffer sees. An IN byte not written since reset, an OUT byte at or
beyond OUTLEN, and any OUT byte while BUSY = 1 are unspecified (rules R33, R44 and R47). -/
def State.bufferByte (s : State) (off : Nat) : Byte :=
  match regionOf s.cfg off with
  | .inBuf => (Memory.read s.inBuf (off - 0x4000)).getD (s.freeByte off)
  | .outBuf =>
    if s.busy = true ∨ s.outlen.toNat ≤ off - 0x8000 then s.freeByte off
    else (Memory.read s.outBuf (off - 0x8000)).getD (s.freeByte off)
  | .registers => 0
  | .reservedLow => 0
  | .reservedAfterIn => 0
  | .reservedAfterOut => 0

/-- What a read of a register returns (rules R25, R56, R57, R62, R63, R65 to R69). OUTLEN and IVCUR are unspecified while
BUSY = 1 (rule R47). -/
def State.readReg (s : State) : Reg → Word
  | .id => 0x44455333
  | .ctrl => s.ctrl
  | .cmd => 0
  | .status => s.statusWord
  | .len => s.len
  | .outlen => if s.busy then s.freeWord 0x014 else s.outlen
  | .key0Hi => 0
  | .key0Lo => 0
  | .key1Hi => 0
  | .key1Lo => 0
  | .key2Hi => 0
  | .key2Lo => 0
  | .ivinHi => hiWord s.ivin
  | .ivinLo => loWord s.ivin
  | .ivcurHi => if s.busy then s.freeWord 0x040 else hiWord s.ivChain
  | .ivcurLo => if s.busy then s.freeWord 0x044 else loWord s.ivChain

/-- The data word of a taken read (rules R35 and R39); a read narrower than a word is right-aligned (log entry 13). -/
def State.readData (s : State) (off : Nat) (w : AccessWidth) : Word :=
  match regionOf s.cfg off with
  | .registers =>
    match regAt off with
    | some r => s.readReg r
    | none => 0
  | .inBuf => be 32 ((List.range w.bytes).map fun k => s.bufferByte (off + k))
  | .outBuf => be 32 ((List.range w.bytes).map fun k => s.bufferByte (off + k))
  | .reservedLow => 0
  | .reservedAfterIn => 0
  | .reservedAfterOut => 0

/-- A read of the window. It changes no state of the block but ACCERR where it is refused (rules R41, R43 and R48). A taken one
moves the draw counter, so that each read of an unspecified byte draws anew (rows U4 to U8 of 93_implementation_defined.md, log
entry 6). -/
def hostRead (off : Nat) (w : AccessWidth) (s : State) : State :=
  if taken s.cfg off w then
    { s with answer := some (s.readData off w), draws := s.draws + 1 }
  else { s with answer := some 0, accErr := true }

/-- A write to CMD: it starts a command if the engine is idle, else it is dropped and sets OVR (rules R62, R137, R139). -/
def writeCmd (d : Word) (s : State) : State :=
  if s.busy then { s with ovr := true } else s.accept d

/-- What a write to a register does (rules R56 to R69). -/
def writeReg (r : Reg) (d : Word) (s : State) : State :=
  match r with
  | .id => s
  | .ctrl => { s with ctrl := d &&& ctrlMask }
  | .cmd => writeCmd d s
  | .status => s.writeStatus d
  | .len => { s with len := d }
  | .outlen => s
  | .key0Hi => { s with key0 := withHi s.key0 d }
  | .key0Lo => { s with key0 := withLo s.key0 d }
  | .key1Hi => { s with key1 := withHi s.key1 d }
  | .key1Lo => { s with key1 := withLo s.key1 d }
  | .key2Hi => { s with key2 := withHi s.key2 d }
  | .key2Lo => { s with key2 := withLo s.key2 d }
  | .ivinHi => { s with ivin := withHi s.ivin d }
  | .ivinLo => { s with ivin := withLo s.ivin d }
  | .ivcurHi => s
  | .ivcurLo => s

/-- Whether an ENCRYPT or a DECRYPT is in progress (rule R47). -/
def State.runsCipher (s : State) : Bool :=
  match s.running with
  | some r => r.op == 0x2 || r.op == 0x3
  | none => false

/-- A write to the IN window: it stores its bytes, or it races a busy ENCRYPT or DECRYPT (rules R47 and R166). -/
def writeIn (off : Nat) (w : AccessWidth) (d : Word) (s : State) : Result :=
  if s.runsCipher then .fault .hostRaceOnIN
  else .next { s with inBuf := Memory.writeBytes s.inBuf (off - 0x4000) (laneBytes w d) }

/-- What a taken write does, by region: reserved offsets and the OUT window ignore it (rules R27 and R39). -/
def takenWrite (off : Nat) (w : AccessWidth) (d : Word) (s : State) : Result :=
  match regionOf s.cfg off with
  | .registers =>
    match regAt off with
    | some r => .next (writeReg r d s)
    | none => .next s
  | .inBuf => writeIn off w d s
  | .reservedLow => .next s
  | .reservedAfterIn => .next s
  | .outBuf => .next s
  | .reservedAfterOut => .next s

/-- The model's own bookkeeping of a write: it has no answer, and it moves the draw counter (log entries 6 and 13). -/
def State.noteWrite (s : State) : State := { s with answer := none, draws := s.draws + 1 }

/-- A write of the window; a refused one sets ACCERR and changes nothing else (rules R41 and R48). -/
def hostWrite (off : Nat) (w : AccessWidth) (d : Word) (s : State) : Result :=
  if taken s.cfg off w then takenWrite off w d s.noteWrite
  else .next { s.noteWrite with accErr := true }

/-- One access of the host. An access outside the window does not reach this block (rule R40, log entry 14). -/
def hostAccess (a : Access) (s : State) : Result :=
  match windowOffset s.cfg a.addr with
  | none => .next { s with answer := none }
  | some off =>
    match a with
    | .read _ w => .next (hostRead off w s)
    | .write _ w d => hostWrite off w d s

/-- Whether an access is a taken write to CMD (rule R153). -/
def isCmdWrite (c : Config) (a : Access) : Bool :=
  match a with
  | .read _ _ => false
  | .write addr w _ => w == .word && windowOffset c addr == some 0x008

end Sys2Proof.Machine
end

