-- ==== Sys2Proof/Machine/Agents.lean ====
section
/-! DEFINITION. The two agents (rule R16) and the events that reach the block: an access of the host, a turn of the engine, both
at one instant, and reset. -/

namespace Sys2Proof.Machine

/-- The command the busy engine runs, read from its sampled OP and KSEL (rule R137). -/
def Command.instr (r : Command) : Instr := decodeFields r.op r.ksel

/-- A turn of the engine: it runs the command in progress to completion (rules R138 and R140). While idle it has no step of its
own (rule R16). -/
def engineTurn (s : State) : Result :=
  match s.running with
  | none => .next s
  | some r => exec r.instr s

/-- An access at the very instant of the engine's turn (log entry 5): a CMD write counts as arriving after the completion (rule
R153), and anything else before it, so that the completion's setting of DONE wins over a clear (rule R64). -/
def togetherTurn (a : Access) (s : State) : Result :=
  if isCmdWrite s.cfg a then andThen (engineTurn s) (hostAccess a)
  else andThen (hostAccess a s) engineTurn

/-- The block while the reset input is asserted: every register has its reset value, the engine is idle, and IN and OUT hold
unspecified values (rule R160). The parameters, the pending events, the latest answer and the draw counter are not the block's
registers (log entry 22). -/
def holdReset (s : State) : State :=
  { State.resetWith s.cfg with resetLine := true, bus := s.bus, answer := s.answer, draws := s.draws }

/-- The reset input takes a level. When it is asserted and when it is released every register takes its reset value, and a command
in progress is abandoned (rules R160 and R161); releasing it where it is not asserted is no change of it. -/
def setResetLine (level : Bool) (s : State) : State :=
  if level || s.resetLine then
    { State.resetWith s.cfg with resetLine := level, bus := s.bus, draws := s.draws + 1 }
  else s

/-- One event while the reset input is released. -/
def takeEvent (e : BusEvent) (s : State) : Result :=
  match e with
  | .host a => hostAccess a s
  | .engine => engineTurn s
  | .together a => togetherTurn a s
  | .reset level => .next (setResetLine level s)

/-- An access while the reset input is asserted: a read answers from the reset values, and nothing it would write stays. -/
def heldAccess (a : Access) (s : State) : Result :=
  andThen (hostAccess a (holdReset s)) fun t => .next (holdReset t)

/-- One event while the reset input is asserted (rule R160): no command is accepted, and the engine has none to run. -/
def heldEvent (e : BusEvent) (s : State) : Result :=
  match e with
  | .host a => heldAccess a s
  | .engine => .next (holdReset s)
  | .together a => heldAccess a s
  | .reset level => .next (setResetLine level s)

/-- One event, by the level of the reset input. -/
def nextEvent (e : BusEvent) (s : State) : Result := if s.resetLine then heldEvent e s else takeEvent e s

/-- The next move: the first pending event, or, with none pending, the engine's turn (log entries 3 and 4). -/
def nextMove (s : State) : Result :=
  match s.bus with
  | [] => nextEvent .engine s
  | e :: rest => nextEvent e { s with bus := rest }

/-- A busy engine that has just accepted the word `w`, with the reset input released, and whose turn is next (log entry 12). -/
def State.withCommand (s : State) (w : Word) : State :=
  { s.accept w with resetLine := false, bus := .engine :: s.bus }

end Sys2Proof.Machine
end

