-- ==== Sys2Proof/Machine/Step.lean ====
section
/-! DEFINITION. One step of the machine, and the state in which the next step runs a given command. -/

namespace Sys2Proof.Machine

/-- One step: the next move of the host or of the engine. -/
def step (s : State) : Host.Outcome State Fault Refusal := nextMove s

/-- `s` with the table word `w` of `nbits` bits accepted as the command in progress and the engine's turn next, so that the very
next step runs exactly it (log entry 12). -/
def State.withFetchWord (s : State) (nbits w : Nat) : State := s.withCommand (tableWord nbits w)

end Sys2Proof.Machine
end

