-- ==== Sys2Proof/Safety.lean ====
section
/-! DEFINITION. What claims are stated in: the invariant every step keeps, and the spec's per-block formulas written as
sequences over the block number j, independent of the lists the meanings run over. -/

namespace Sys2Proof.Machine

/-- What holds of the state at every moment: the parameters are legal (rule R8), CTRL's reserved bits read 0 (rule R58), the two
buffers keep their canonical form and their size (rule R26), OUT holds exactly the OUTLEN valid bytes (rules R44 and R66), the
registers no INIT has written hold their reset values (rule R32), a busy engine holds what accept samples (rule R137), and while
the reset input is asserted every register has its reset value (rule R160). -/
structure State.Inv (s : State) : Prop where
  params : s.cfg.wf
  ctrlReserved : s.ctrl &&& ~~~ctrlMask = 0
  inForm : Memory.wf s.inBuf
  inSize : ∀ c ∈ s.inBuf, c.1 < s.cfg.bufBytes
  outForm : Memory.wf s.outBuf
  outValid : ∀ k, (Memory.read s.outBuf k).isSome = true ↔ k < s.outlen.toNat
  outSize : s.outlen.toNat ≤ s.cfg.outBytes
  unconfigured : s.configured = false →
    s.aMode = .ecb ∧ s.aAlg = .des ∧ s.aK0 = 0 ∧ s.aK1 = 0 ∧ s.aK2 = 0 ∧ s.ivInit = 0 ∧ s.ivChain = 0
  sampledOnlyByInit : ∀ r, s.running = some r → (r.init.isSome = true ↔ r.op = 0x1)
  sampledReserved : ∀ r o, s.running = some r → r.init = some o → o.ctrl &&& ~~~ctrlMask = 0
  held : s.resetLine = true → s = holdReset s

/-- Block j of a byte string: its bytes 8j to 8j+7 (rule R75). -/
def blockAt (b : List Byte) (j : Nat) : Block := be 64 ((b.drop (8 * j)).take 8)

/-- Block j of OUT, as `MemRead(OUT, 8j, 8)` reads it (rule R14). -/
def State.outBlock (s : State) (j : Nat) : Option Block :=
  (Memory.readBytes s.outBuf (8 * j) 8).map (be 64)

/-- IV_CHAIN before block j of a CBC encryption of the blocks `p`, from the value `iv` (rule R127). -/
def cbcChain (e : Block → Block) (iv : Block) (p : Nat → Block) : Nat → Block
  | 0 => iv
  | j + 1 => e (p j ^^^ cbcChain e iv p j)

/-- IV_CHAIN before block j of a CBC decryption of the blocks `c` (rule R127). -/
def cbcPrevious (iv : Block) (c : Nat → Block) : Nat → Block
  | 0 => iv
  | j + 1 => c j

/-- IV_CHAIN before block j of an OFB run from the value `iv` (rule R128). -/
def ofbChain (e : Block → Block) (iv : Block) : Nat → Block
  | 0 => iv
  | j + 1 => e (ofbChain e iv j)

/-- The IN bytes the sampled command reads, where the host has written them all (rules R44 and R164). -/
def State.message (s : State) : Option (List Byte) := Memory.readBytes s.inBuf 0 s.sampledLen

/-- A state whose next event is the host's write of `d` to the window offset `off`, 4 bytes wide. -/
def State.hostWrites (s : State) (off : Nat) (w : AccessWidth) (d : Word) : State :=
  { s with bus := .host (.write (s.cfg.base + off) w d) :: s.bus }

/-- A state whose next event is the host's read of the window offset `off`. -/
def State.hostReads (s : State) (off : Nat) (w : AccessWidth) : State :=
  { s with bus := .host (.read (s.cfg.base + off) w) :: s.bus }

end Sys2Proof.Machine
end

