-- ==== Sys2Proof/Certificates/Slice0/Obligations.lean ====
section
/-! DEFINITION. The statements for the provers, each the formal text of a numbered rule of spec/ or of what follows from one. -/

open Sys2Proof Sys2Proof.Machine

/-! ## Encoding -/

/-- The command words of 30_encoding.md section 4, written out as the four bytes the bus carries, decode to their commands. -/
def Obligations.WrittenOutWordsDecode : Prop :=
  decode [0x00, 0x00, 0x00, 0x01] = .ok (.init, []) ∧
  decode [0x00, 0x00, 0x00, 0x02] = .ok (.encrypt, []) ∧
  decode [0x00, 0x00, 0x00, 0x03] = .ok (.decrypt, []) ∧
  decode [0x00, 0x00, 0x00, 0x04] = .ok (.resetIv, []) ∧
  decode [0x00, 0x00, 0x00, 0x05] = .ok (.ksread 0, []) ∧
  decode [0x00, 0x00, 0x00, 0x15] = .ok (.ksread 1, []) ∧
  decode [0x00, 0x00, 0x00, 0x25] = .ok (.ksread 2, []) ∧
  decode [0xFF, 0xFF, 0xFF, 0xC2] = .ok (.encrypt, []) ∧
  decode [0x00, 0x00, 0x00, 0x00] = .ok (.reserved0, []) ∧
  decode [0x00, 0x00, 0x00, 0x0F] = .ok (.reservedF, [])

/-- Rule R70: the OP field, and nothing else but KSREAD's KSEL, selects the command, for every command word. -/
def Obligations.OpFieldSelectsCommand : Prop :=
  ∀ w : Word,
    (w &&& 0xF = 0x0 → decodeWord w = .reserved0) ∧ (w &&& 0xF = 0x1 → decodeWord w = .init) ∧
    (w &&& 0xF = 0x2 → decodeWord w = .encrypt) ∧ (w &&& 0xF = 0x3 → decodeWord w = .decrypt) ∧
    (w &&& 0xF = 0x4 → decodeWord w = .resetIv) ∧
    (w &&& 0xF = 0x5 → decodeWord w = .ksread (w.extractLsb' 4 2).toNat) ∧
    (w &&& 0xF = 0x6 → decodeWord w = .reserved6) ∧ (w &&& 0xF = 0x7 → decodeWord w = .reserved7) ∧
    (w &&& 0xF = 0x8 → decodeWord w = .reserved8) ∧ (w &&& 0xF = 0x9 → decodeWord w = .reserved9) ∧
    (w &&& 0xF = 0xA → decodeWord w = .reservedA) ∧ (w &&& 0xF = 0xB → decodeWord w = .reservedB) ∧
    (w &&& 0xF = 0xC → decodeWord w = .reservedC) ∧ (w &&& 0xF = 0xD → decodeWord w = .reservedD) ∧
    (w &&& 0xF = 0xE → decodeWord w = .reservedE) ∧ (w &&& 0xF = 0xF → decodeWord w = .reservedF)

/-- Decode and encode agree on every well-formed command, whatever bytes follow it. -/
def Obligations.DecodeOfEncodeIsTheCommand : Prop :=
  ∀ (i : Instr) (rest : List Byte), WellFormed i → decode (encode i ++ rest) = .ok (i, rest)

/-- Encoding what a word decodes to gives the word back with every ignored bit 0: bits 31:6, and KSEL where it is not read. -/
def Obligations.EncodeOfDecodeKeepsReadBits : Prop :=
  ∀ w : Word, WellFormed (decodeWord w) ∧
    encodeWord (decodeWord w) = if w &&& 0xF = 0x5 then w &&& 0x3F else w &&& 0xF

/-- Rule R73: the reserved bits of the command word, KSEL for every opcode but KSREAD, and the reserved bits of CTRL and STATUS
are ignored when written, and those of CTRL and STATUS read 0. -/
def Obligations.ReservedBitsAreIgnored : Prop :=
  (∀ w v : Word, w &&& 0x3F = v &&& 0x3F → decodeWord w = decodeWord v) ∧
  (∀ w v : Word, w &&& 0xF = v &&& 0xF → w &&& 0xF ≠ 0x5 → decodeWord w = decodeWord v) ∧
  (∀ (s : State) (d : Word), (writeReg .ctrl d s).readReg .ctrl &&& 0xFFF0E0F0 = 0) ∧
  (∀ (s : State) (d e : Word), d &&& 0x000F1F0F = e &&& 0x000F1F0F → writeReg .ctrl d s = writeReg .ctrl e s) ∧
  (∀ s : State, s.readReg .status &&& 0xFFFF00E0 = 0) ∧
  (∀ (s : State) (d e : Word), d &&& 0x1A = e &&& 0x1A → writeReg .status d s = writeReg .status e s)

/-! ## The datapath -/

/-- Output bit ⟨i⟩ of a permutation is input bit ⟨T[i]⟩, as a number the sum of rule R77; the rule's example under IP; and it is
linear over XOR, which rule R77 marks as its own inference. -/
def Obligations.PermuteFollowsItsTable : Prop :=
  (∀ (n w : Nat) (t : List Nat) (v : BitVec w), t.length = n → (∀ j ∈ t, 1 ≤ j ∧ j ≤ w) →
    (∀ i, 1 ≤ i → i ≤ n → cipherBit (permute n t v) i = cipherBit v (t.getD (i - 1) 0)) ∧
    (permute n t v).toNat =
      ((List.range n).map fun i => (v.getLsbD (w - t.getD i 0)).toNat * 2 ^ (n - 1 - i)).sum) ∧
  (∀ (n w : Nat) (t : List Nat) (a b : BitVec w), t.length = n →
    permute n t (a ^^^ b) = permute n t a ^^^ permute n t b) ∧
  (∀ x : Block, (∀ j, 1 ≤ j → j ≤ 64 → (cipherBit x j = true ↔ j = 58)) →
    ∀ i, 1 ≤ i → i ≤ 64 → (cipherBit (ip x) i = true ↔ i = 1))

/-- Rule R82: the final permutation is its table, and the inverse of the initial one, as functions and as tables. The entries of
the two tables are what the spec marks as general knowledge (rules R81 and R82, log entry 23). -/
def Obligations.FinalPermutationInvertsInitial : Prop :=
  (∀ x : Block, fp (ip x) = x ∧ ip (fp x) = x) ∧
  (∀ i, 1 ≤ i → i ≤ 64 → tFP.getD (tIP.getD (i - 1) 0 - 1) 0 = i) ∧
  ∀ x : Block, fp x = permute 64
    [40, 8, 48, 16, 56, 24, 64, 32, 39, 7, 47, 15, 55, 23, 63, 31,
     38, 6, 46, 14, 54, 22, 62, 30, 37, 5, 45, 13, 53, 21, 61, 29,
     36, 4, 44, 12, 52, 20, 60, 28, 35, 3, 43, 11, 51, 19, 59, 27,
     34, 2, 42, 10, 50, 18, 58, 26, 33, 1, 41, 9, 49, 17, 57, 25] x

/-- Rule R80: a rotation by n in cipher numbering, rotations that sum to 28 give the value back, and the rule's example. -/
def Obligations.RotationMovesCipherBits : Prop :=
  (∀ (v : HalfKey) (n i : Nat), (n = 1 ∨ n = 2) → 1 ≤ i → i ≤ 28 →
    cipherBit (rotl28 v n) i = cipherBit v ((i - 1 + n) % 28 + 1)) ∧
  (∀ (v : HalfKey) (ns : List Nat), (∀ n ∈ ns, n = 1 ∨ n = 2) → ns.sum = 28 → ns.foldl rotl28 v = v) ∧
  rotl28 0x8000001 1 = 0x0000003

/-- Each round rotates the previous round's halves (rule R89), so C_i and D_i are C_0 and D_0 rotated by the cumulative count
s_1 + ... + s_i, which rule R89 marks as its own inference from itself and rule R86; and subkey i is PC2 of C_i and D_i (rule
R90). -/
def Obligations.SubkeysUseCumulativeRotations : Prop :=
  ∀ k : Block, (ks k).length = 16 ∧
    (∀ h : HalfKey, (rotations h shiftCounts)[0]? = some (rotl28 h (shiftCounts.getD 0 0)) ∧
      ∀ i, 1 ≤ i → i < 16 →
        (rotations h shiftCounts)[i]? =
          (rotations h shiftCounts)[i - 1]?.map fun c => rotl28 c (shiftCounts.getD i 0)) ∧
    ∀ i, 1 ≤ i → i ≤ 16 →
      (rotations (c0 k) shiftCounts)[i - 1]? = some ((c0 k).rotateLeft (shiftCounts.take i).sum) ∧
      (rotations (d0 k) shiftCounts)[i - 1]? = some ((d0 k).rotateLeft (shiftCounts.take i).sum) ∧
      ∀ c d, (rotations (c0 k) shiftCounts)[i - 1]? = some c → (rotations (d0 k) shiftCounts)[i - 1]? = some d →
        (ks k)[i - 1]? = some (pc2 (c ++ d))

/-- Element i of KSR(k) is element 17 - i of KS(k) (rule R92); and C_16 = C_0 and D_16 = D_0, which rule R93 marks as the spec's own
inference from rules R86 and R89. -/
def Obligations.ReversedScheduleAndFullTurn : Prop :=
  ∀ k : Block, (ksr k).length = 16 ∧
    (∀ i, 1 ≤ i → i ≤ 16 → (ksr k)[i - 1]? = (ks k)[17 - i - 1]?) ∧
    (rotations (c0 k) shiftCounts)[15]? = some (c0 k) ∧ (rotations (d0 k) shiftCounts)[15]? = some (d0 k)

/-- Keys that differ only in their parity bits, the least significant bit of each byte, give the same schedule (the corner case of
the forward schedule, 41_key_schedule.md section 2, which marks it as its own inference). -/
def Obligations.ParityBitsDoNotReachTheSchedule : Prop :=
  ∀ k j : Block, k &&& 0xFEFEFEFEFEFEFEFE = j &&& 0xFEFEFEFEFEFEFEFE → ks k = ks j

/-- What the spec says of its tables beside their entries: E's closed form, P and each S-box row a permutation, the parity
positions PC-1 never lists, the positions PC-2 never lists and the half each of its entries reads, and the cumulative shifts. -/
def Obligations.TablesHaveTheirStatedShape : Prop :=
  (∀ m, m < 8 → ∀ k, k < 6 → tE.getD (6 * m + k) 0 = (4 * m + k + 31) % 32 + 1) ∧ tE.length = 48 ∧
  tP.Perm (List.range' 1 32) ∧
  (tPC1 ++ [8, 16, 24, 32, 40, 48, 56, 64]).Perm (List.range' 1 64) ∧
  (tPC2 ++ [9, 18, 22, 25, 35, 38, 43, 54]).Perm (List.range' 1 56) ∧
  (∀ i, i < 24 → tPC2.getD i 0 ≤ 28) ∧ (∀ i, 24 ≤ i → i < 48 → 29 ≤ tPC2.getD i 0) ∧
  (List.range' 1 16).map (fun i => (shiftCounts.take i).sum) = [1, 2, 4, 6, 8, 10, 12, 14, 15, 17, 19, 21, 23, 25, 27, 28] ∧
  ∀ t ∈ [tS1, tS2, tS3, tS4, tS5, tS6, tS7, tS8], t.length = 4 ∧ ∀ row ∈ t, row.Perm (List.range 16)

/-- Chunk m of Y is its six bits 53-6m down to 48-6m; the outer two bits of a chunk are the row and the inner four the column of
its lookup in S-box m, whose 4-bit value is nibble m of the array's output; and the example of rule R99. Which outer bit is the
row's high bit and how the inner bits form the column is what the spec marks as general knowledge (rules R98 and R99, log entry
23). -/
def Obligations.SubstitutionIndexesByChunk : Prop :=
  let row (b : BitVec 6) : Nat := 2 * (b.getLsbD 5).toNat + (b.getLsbD 0).toNat
  let col (b : BitVec 6) : Nat := 8 * (b.getLsbD 4).toNat + 4 * (b.getLsbD 3).toNat + 2 * (b.getLsbD 2).toNat + (b.getLsbD 1).toNat
  let look (t : List (List Nat)) (b : BitVec 6) : BitVec 4 := BitVec.ofNat 4 ((t.getD (row b) []).getD (col b) 0)
  (∀ y : Subkey,
    (sboxArray y).extractLsb' 28 4 = look tS1 (y.extractLsb' 42 6) ∧
    (sboxArray y).extractLsb' 24 4 = look tS2 (y.extractLsb' 36 6) ∧
    (sboxArray y).extractLsb' 20 4 = look tS3 (y.extractLsb' 30 6) ∧
    (sboxArray y).extractLsb' 16 4 = look tS4 (y.extractLsb' 24 6) ∧
    (sboxArray y).extractLsb' 12 4 = look tS5 (y.extractLsb' 18 6) ∧
    (sboxArray y).extractLsb' 8 4 = look tS6 (y.extractLsb' 12 6) ∧
    (sboxArray y).extractLsb' 4 4 = look tS7 (y.extractLsb' 6 6) ∧
    (sboxArray y).extractLsb' 0 4 = look tS8 (y.extractLsb' 0 6)) ∧
  (∀ (y : Subkey) (m i : Nat), 1 ≤ m → m ≤ 8 → 1 ≤ i → i ≤ 6 → cipherBit (chunk m y) i = cipherBit y (6 * (m - 1) + i)) ∧
  sboxRow 0b011000 = 0 ∧ sboxCol 0b011000 = 12

/-- The round function, as the pseudocode of rule R110 accumulates the eight lookups; the rule's values on zeros and ones; and what
rule R110 marks as its own inference, that complementing both operands changes nothing, and the worked example. -/
def Obligations.RoundFunctionFollowsItsSteps : Prop :=
  (∀ (r : Half) (k : Subkey),
    roundF r k = contract
      ([(1, tS1), (2, tS2), (3, tS3), (4, tS4), (5, tS5), (6, tS6), (7, tS7), (8, tS8)].foldl (fun (sout : Half) mt =>
        let b : BitVec 6 := (expand r ^^^ k).extractLsb' (48 - 6 * mt.1) 6
        let row := (b.getLsbD 5).toNat * 2 + (b.getLsbD 0).toNat
        let col := (b.extractLsb' 1 4).toNat
        (sout <<< 4) ||| BitVec.ofNat 32 ((mt.2.getD row []).getD col 0)) 0)) ∧
  roundF 0 0 = 0xD8D8DBBC ∧ roundF 0xFFFFFFFF 0 = 0x38DBF9CB ∧
  (∀ (r : Half) (k : Subkey), roundF (~~~r) (~~~k) = roundF r k) ∧
  expand 0xF0AAF0AA = 0x7A15557A1555 ∧ expand 0xF0AAF0AA ^^^ 0x1B02EFFC7072 = 0x6117BA866527 ∧
  ((List.range' 1 8).map fun m => (chunk m 0x6117BA866527).toNat) = [24, 17, 30, 58, 33, 38, 20, 39] ∧
  sboxArray 0x6117BA866527 = 0x5C82B597 ∧ roundF 0xF0AAF0AA 0x1B02EFFC7072 = 0x234AA9BB

/-- The Feistel primitive under the reversed subkey list undoes it, for every block and every list (43_block_cipher.md section 1,
which marks it as its own inference, rule R115). -/
def Obligations.FeistelReversedInverts : Prop :=
  ∀ (x : Block) (keys : List Subkey), feistel (feistel x keys) keys.reverse = x

/-- Single DES in both directions is the one primitive under KS and KSR (rule R116); each direction undoes the other, which rule
R116 marks as its own inference; and the rule's example. -/
def Obligations.SingleDesDirectionsInvert : Prop :=
  (∀ k x : Block, desE k x = feistel x (ks k) ∧ desD k x = feistel x (ksr k) ∧
    desD k (desE k x) = x ∧ desE k (desD k x) = x) ∧
  desE 0x133457799BBCDFF1 0x0123456789ABCDEF = 0x85E813540F0AB405 ∧
  desD 0x133457799BBCDFF1 0x85E813540F0AB405 = 0x0123456789ABCDEF

/-- The complement property of DES (43_block_cipher.md section 2, which marks it as its own inference, rule R117). -/
def Obligations.DesComplementProperty : Prop :=
  ∀ k x : Block, desE (~~~k) (~~~x) = ~~~(desE k x)

/-- Triple DES applies K0, K1, K2 in that order, and decryption their inverses in the opposite order (rules R118 and R119); and what
the spec marks as its own inference: decryption undoes encryption (rule R119), and the worked example (rule R121). -/
def Obligations.TripleDesOrderAndInverse : Prop :=
  (∀ k0 k1 k2 x : Block,
    tdesE k0 k1 k2 x = desE k2 (desD k1 (desE k0 x)) ∧
    tdesD k0 k1 k2 x = desD k0 (desE k1 (desD k2 x)) ∧
    tdesD k0 k1 k2 (tdesE k0 k1 k2 x) = x) ∧
  tdesE 0x0123456789ABCDEF 0x23456789ABCDEF01 0x456789ABCDEF0123 0x5468652071756663 = 0xA826FD8CE53B855F ∧
  tdesD 0x0123456789ABCDEF 0x23456789ABCDEF01 0x456789ABCDEF0123 0xA826FD8CE53B855F = 0x5468652071756663

/-- With three equal keys Triple DES is single DES, and the example (43_block_cipher.md section 3, which marks it as its own
inference, rule R120). -/
def Obligations.TripleDesDegeneratesToSingle : Prop :=
  (∀ k x : Block, tdesE k k k x = desE k x ∧ tdesD k k k x = desD k x) ∧
  tdesE 0x133457799BBCDFF1 0x133457799BBCDFF1 0x133457799BBCDFF1 0x0123456789ABCDEF = 0x85E813540F0AB405

/-- The block primitive is chosen by A_ALG, DES reads A_K0 alone (rule R122), and its directions undo each other, which the spec
marks as its own inference (rule R123). -/
def Obligations.ActiveBlockPrimitiveInverts : Prop :=
  ∀ (s : State) (x : Block),
    (s.aAlg = .des → s.blockE x = desE s.aK0 x ∧ s.blockD x = desD s.aK0 x) ∧
    (s.aAlg = .tdes → s.blockE x = tdesE s.aK0 s.aK1 s.aK2 x ∧ s.blockD x = tdesD s.aK0 s.aK1 s.aK2 x) ∧
    s.blockD (s.blockE x) = x ∧ s.blockE (s.blockD x) = x

/-! ## Padding -/

/-- Padding appends p = 8 - (n mod 8) bytes of value p, 1 ≤ p ≤ 8, to a positive multiple of 8, with the example and the corner
cases (rule R124); and removing the padding of a padded message gives the message, rule R135 (e), which the spec marks as its own
inference. -/
def Obligations.PaddingAddsItsOwnCount : Prop :=
  (∀ m : List Byte,
    1 ≤ 8 - m.length % 8 ∧ 8 - m.length % 8 ≤ 8 ∧
    (pad m).length = m.length + (8 - m.length % 8) ∧ (pad m).length % 8 = 0 ∧ 0 < (pad m).length ∧
    (∀ k, k < m.length → (pad m)[k]? = m[k]?) ∧
    (∀ k, m.length ≤ k → k < (pad m).length → (pad m)[k]? = some (BitVec.ofNat 8 (8 - m.length % 8)))) ∧
  pad [] = [8, 8, 8, 8, 8, 8, 8, 8] ∧
  (∀ m : List Byte, m.length = 8 → pad m = m ++ [8, 8, 8, 8, 8, 8, 8, 8]) ∧
  pad [0x61, 0x62, 0x63] = [0x61, 0x62, 0x63, 5, 5, 5, 5, 5] ∧
  ∀ m : List Byte, unpad (pad m) = some m

/-- Padding removal looks at the last byte p alone: p > n, p = 0 or p > 8 is PaddingError, else the last p bytes go, with the
examples (rule R125); and p > n never holds with p ≤ 8, which rule R125 marks as its own inference. -/
def Obligations.PaddingRemovalReadsLastByte : Prop :=
  (∀ (q : List Byte) (p : Byte), 0 < q.length → q.length % 8 = 0 → q[q.length - 1]? = some p →
    ((q.length < p.toNat ∨ p = 0 ∨ 8 < p.toNat) → unpad q = none) ∧
    (¬(q.length < p.toNat ∨ p = 0 ∨ 8 < p.toNat) → unpad q = some (q.take (q.length - p.toNat))) ∧
    (p.toNat ≤ 8 → p.toNat ≤ q.length)) ∧
  unpad [0x61, 0x62, 0x63, 5, 5, 5, 5, 5] = some [0x61, 0x62, 0x63] ∧
  unpad [0x61, 0x62, 0x63, 5, 5, 5, 5, 9] = none

/-! ## INIT -/

/-- Rules R141 and R142: INIT checks the key length, then the mode, then the IV length in CBC and OFB, and reports the first
failing check with nothing but STATUS and OUTLEN changed (OUT is unspecified after any command, rule R44); where all pass it
latches the sampled registers; and the worked example, CTRL = 0x0008_0801. -/
def Obligations.InitLatchesOrReportsFirstFailure : Prop :=
  ∀ s : State,
    let c := s.sampledInit.ctrl
    let keyOk := (ctrlAlg c = .des ∧ ctrlKeylen c = 8) ∨ (ctrlAlg c = .tdes ∧ ctrlKeylen c = 24)
    let failed (e : ErrCode) : State :=
      { s with running := none, done := true, err := e, lastop := 0x1, outlen := 0, outBuf := [], draws := s.draws + 1 }
    (¬keyOk → exec .init s = .next (failed .validation)) ∧
    (keyOk → ctrlMode c = none → exec .init s = .next (failed .unsupportedMode)) ∧
    (∀ m, keyOk → ctrlMode c = some m → m ≠ .ecb → ctrlIvlen c ≠ 8 → exec .init s = .next (failed .validation)) ∧
    (∀ m, keyOk → ctrlMode c = some m → (m = .ecb ∨ ctrlIvlen c = 8) →
      exec .init s = .next
        { s with
          configured := true, aMode := m, aAlg := ctrlAlg c
          aK0 := s.sampledInit.key0, aK1 := s.sampledInit.key1, aK2 := s.sampledInit.key2
          ivInit := s.sampledInit.iv, ivChain := s.sampledInit.iv
          running := none, done := true, err := .ok, lastop := 0x1, outlen := 0, outBuf := [], draws := s.draws + 1 }) ∧
    (c = 0x00080801 →
      ∃ t, exec .init s = .next t ∧ t.configured = true ∧ t.aMode = .cbc ∧ t.aAlg = .des ∧
        t.ivChain = s.sampledInit.iv ∧ t.err = .ok)

/-- The fields of CTRL that INIT reads, by their bit positions (30_encoding.md section 2). -/
def Obligations.InitReadsCtrlFields : Prop :=
  ∀ c : Word,
    (ctrlMode c = some .ecb ↔ c.getLsbD 1 = false ∧ c.getLsbD 0 = false) ∧
    (ctrlMode c = some .cbc ↔ c.getLsbD 1 = false ∧ c.getLsbD 0 = true) ∧
    (ctrlMode c = some .ofb ↔ c.getLsbD 1 = true ∧ c.getLsbD 0 = false) ∧
    (ctrlMode c = none ↔ c.getLsbD 1 = true ∧ c.getLsbD 0 = true) ∧
    (ctrlAlg c = .tdes ↔ c.getLsbD 2 = true) ∧
    ctrlKeylen c = c.toNat / 2 ^ 8 % 32 ∧ ctrlIvlen c = c.toNat / 2 ^ 16 % 16

/-! ## ENCRYPT and DECRYPT -/

/-- Rule R126: in ECB, ENCRYPT puts Block_E of block j of the padded message at block j of OUT, DECRYPT computes Block_D of block j
of the ciphertext, of which OUT holds what is left when the padding is removed, and neither reads or writes IV_CHAIN: from
another value of it each gives the same OUT and leaves that value. -/
def Obligations.EcbBlockByBlock : Prop :=
  ∀ (s : State) (m : List Byte), s.cfg.wf → s.configured = true → s.aMode = .ecb →
    s.sampledLen ≤ s.cfg.bufBytes → s.message = some m →
    (∃ t, exec .encrypt s = .next t ∧ t.err = .ok ∧ t.lastop = 0x2 ∧ t.done = true ∧ t.busy = false ∧
      t.outlen.toNat = s.sampledLen + (8 - s.sampledLen % 8) ∧
      (∀ j, 8 * j < t.outlen.toNat → t.outBlock j = some (s.blockE (blockAt (pad m) j))) ∧
      t.ivChain = s.ivChain ∧
      ∀ v : Block, exec .encrypt { s with ivChain := v } = .next { t with ivChain := v }) ∧
    (0 < s.sampledLen → s.sampledLen % 8 = 0 →
      ∃ (q : List Byte) (t : State), q.length = s.sampledLen ∧
        (∀ j, 8 * j < s.sampledLen → blockAt q j = s.blockD (blockAt m j)) ∧
        exec .decrypt s = .next t ∧ t.lastop = 0x3 ∧ t.done = true ∧ t.busy = false ∧
        (∀ p, unpad q = some p →
          t.err = .ok ∧ t.outlen.toNat = p.length ∧ Memory.readBytes t.outBuf 0 p.length = some p) ∧
        (unpad q = none → t.err = .padding ∧ t.outlen = 0) ∧
        t.ivChain = s.ivChain ∧
        ∀ v : Block, exec .decrypt { s with ivChain := v } = .next { t with ivChain := v })

/-- Rule R127: in CBC, block j of ENCRYPT's OUT is Block_E of the plaintext block XOR the chaining value from before it, and is
the chaining value after it; DECRYPT computes Block_D of ciphertext block j XOR the chaining value from before it, which is the
previous ciphertext block, and leaves the last ciphertext block in IV_CHAIN, where the padding is bad too. -/
def Obligations.CbcChainsBlocks : Prop :=
  ∀ (s : State) (m : List Byte), s.cfg.wf → s.configured = true → s.aMode = .cbc →
    s.sampledLen ≤ s.cfg.bufBytes → s.message = some m →
    (∃ t, exec .encrypt s = .next t ∧ t.err = .ok ∧ t.lastop = 0x2 ∧ t.done = true ∧ t.busy = false ∧
      t.outlen.toNat = s.sampledLen + (8 - s.sampledLen % 8) ∧
      (∀ j, 8 * j < t.outlen.toNat →
        t.outBlock j = some (cbcChain s.blockE s.ivChain (blockAt (pad m)) (j + 1))) ∧
      t.ivChain = cbcChain s.blockE s.ivChain (blockAt (pad m)) (t.outlen.toNat / 8)) ∧
    (0 < s.sampledLen → s.sampledLen % 8 = 0 →
      ∃ (q : List Byte) (t : State), q.length = s.sampledLen ∧
        (∀ j, 8 * j < s.sampledLen →
          blockAt q j = s.blockD (blockAt m j) ^^^ cbcPrevious s.ivChain (blockAt m) j) ∧
        exec .decrypt s = .next t ∧ t.lastop = 0x3 ∧ t.done = true ∧ t.busy = false ∧
        t.ivChain = blockAt m (s.sampledLen / 8 - 1) ∧
        (∀ p, unpad q = some p →
          t.err = .ok ∧ t.outlen.toNat = p.length ∧ Memory.readBytes t.outBuf 0 p.length = some p) ∧
        (unpad q = none → t.err = .padding ∧ t.outlen = 0))

/-- ENCRYPT and DECRYPT in OFB (rules R128 and R129): byte k of OUT is byte k of the message XORed with byte k mod 8 of the
chaining value of block k div 8, which Block_E has advanced before it is used; the last part-block advances it in full; OUTLEN
is n. That DECRYPT uses Block_E too, rule R128 marks as the spec's own inference from the source's table. -/
def Obligations.OfbXorsItsKeystream : Prop :=
  ∀ (s : State) (m : List Byte) (i : Instr), (i = .encrypt ∨ i = .decrypt) → s.cfg.wf → s.configured = true →
    s.aMode = .ofb → s.sampledLen ≤ s.cfg.bufBytes → s.message = some m →
    ∃ t, exec i s = .next t ∧ t.err = .ok ∧ t.lastop = opcode i ∧ t.done = true ∧ t.busy = false ∧
      t.outlen.toNat = s.sampledLen ∧
      (∀ k, k < s.sampledLen →
        Memory.read t.outBuf k =
          some (m.getD k 0 ^^^ (ofbChain s.blockE s.ivChain (k / 8 + 1)).extractLsb' (8 * (7 - k % 8)) 8)) ∧
      t.ivChain = ofbChain s.blockE s.ivChain ((s.sampledLen + 7) / 8)

/-- Rule R130, with the length check of both commands: ENCRYPT in ECB and CBC gives `ceil((n+1)/8)*8` bytes; OFB gives n bytes in
both directions; DECRYPT in ECB and CBC of a length that is 0 or no multiple of 8, and both commands where LEN exceeds
BUF_BYTES, report Length with no block processed. -/
def Obligations.LengthsByMode : Prop :=
  ∀ s : State, s.cfg.wf → s.configured = true →
    let failed (op : BitVec 4) : State :=
      { s with running := none, done := true, err := .length, lastop := op, outlen := 0, outBuf := [], draws := s.draws + 1 }
    (∀ t, s.sampledLen ≤ s.cfg.bufBytes → s.aMode ≠ .ofb → exec .encrypt s = .next t →
      t.err = .ok ∧ t.outlen.toNat = (s.sampledLen + 1 + 7) / 8 * 8) ∧
    (∀ i t, i = .encrypt ∨ i = .decrypt → s.sampledLen ≤ s.cfg.bufBytes → s.aMode = .ofb → exec i s = .next t →
      t.err = .ok ∧ t.outlen.toNat = s.sampledLen) ∧
    (s.aMode ≠ .ofb → (s.sampledLen = 0 ∨ s.sampledLen % 8 ≠ 0) → exec .decrypt s = .next (failed 0x3)) ∧
    (s.cfg.bufBytes < s.sampledLen → exec .encrypt s = .next (failed 0x2) ∧ exec .decrypt s = .next (failed 0x3))

/-- Before a successful INIT, ENCRYPT, DECRYPT, RESET_IV and KSREAD complete with NotConfigured, before any other check. -/
def Obligations.UnconfiguredCommandsReportIt : Prop :=
  ∀ (s : State) (i : Instr),
    (i = .encrypt ∨ i = .decrypt ∨ i = .resetIv ∨ ∃ ksel, i = .ksread ksel) → s.configured = false →
    exec i s = .next
      { s with
        running := none, done := true, err := .notConfigured, lastop := opcode i, outlen := 0, outBuf := []
        draws := s.draws + 1 }

/-- Rule R33 with R159: a command never stops but by the fault UninitialisedInput, and it does so exactly where an ENCRYPT or a
DECRYPT that passes its checks reads an IN byte the host has not written since reset. -/
def Obligations.OnlyUninitialisedInputFaults : Prop :=
  ∀ (i : Instr) (s : State),
    (∀ r, exec i s ≠ .refused r) ∧
    (∀ e, exec i s = .fault e ↔
      e = .uninitialisedInput ∧ s.configured = true ∧ s.sampledLen ≤ s.cfg.bufBytes ∧
        (i = .encrypt ∨ (i = .decrypt ∧ (s.aMode = .ofb ∨ (0 < s.sampledLen ∧ s.sampledLen % 8 = 0)))) ∧
        ∃ k, k < s.sampledLen ∧ Memory.read s.inBuf k = none)

/-! ## RESET_IV, KSREAD and the reserved opcodes -/

/-- Rule R143: RESET_IV puts the supplied IV back and changes no other register but STATUS and OUTLEN (OUT is unspecified after
any command); before INIT it reports NotConfigured; two in a row leave what one leaves; IV_INIT is changed by INIT alone; in ECB
no command reads IV_CHAIN; and the worked example, which rule R143 marks as the spec's own inference from rules R127 and R143. -/
def Obligations.ResetIvRestoresSuppliedIv : Prop :=
  ∀ s : State,
    (s.configured = true → exec .resetIv s = .next
      { s with
        ivChain := s.ivInit, running := none, done := true, err := .ok, lastop := 0x4, outlen := 0, outBuf := []
        draws := s.draws + 1 }) ∧
    (s.configured = false → exec .resetIv s = .next
      { s with
        running := none, done := true, err := .notConfigured, lastop := 0x4, outlen := 0, outBuf := []
        draws := s.draws + 1 }) ∧
    (∀ t u, exec .resetIv s = .next t → exec .resetIv t = .next u → u = { t with draws := t.draws + 1 }) ∧
    (∀ i t, i ≠ .init → exec i s = .next t → t.ivInit = s.ivInit) ∧
    (∀ i t (v : Block), s.aMode = .ecb → i ≠ .init → i ≠ .resetIv → exec i s = .next t →
      exec i { s with ivChain := v } = .next { t with ivChain := v }) ∧
    (s.cfg.wf → s.configured = true → s.aMode = .cbc → s.aAlg = .des → s.aK0 = 0x133457799BBCDFF1 →
      s.ivInit = 0x1234567890ABCDEF → s.ivChain = 0x1234567890ABCDEF → s.message = some [0x61, 0x62, 0x63] →
      ∃ t u, exec .encrypt s = .next t ∧ t.ivChain = 0xA6DF41DD72E86C1E ∧
        exec .resetIv t = .next u ∧ u.ivChain = 0x1234567890ABCDEF)

/-- Rule R144: KSREAD writes the 16 subkeys of the selected active key, 6 bytes each, K_1 first, most significant byte first;
KSEL = 3, or KSEL ≠ 0 with DES, is Validation; before INIT it is NotConfigured; it changes no IV register; and the worked
example, which rule R144 marks as the spec's own inference from rule R91. -/
def Obligations.KsreadWritesTheSchedule : Prop :=
  ∀ (s : State) (ksel : Nat), ksel < 4 →
    let failed (e : ErrCode) : State :=
      { s with running := none, done := true, err := e, lastop := 0x5, outlen := 0, outBuf := [], draws := s.draws + 1 }
    (s.configured = false → exec (.ksread ksel) s = .next (failed .notConfigured)) ∧
    (s.configured = true → (ksel = 3 ∨ (s.aAlg = .des ∧ ksel ≠ 0)) →
      exec (.ksread ksel) s = .next (failed .validation)) ∧
    (s.configured = true → ¬(ksel = 3 ∨ (s.aAlg = .des ∧ ksel ≠ 0)) →
      ∃ t, exec (.ksread ksel) s = .next t ∧ t.err = .ok ∧ t.lastop = 0x5 ∧ t.done = true ∧ t.busy = false ∧
        t.outlen = 96 ∧ t.ivChain = s.ivChain ∧ t.ivInit = s.ivInit ∧
        ∀ i, 1 ≤ i → i ≤ 16 → ∀ j, j < 6 →
          Memory.read t.outBuf (6 * (i - 1) + j) =
            some (((ks (if ksel = 0 then s.aK0 else if ksel = 1 then s.aK1 else s.aK2)).getD (i - 1) 0).extractLsb'
              (8 * (5 - j)) 8)) ∧
    (s.configured = true → s.aK0 = 0xEF00EF00FF80FF80 → ∃ t, exec (.ksread 0) s = .next t ∧
      Memory.readBytes t.outBuf 0 6 = some [0x6F, 0xAC, 0x1B, 0xB8, 0xE6, 0x02] ∧
      Memory.readBytes t.outBuf 90 6 = some [0x9B, 0x53, 0xE5, 0x43, 0x18, 0xBD])

/-- Rule R72: a reserved opcode written while the engine is idle is accepted and completes with IllegalCommand, LASTOP its OP and
OUTLEN 0, changing no other state (OUT is unspecified after any command); the eleven reserved commands each complete so in every
state; every word is one of the five commands or one of these eleven. -/
def Obligations.ReservedOpcodesCompleteIllegal : Prop :=
  let reserved : List Instr := [.reserved0, .reserved6, .reserved7, .reserved8, .reserved9, .reservedA, .reservedB, .reservedC,
    .reservedD, .reservedE, .reservedF]
  (∀ (s : State) (i : Instr), i ∈ reserved →
    exec i s = .next
      { s with
        running := none, done := true, err := .illegalCommand, lastop := opcode i, outlen := 0, outBuf := []
        draws := s.draws + 1 }) ∧
  (∀ (s : State) (w : Word) (rest : List BusEvent), s.resetLine = false → s.busy = false →
    (w &&& 0xF = 0 ∨ 6 ≤ (w &&& 0xF).toNat) →
    s.bus = .host (.write (s.cfg.base + 0x008) .word w) :: .engine :: rest →
    Host.Core.run Sys2Proof.core 2 s = .next
      { s with
        bus := rest, answer := none, done := true, err := .illegalCommand, lastop := w.extractLsb' 0 4, outlen := 0
        outBuf := [], draws := s.draws + 2 }) ∧
  ∀ w : Word, decodeWord w = .init ∨ decodeWord w = .encrypt ∨ decodeWord w = .decrypt ∨ decodeWord w = .resetIv ∨
    (∃ ksel, decodeWord w = .ksread ksel) ∨ decodeWord w ∈ reserved

/-! ## Every command -/

/-- Rule R146 and the completion of every command: ERR is one of the codes 0 to 6, by the rule's numbers, and never 7 to 15; BUSY
is 0, DONE is 1, LASTOP is the command's OP, the sticky flags stay, and the interrupt line is IRQEN. -/
def Obligations.CompletionWritesStatus : Prop :=
  (∀ (i : Instr) (s t : State), exec i s = .next t →
    t.busy = false ∧ t.done = true ∧ t.lastop = opcode i ∧ t.statusWord.extractLsb' 8 4 = t.err.code ∧
    t.err.code.toNat ≤ 6 ∧ t.irq = ctrlIrqen s.ctrl ∧ t.ovr = s.ovr ∧ t.accErr = s.accErr) ∧
  ErrCode.code .ok = 0 ∧ ErrCode.code .validation = 1 ∧ ErrCode.code .unsupportedMode = 2 ∧ ErrCode.code .padding = 3 ∧
  ErrCode.code .length = 4 ∧ ErrCode.code .notConfigured = 5 ∧ ErrCode.code .illegalCommand = 6

/-- The frame of every command: the staging registers, the parameters, IN and the sticky flags are unchanged; the active
configuration and IV_INIT change only by INIT; IV_CHAIN changes only by INIT, RESET_IV, and ENCRYPT and DECRYPT in CBC and OFB;
and a byte of OUT holds a specified value exactly below OUTLEN, which fits OUT (rules R21, R23, R27, R31, R44). -/
def Obligations.CommandFrame : Prop :=
  ∀ (i : Instr) (s t : State), s.cfg.wf → exec i s = .next t →
    (t.cfg = s.cfg ∧ t.ctrl = s.ctrl ∧ t.len = s.len ∧ t.key0 = s.key0 ∧ t.key1 = s.key1 ∧ t.key2 = s.key2 ∧
      t.ivin = s.ivin ∧ t.ovr = s.ovr ∧ t.accErr = s.accErr ∧ t.bus = s.bus ∧ t.answer = s.answer ∧
      t.resetLine = s.resetLine) ∧
    (∀ a, Memory.read t.inBuf a = Memory.read s.inBuf a) ∧
    (i ≠ .init → t.configured = s.configured ∧ t.aMode = s.aMode ∧ t.aAlg = s.aAlg ∧ t.aK0 = s.aK0 ∧ t.aK1 = s.aK1 ∧
      t.aK2 = s.aK2 ∧ t.ivInit = s.ivInit) ∧
    (i ≠ .init → i ≠ .resetIv → ((i ≠ .encrypt ∧ i ≠ .decrypt) ∨ s.aMode = .ecb) → t.ivChain = s.ivChain) ∧
    (∀ k, (Memory.read t.outBuf k).isSome = true ↔ k < t.outlen.toNat) ∧
    t.outlen.toNat ≤ t.cfg.outBytes

/-- Rule R149: what an error leaves. Nothing but STATUS, OUTLEN (0) and OUT (unspecified) changes, and IV_CHAIN only by a CBC
DECRYPT that ends in Padding, which leaves it at the last ciphertext block. -/
def Obligations.ErrorsLeaveConfigurationAndChain : Prop :=
  ∀ (i : Instr) (s t : State), exec i s = .next t → t.err ≠ .ok →
    t = { s with
      running := none, done := true, err := t.err, lastop := opcode i, outlen := 0, outBuf := []
      ivChain := t.ivChain, draws := s.draws + 1 } ∧
    (t.err ≠ .padding → t.ivChain = s.ivChain) ∧
    (t.err = .padding → i = .decrypt ∧ s.aMode ≠ .ofb ∧ (s.aMode = .ecb → t.ivChain = s.ivChain) ∧
      ∀ c, s.aMode = .cbc → s.message = some c → t.ivChain = blockAt c (s.sampledLen / 8 - 1))

/-- The result of a command is a function of what accept sampled, IN and the state at accept (rules R137 and R140): changing the
staging registers while it runs changes nothing it writes. -/
def Obligations.StagingWritesDoNotReachARunningCommand : Prop :=
  ∀ (s t : State) (r : Command) (c l : Word) (k0 k1 k2 v : Block), s.running = some r →
    (r.op = 0x1 → r.init.isSome = true) → exec r.instr s = .next t →
    exec r.instr { s with ctrl := c, len := l, key0 := k0, key1 := k1, key2 := k2, ivin := v } =
      .next { t with ctrl := c, len := l, key0 := k0, key1 := k1, key2 := k2, ivin := v }

/-- The round trip of rule R135 (a), which the spec marks as its own inference: ENCRYPT, then RESET_IV, then DECRYPT of what
ENCRYPT put in OUT returns the message with OUTLEN n, in every mode and algorithm, wherever the ciphertext fits IN (it does not
for n = BUF_BYTES in ECB and CBC) and, in CBC and OFB, wherever ENCRYPT starts from the supplied IV, IV_CHAIN = IV_INIT, which
rule R131 needs (log entry 18). In ECB it starts from any IV_CHAIN. -/
def Obligations.DecryptAfterEncryptReturnsMessage : Prop :=
  ∀ (s t u : State) (m c : List Byte), s.cfg.wf → s.configured = true → (s.aMode = .ecb ∨ s.ivChain = s.ivInit) →
    s.message = some m → exec .encrypt s = .next t → t.err = .ok → exec .resetIv t = .next u →
    Memory.readBytes t.outBuf 0 t.outlen.toNat = some c → c.length ≤ s.cfg.bufBytes →
    ∃ v, exec .decrypt { u with inBuf := Memory.ofBytes 0 c, len := BitVec.ofNat 32 c.length } = .next v ∧
      v.err = .ok ∧ v.outlen.toNat = m.length ∧ Memory.readBytes v.outBuf 0 m.length = some m

/-- OFB is a stream, rule R135 (d), which the spec marks as its own inference: two messages of one length give outputs that differ
exactly in the bits in which they differ. -/
def Obligations.OfbFlipsTheSameBits : Prop :=
  ∀ (s t u : State) (m l : List Byte) (mem : Memory), s.cfg.wf → s.configured = true → s.aMode = .ofb →
    s.message = some m → ({ s with inBuf := mem } : State).message = some l →
    exec .encrypt s = .next t → exec .encrypt { s with inBuf := mem } = .next u → t.err = .ok →
    t.outlen = u.outlen ∧ t.ivChain = u.ivChain ∧
    ∀ k, k < s.sampledLen → ∃ a b, Memory.read t.outBuf k = some a ∧ Memory.read u.outBuf k = some b ∧
      a ^^^ b = m.getD k 0 ^^^ l.getD k 0

/-! ## The host's accesses -/

/-- What a 4-byte read of each register answers: ID, CTRL, CMD, STATUS, LEN, the keys and IVIN at any time, OUTLEN and IVCUR while
the engine is idle, and free values in their place while it is busy (30_encoding.md section 2; the free values are the model's,
log entry 6). A read changes nothing else of the block. While reset is asserted a read of any offset answers as a block just
reset would (the model's, log entry 22). -/
def Obligations.RegisterReadsAnswerTheirValue : Prop :=
  (∀ s : State, s.resetLine = false →
    let reads (off : Nat) (v : Word) : Prop :=
      ∃ t, step (s.hostReads off .word) = .next t ∧ t = { s with answer := some v, draws := t.draws }
    reads 0x000 0x44455333 ∧ reads 0x004 s.ctrl ∧ reads 0x008 0 ∧ reads 0x00C s.statusWord ∧ reads 0x010 s.len ∧
    reads 0x020 0 ∧ reads 0x024 0 ∧ reads 0x028 0 ∧ reads 0x02C 0 ∧ reads 0x030 0 ∧ reads 0x034 0 ∧
    reads 0x038 (s.ivin.extractLsb' 32 32) ∧ reads 0x03C (s.ivin.extractLsb' 0 32) ∧
    (s.busy = false → reads 0x014 s.outlen ∧
      reads 0x040 (s.ivChain.extractLsb' 32 32) ∧ reads 0x044 (s.ivChain.extractLsb' 0 32)) ∧
    (s.busy = true → reads 0x014 (s.freeWord 0x014) ∧ reads 0x040 (s.freeWord 0x040) ∧ reads 0x044 (s.freeWord 0x044))) ∧
  (∀ (s t u : State) (off : Nat) (w : AccessWidth), s.resetLine = true → step (s.hostReads off w) = .next t →
    step (({ State.resetWith s.cfg with draws := s.draws } : State).hostReads off w) = .next u → t.answer = u.answer)

/-- Rule R36 with R58, R65, R67, R68: a 4-byte write to a staging register stores its word, at any time, and changes no other
register; a half of a 64-bit register leaves the other half. CTRL drops its reserved bits. That a write hands the host nothing,
and the counter of free values, are the model's (log entries 6 and 13). -/
def Obligations.StagingWritesStoreTheirWord : Prop :=
  ∀ (s : State) (d : Word), s.resetLine = false →
    let writes (off : Nat) (t : State) : Prop :=
      step (s.hostWrites off .word d) = .next { t with answer := none, draws := s.draws + 1 }
    let hi (x : Block) : Block := d ++ (x.extractLsb' 0 32 : Word)
    let lo (x : Block) : Block := (x.extractLsb' 32 32 : Word) ++ d
    writes 0x004 { s with ctrl := d &&& 0x000F1F0F } ∧ writes 0x010 { s with len := d } ∧
    writes 0x020 { s with key0 := hi s.key0 } ∧ writes 0x024 { s with key0 := lo s.key0 } ∧
    writes 0x028 { s with key1 := hi s.key1 } ∧ writes 0x02C { s with key1 := lo s.key1 } ∧
    writes 0x030 { s with key2 := hi s.key2 } ∧ writes 0x034 { s with key2 := lo s.key2 } ∧
    writes 0x038 { s with ivin := hi s.ivin } ∧ writes 0x03C { s with ivin := lo s.ivin } ∧
    writes 0x000 s ∧ writes 0x014 s ∧ writes 0x040 s ∧ writes 0x044 s

/-- Rule R63: the fields of the STATUS word, all 0 after reset, and what a 4-byte write to STATUS clears. -/
def Obligations.StatusFieldsAndClears : Prop :=
  (∀ c : Config, (State.resetWith c).statusWord = 0) ∧ ∀ s : State,
    (s.statusWord.getLsbD 0 = s.busy ∧ s.statusWord.getLsbD 1 = s.done ∧ s.statusWord.getLsbD 2 = s.configured ∧
      s.statusWord.getLsbD 3 = s.ovr ∧ s.statusWord.getLsbD 4 = s.accErr ∧ s.statusWord.extractLsb' 5 3 = 0 ∧
      s.statusWord.extractLsb' 8 4 = s.err.code ∧ s.statusWord.extractLsb' 12 4 = s.lastop ∧
      s.statusWord.extractLsb' 16 16 = 0) ∧
    ∀ d : Word, s.resetLine = false → step (s.hostWrites 0x00C .word d) = .next
      { s with
        done := if d.getLsbD 1 then false else s.done
        ovr := if d.getLsbD 3 then false else s.ovr
        accErr := if d.getLsbD 4 then false else s.accErr
        answer := none, draws := s.draws + 1 }

/-- Rule R137: a CMD write while idle sets BUSY and samples OP, KSEL and LEN, and for INIT also CTRL, the keys and IVIN; DONE is
not changed; no later write of the host changes what was sampled. -/
def Obligations.AcceptSamplesOperands : Prop :=
  (∀ (s : State) (w : Word), s.resetLine = false → s.busy = false →
    ∃ t r, step (s.hostWrites 0x008 .word w) = .next t ∧ t.busy = true ∧ t.running = some r ∧
      r.op = w.extractLsb' 0 4 ∧ r.ksel = w.extractLsb' 4 2 ∧ r.len = s.len ∧
      (r.op = 0x1 → r.init = some { ctrl := s.ctrl, key0 := s.key0, key1 := s.key1, key2 := s.key2, iv := s.ivin }) ∧
      t = { s with running := some r, answer := none, draws := s.draws + 1 }) ∧
  (∀ (s t : State) (addr : Nat) (width : AccessWidth) (d : Word) (r : Command) (rest : List BusEvent),
    s.resetLine = false → s.running = some r → s.bus = .host (.write addr width d) :: rest → step s = .next t → t.running = some r)

/-- Rule R139: a CMD write while BUSY = 1 is dropped and sets OVR; the running command is not affected. -/
def Obligations.CommandWhileBusyIsDropped : Prop :=
  ∀ (s : State) (w : Word), s.resetLine = false → s.busy = true →
    step (s.hostWrites 0x008 .word w) = .next { s with ovr := true, answer := none, draws := s.draws + 1 }

/-- Rules R41 and R48: an access of a width the region does not list, or misaligned, sets ACCERR and changes nothing else; a read
of this kind returns 0. -/
def Obligations.RefusedAccessSetsAccerr : Prop :=
  ∀ (s : State) (off : Nat) (w : AccessWidth) (d : Word), s.resetLine = false → off < 0x10000 →
    ((off < 0x4000 ∧ w ≠ .word) ∨ off % w.bytes ≠ 0) →
    step (s.hostReads off w) = .next { s with accErr := true, answer := some 0 } ∧
    step (s.hostWrites off w d) = .next { s with accErr := true, answer := none, draws := s.draws + 1 }

/-- Rule R39: a taken read of a reserved offset returns 0, a taken write to one is ignored, and so is a write to the OUT window;
none sets ACCERR. -/
def Obligations.ReservedOffsetsReadZeroAndIgnoreWrites : Prop :=
  ∀ (s : State) (off : Nat) (w : AccessWidth) (d : Word), s.resetLine = false → s.cfg.wf → off < 0x10000 →
    off % w.bytes = 0 →
    (w = .word ∨ 0x4000 ≤ off) →
    let reserved := off = 0x018 ∨ off = 0x01C ∨ (0x0048 ≤ off ∧ off < 0x4000) ∨
      (0x4000 + s.cfg.bufBytes ≤ off ∧ off < 0x8000) ∨ 0x8000 + s.cfg.outBytes ≤ off
    let out := 0x8000 ≤ off ∧ off < 0x8000 + s.cfg.outBytes
    (reserved → ∃ t, step (s.hostReads off w) = .next t ∧ t = { s with answer := some 0, draws := t.draws }) ∧
    (reserved ∨ out → step (s.hostWrites off w d) = .next { s with answer := none, draws := s.draws + 1 })

/-- No read has a side effect (rule R43): it changes nothing of the block but ACCERR, and that only where it is refused; and while
the engine is idle a second read gives the same answer, unless one of its bytes is unspecified, an IN byte not written since
reset or an OUT byte at or beyond OUTLEN, which each read draws anew (rows U4 to U7 of 93_implementation_defined.md; log entry
6). -/
def Obligations.ReadsHaveNoSideEffect : Prop :=
  ∀ (s t : State) (off : Nat) (w : AccessWidth), s.resetLine = false → off < 0x10000 →
    step (s.hostReads off w) = .next t →
    t = { s with answer := t.answer, draws := t.draws, accErr := s.accErr || !taken s.cfg off w } ∧
    (s.busy = false →
      (∀ j, j < w.bytes →
        (regionOf s.cfg (off + j) = .inBuf → (Memory.read s.inBuf (off + j - 0x4000)).isSome = true) ∧
        (regionOf s.cfg (off + j) = .outBuf → off + j - 0x8000 < s.outlen.toNat ∧
          (Memory.read s.outBuf (off + j - 0x8000)).isSome = true)) →
      ∀ u, step (t.hostReads off w) = .next u → u.answer = t.answer)

/-- Rules R35 and R47: a taken write to IN, outside a busy ENCRYPT or DECRYPT, stores its bytes on big-endian lanes and leaves
every other byte of IN; a read of the same bytes then answers the value written. That a narrow access stands in the low bits of
its word is the model's (log entries 13 and 26). -/
def Obligations.InWritesUseBigEndianLanes : Prop :=
  ∀ (s : State) (k : Nat) (w : AccessWidth) (d : Word), s.resetLine = false → s.cfg.wf → k + w.bytes ≤ s.cfg.bufBytes →
    k % w.bytes = 0 → (∀ r, s.running = some r → r.op ≠ 0x2 ∧ r.op ≠ 0x3) →
    ∃ t, step (s.hostWrites (0x4000 + k) w d) = .next t ∧
      t = { s with inBuf := t.inBuf, answer := none, draws := s.draws + 1 } ∧
      (∀ j, j < w.bytes → Memory.read t.inBuf (k + j) = some (d.extractLsb' (8 * (w.bytes - 1 - j)) 8)) ∧
      (∀ a, (a < k ∨ k + w.bytes ≤ a) → Memory.read t.inBuf a = Memory.read s.inBuf a) ∧
      (∀ u, step (t.hostReads (0x4000 + k) w) = .next u → u.answer = some (BitVec.ofNat 32 (d.toNat % 2 ^ (8 * w.bytes))))

/-- Rule R166: a host write to IN while an ENCRYPT or a DECRYPT is busy is the fault HostRaceOnIN. -/
def Obligations.InWriteWhileCipherRunsFaults : Prop :=
  ∀ (s : State) (k : Nat) (w : AccessWidth) (d : Word) (r : Command), s.resetLine = false → s.cfg.wf → k < s.cfg.bufBytes →
    k % w.bytes = 0 → s.running = some r → (r.op = 0x2 ∨ r.op = 0x3) →
    step (s.hostWrites (0x4000 + k) w d) = .fault .hostRaceOnIN

/-- A read of OUT, of 1, 2 or 4 bytes, answers its bytes on big-endian lanes (rule R35): each is the byte the last command
specified where it lies below OUTLEN and the engine is idle, and otherwise a free value, about which nothing is known (rules R44
and R47) and which the next read draws anew (the free value is the model's, log entry 6; that a narrow read has zeros above its
bytes too, log entries 13 and 26). -/
def Obligations.OutReadsAreValidBelowOutlen : Prop :=
  ∀ (s : State) (k : Nat) (w : AccessWidth), s.Inv → s.resetLine = false → k + w.bytes ≤ s.cfg.outBytes → k % w.bytes = 0 →
    ∃ t v, step (s.hostReads (0x8000 + k) w) = .next t ∧ t.answer = some v ∧ t.draws = s.draws + 1 ∧
      v.toNat < 2 ^ (8 * w.bytes) ∧
      ∀ j, j < w.bytes →
        (s.busy = false → k + j < s.outlen.toNat →
          Memory.read s.outBuf (k + j) = some (v.extractLsb' (8 * (w.bytes - 1 - j)) 8)) ∧
        (s.busy = true ∨ s.outlen.toNat ≤ k + j →
          v.extractLsb' (8 * (w.bytes - 1 - j)) 8 = Config.freeByte s.draws (0x8000 + k + j))

/-- Rules R31 and R151: which moves change the flags. An access of the host never changes ERR, LASTOP, OUTLEN or CONFIGURED; it sets
BUSY only by a CMD write while idle, clears DONE, OVR and ACCERR only by writing 1 to them, and sets OVR only by a CMD write while
busy and ACCERR only where it is refused, each with DONE and the command in progress unchanged. The engine's turn never changes
OVR or ACCERR, changes the others only by completing a command, and sets CONFIGURED only by a successful INIT. (Both at one
instant: CompletionWinsOverSimultaneousClear. Reset: ResetValues.) -/
def Obligations.FlagsChangeOnlyByTheirRules : Prop :=
  (∀ (s t : State) (a : Access) (rest : List BusEvent), s.resetLine = false → s.bus = .host a :: rest → step s = .next t →
    let writes (off bit : Nat) : Prop := ∃ d, a = .write (s.cfg.base + off) .word d ∧ d.getLsbD bit = true
    let cmd : Prop := ∃ d, a = .write (s.cfg.base + 0x008) .word d
    t.err = s.err ∧ t.lastop = s.lastop ∧ t.outlen = s.outlen ∧ t.configured = s.configured ∧
    (t.busy ≠ s.busy → t.busy = true ∧ cmd) ∧
    (t.done ≠ s.done → t.done = false ∧ writes 0x00C 1) ∧
    (t.ovr ≠ s.ovr → (t.ovr = false ∧ writes 0x00C 3) ∨
      (t.ovr = true ∧ s.busy = true ∧ cmd ∧ t.done = s.done ∧ t.running = s.running)) ∧
    (t.accErr ≠ s.accErr → (t.accErr = false ∧ writes 0x00C 4) ∨
      (t.accErr = true ∧ t.done = s.done ∧ t.running = s.running ∧
        ∃ off w, windowOffset s.cfg a.addr = some off ∧ taken s.cfg off w = false ∧
          (a = .read a.addr w ∨ ∃ d, a = .write a.addr w d)))) ∧
  (∀ (s t : State) (rest : List BusEvent), s.resetLine = false → (s.bus = [] ∨ s.bus = .engine :: rest) → step s = .next t →
    t.ovr = s.ovr ∧ t.accErr = s.accErr ∧
    (s.busy = false → t.done = s.done ∧ t.err = s.err ∧ t.lastop = s.lastop ∧ t.outlen = s.outlen ∧ t.busy = false) ∧
    (t.configured ≠ s.configured → ∃ r, s.running = some r ∧ r.op = 0x1 ∧ t.err = .ok ∧ t.configured = true))

/-- Rule R27: the engine never writes IN and the host never writes OUT, a write to the OUT window being ignored. Nor does the host
reach the chaining registers. -/
def Obligations.EachBufferHasOneWriter : Prop :=
  (∀ (s t : State) (rest : List BusEvent), s.resetLine = false → (s.bus = [] ∨ s.bus = .engine :: rest) → step s = .next t →
    ∀ k, Memory.read t.inBuf k = Memory.read s.inBuf k) ∧
  (∀ (s t : State) (a : Access) (rest : List BusEvent), s.resetLine = false → s.bus = .host a :: rest → step s = .next t →
    (∀ k, Memory.read t.outBuf k = Memory.read s.outBuf k) ∧ t.ivChain = s.ivChain ∧ t.ivInit = s.ivInit) ∧
  (∀ (s : State) (k : Nat) (w : AccessWidth) (d : Word), s.resetLine = false → s.cfg.wf → k < s.cfg.outBytes →
    k % w.bytes = 0 → step (s.hostWrites (0x8000 + k) w d) = .next { s with answer := none, draws := s.draws + 1 })

/-- Rule R30: the output line is 1 exactly when STATUS.DONE = 1 and CTRL.IRQEN = 1. -/
def Obligations.IrqIsDoneAndIrqen : Prop :=
  ∀ s : State, s.irq = true ↔ s.statusWord.getLsbD 1 = true ∧ s.ctrl.getLsbD 3 = true

/-- An access at the instant of a completion (rules R64 and R153; the order of the accesses these rules do not name is the model's,
log entry 5). A CMD write counts as arriving after the completion: it is accepted, with OVR unchanged, and samples its operands.
Any other access, a read, a STATUS write, a staging write or a write to IN, counts as arriving before it: it does what it does
alone while the command is in progress, a fault of it is the fault of the step, and the command completes from what it leaves, so
that DONE is 1 after a STATUS write that clears it, a read answers as while busy, and the sticky flags, the staging registers and
IN are as the access alone leaves them. With no command in progress it is the access alone. -/
def Obligations.CompletionWinsOverSimultaneousClear : Prop :=
  ∀ (s : State) (a : Access) (rest : List BusEvent), s.resetLine = false → s.bus = .together a :: rest →
    let alone := step { s with bus := .host a :: rest }
    let cmd : Prop := ∃ d, a = .write (s.cfg.base + 0x008) .word d
    (s.running = none → step s = alone) ∧
    (∀ r, s.running = some r →
      (¬cmd →
        (∀ e, alone = .fault e → step s = .fault e) ∧
        (∀ u, alone = .next u → u.running = some r ∧ step s = exec r.instr u)) ∧
      (∀ t, step s = .next t → t.done = true ∧ t.lastop = opcode r.instr ∧ t.bus = rest ∧
        (¬cmd → t.busy = false ∧ ∃ u, alone = .next u ∧ t.answer = u.answer ∧ t.ovr = u.ovr ∧ t.accErr = u.accErr ∧
          t.ctrl = u.ctrl ∧ t.len = u.len ∧ t.key0 = u.key0 ∧ t.key1 = u.key1 ∧ t.key2 = u.key2 ∧ t.ivin = u.ivin ∧
          ∀ k, Memory.read t.inBuf k = Memory.read u.inBuf k) ∧
        (∀ d, a = .write (s.cfg.base + 0x008) .word d → t.ovr = s.ovr ∧
          ∃ q, t.running = some q ∧ q.op = d.extractLsb' 0 4 ∧ q.ksel = d.extractLsb' 4 2 ∧ q.len = s.len ∧
            q.init = if q.op = 0x1 then
                some { ctrl := s.ctrl, key0 := s.key0, key1 := s.key1, key2 := s.key2, iv := s.ivin }
              else none)))

/-! ## The machine -/

/-- Rules R32, R160 and R161: the values after reset, whatever the parameters. Asserting the reset input puts a block in any state,
busy or not, into that state, abandoning the command in progress; while it is asserted every step leaves it there, whatever the
host does; and so does its release (the parameters, the pending events, the answer and
the draw counter are not the block's, log entry 22). -/
def Obligations.ResetValues : Prop :=
  (∀ c : Config, ∀ s : State, s = State.resetWith c →
    s.cfg = c ∧ s.ctrl = 0 ∧ s.len = 0 ∧ s.key0 = 0 ∧ s.key1 = 0 ∧ s.key2 = 0 ∧ s.ivin = 0 ∧ s.configured = false ∧
    s.aMode = .ecb ∧ s.aAlg = .des ∧ s.aK0 = 0 ∧ s.aK1 = 0 ∧ s.aK2 = 0 ∧ s.ivInit = 0 ∧ s.ivChain = 0 ∧
    s.busy = false ∧ s.done = false ∧ s.ovr = false ∧ s.accErr = false ∧ s.err = .ok ∧ s.lastop = 0 ∧ s.outlen = 0 ∧
    s.irq = false ∧ s.running = none ∧ s.resetLine = false ∧
    (∀ k, Memory.read s.inBuf k = none ∧ Memory.read s.outBuf k = none)) ∧
  State.reset = State.resetWith Config.default ∧
  (∀ (s : State) (rest : List BusEvent), s.bus = .reset true :: rest →
    step s = .next { State.resetWith s.cfg with resetLine := true, bus := rest, draws := s.draws + 1 }) ∧
  (∀ s : State, s.resetLine = true → s.bus.head? ≠ some (.reset false) →
    ∃ t, step s = .next t ∧
      t = { State.resetWith s.cfg with resetLine := true, bus := s.bus.tail, answer := t.answer, draws := t.draws }) ∧
  (∀ (s : State) (rest : List BusEvent), s.resetLine = true → s.bus = .reset false :: rest →
    step s = .next { State.resetWith s.cfg with bus := rest, draws := s.draws + 1 })

/-- The invariant holds after reset, for every legal choice of the parameters. -/
def Obligations.ResetMeetsInvariant : Prop :=
  (∀ c : Config, c.wf → (State.resetWith c).Inv) ∧ State.reset.Inv

/-- Every step keeps the invariant, whatever the pending events. -/
def Obligations.EveryStepKeepsInvariant : Prop :=
  ∀ s t : State, s.Inv → step s = .next t → t.Inv

/-- A step on the engine's turn runs the command decoded from what the engine holds, past that event; a command word decoded
from its four bytes is what the step after its accept runs; an idle engine's turn and a step with nothing pending change nothing
else. When the engine's turn comes, and that an idle turn is a step, are the model's (log entries 3, 4 and 12). -/
def Obligations.EngineStepRunsDecodedCommand : Prop :=
  (∀ (s : State) (r : Command) (rest : List BusEvent), s.resetLine = false → s.running = some r → s.bus = .engine :: rest →
    step s = exec (decodeFields r.op r.ksel) { s with bus := rest }) ∧
  (∀ (s : State) (r : Command), s.resetLine = false → s.running = some r → s.bus = [] →
    step s = exec (decodeFields r.op r.ksel) s) ∧
  (∀ (s : State) (w : Word) (i : Instr), decode (wordBytes w) = .ok (i, []) →
    step (s.withCommand w) = exec i { s.accept w with resetLine := false }) ∧
  (∀ (s : State) (w : Nat) (i : Instr), decodeTableWord 32 w = some i →
    step (s.withFetchWord 32 w) = exec i { s.accept (BitVec.ofNat 32 w) with resetLine := false }) ∧
  (∀ (s : State) (rest : List BusEvent), s.resetLine = false → s.running = none → s.bus = .engine :: rest →
    step s = .next { s with bus := rest }) ∧
  (∀ s : State, s.resetLine = false → s.running = none → s.bus = [] → step s = .next s)

/-- The active configuration and IV_INIT are written only by a successful INIT (rules R21, R23 and R168): a step in which no INIT
is in progress and the reset input is not and does not become asserted leaves them, whatever the host does. -/
def Obligations.OnlyInitWritesActiveConfiguration : Prop :=
  ∀ s t : State, s.resetLine = false → step s = .next t → (∀ r, s.running = some r → r.op ≠ 0x1) →
    s.bus.head? ≠ some (.reset true) →
    t.configured = s.configured ∧ t.aMode = s.aMode ∧ t.aAlg = s.aAlg ∧ t.aK0 = s.aK0 ∧ t.aK1 = s.aK1 ∧ t.aK2 = s.aK2 ∧
    t.ivInit = s.ivInit

/-- A command in progress completes on the engine's next turn (rules R138 and R140), whatever accesses the host makes before it:
then BUSY is 0, DONE is 1 and LASTOP is its OP. Only an ENCRYPT or a DECRYPT can stop with a fault instead (rule R159), on an IN
byte never written or on a write of the host to IN. And once every pending event and one more step have passed the engine is
idle, by a completion or by a reset, unless a step stopped with a fault. That the engine takes its turn where the list of events
says, and where none is pending, is the model's (log entries 3 and 4). -/
def Obligations.CommandInProgressCompletesOnItsTurn : Prop :=
  (∀ (s : State) (r : Command) (accesses : List Access) (rest : List BusEvent), s.resetLine = false → s.running = some r →
    (s.bus = accesses.map .host ++ .engine :: rest ∨ (s.bus = accesses.map .host ∧ rest = [])) →
    (∃ t, Host.Core.run Sys2Proof.core (accesses.length + 1) s = .next t ∧
      t.bus = rest ∧ t.busy = false ∧ t.done = true ∧ t.lastop = opcode r.instr) ∨
    ((r.op = 0x2 ∨ r.op = 0x3) ∧ ∃ e, Host.Core.run Sys2Proof.core (accesses.length + 1) s = .fault e)) ∧
  (∀ s : State,
    (∃ t, Host.Core.run Sys2Proof.core (s.bus.length + 1) s = .next t ∧ t.bus = [] ∧ t.busy = false) ∨
    (∃ e, Host.Core.run Sys2Proof.core (s.bus.length + 1) s = .fault e))
end

