-- ==== Sys2Proof/Laws/Bits.lean ====
section
/-! SUPPORT. The bit-level primitives: what one bit of a permutation is, and that byte strings and blocks convert both ways. -/

namespace Sys2Proof.Machine

/-- The Horner sum of `permute`, from a starting value: bit i counts from the end of the table, and above it stands the start. -/
theorem permuteSum_testBit {w : Nat} (v : BitVec w) (t : List Nat) (u i : Nat) :
    (t.foldl (fun u j => 2 * u + (cipherBit v j).toNat) u).testBit i =
      if i < t.length then cipherBit v (t.getD (t.length - 1 - i) 0) else u.testBit (i - t.length) := by
  induction t generalizing u with
  | nil => simp
  | cons a t ih =>
    rw [List.foldl_cons, ih]
    by_cases h : i < t.length
    · have e : (a :: t).length - 1 - i = (t.length - 1 - i) + 1 := by simp; omega
      rw [if_pos h, if_pos (by simp; omega), e]
      simp
    · rw [if_neg h]
      by_cases h' : i = t.length
      · subst h'
        rw [if_pos (by simp)]
        cases h2 : cipherBit v a <;> simp [h2]
      · have e : i - t.length = (i - (a :: t).length) + 1 := by simp; omega
        have half : (2 * u + (cipherBit v a).toNat) / 2 = u := by
          have := Bool.toNat_le (cipherBit v a)
          omega
        rw [if_neg (by simp; omega), e, Nat.testBit_succ, half]

/-- Register bit i of a permutation. -/
theorem permute_getLsbD {n w : Nat} (t : List Nat) (v : BitVec w) (i : Nat) (h : t.length = n) :
    (permute n t v).getLsbD i = (decide (i < n) && cipherBit v (t.getD (n - 1 - i) 0)) := by
  unfold permute
  rw [BitVec.getLsbD_ofNat, permuteSum_testBit, h]
  by_cases hi : i < n <;> simp [hi]

/-- Cipher bit ⟨i⟩ of a permutation is cipher bit ⟨T[i]⟩ of its input (rule R77). -/
theorem cipherBit_permute {n w : Nat} (t : List Nat) (v : BitVec w) (i : Nat) (h : t.length = n) (h1 : 1 ≤ i) (hn : i ≤ n) :
    cipherBit (permute n t v) i = cipherBit v (t.getD (i - 1) 0) := by
  have e : n - 1 - (n - i) = i - 1 := by omega
  rw [cipherBit, permute_getLsbD t v _ h, e]
  simp
  omega

/-- Two values with equal cipher bits are equal (rule R10). -/
theorem cipherBit_ext {w : Nat} (x y : BitVec w) (h : ∀ i, 1 ≤ i → i ≤ w → cipherBit x i = cipherBit y i) : x = y := by
  apply BitVec.eq_of_getLsbD_eq
  intro i hi
  have := h (w - i) (by omega) (by omega)
  simpa [cipherBit, show w - (w - i) = i by omega] using this

/-- The rotation of the key schedule is the rotation of bit vectors. -/
theorem rotl28_eq_rotateLeft (v : HalfKey) (n : Nat) (h : n < 28) : rotl28 v n = v.rotateLeft n := by
  rw [rotl28, BitVec.rotateLeft_def, Nat.mod_eq_of_lt h]

/-- A permutation is linear over XOR (rule R77). -/
theorem permute_xor {n w : Nat} (t : List Nat) (a b : BitVec w) (h : t.length = n) :
    permute n t (a ^^^ b) = permute n t a ^^^ permute n t b := by
  apply BitVec.eq_of_getLsbD_eq
  intro i hi
  simp only [BitVec.getLsbD_xor, permute_getLsbD t _ i h, cipherBit]
  cases decide (i < n) <;> simp

/-- A permutation of an all-ones word whose table stays in range is all ones. -/
theorem permute_not {n w : Nat} (t : List Nat) (a : BitVec w) (h : t.length = n) (hr : ∀ j ∈ t, 1 ≤ j ∧ j ≤ w) :
    permute n t (~~~a) = ~~~(permute n t a) := by
  apply BitVec.eq_of_getLsbD_eq
  intro i hi
  have hm : t.getD (n - 1 - i) 0 ∈ t := by
    rw [List.getD_eq_getElem _ _ (by omega)]
    exact List.getElem_mem _
  have := hr _ hm
  have hw : w - t.getD (n - 1 - i) 0 < w := by omega
  simp only [BitVec.getLsbD_not, permute_getLsbD t _ i h, cipherBit]
  simp only [hi, hw, decide_true, Bool.true_and]

/-- `unbe_n` has n bytes. -/
@[simp] theorem unbe_length (n : Nat) {w : Nat} (v : BitVec w) : (unbe n v).length = n := by simp [unbe]

/-- Byte k of `unbe_n(v)`. -/
theorem unbe_getD (n : Nat) {w : Nat} (v : BitVec w) (k : Nat) (h : k < n) :
    (unbe n v).getD k 0 = v.extractLsb' (8 * (n - 1 - k)) 8 := by
  simp [unbe, List.getD_eq_getElem?_getD, h]

/-- The bits of `be`, from a starting value: bit i lies in byte i / 8 from the end, and above the bytes stands the start. -/
theorem beFrom_getLsbD (w : Nat) (b : List Byte) (v : BitVec w) (i : Nat) :
    (b.foldl (fun (u : BitVec w) (x : Byte) => (u <<< 8) ||| x.setWidth w) v).getLsbD i =
      (decide (i < w) && if i / 8 < b.length then (b.getD (b.length - 1 - i / 8) 0).getLsbD (i % 8)
        else v.getLsbD (i - 8 * b.length)) := by
  induction b generalizing v with
  | nil =>
    by_cases h : i < w
    · simp [h]
    · simp [h, BitVec.getLsbD_of_ge v i (by omega)]
  | cons a b ih =>
    rw [List.foldl_cons, ih]
    by_cases hw : i < w
    · simp only [hw, decide_true, Bool.true_and, List.length_cons]
      rcases Nat.lt_trichotomy (i / 8) b.length with h | h | h
      · rw [if_pos h, if_pos (by omega), show b.length + 1 - 1 - i / 8 = (b.length - 1 - i / 8) + 1 by omega,
          List.getD_cons_succ]
      · rw [if_neg (by omega), if_pos (by omega), show b.length + 1 - 1 - i / 8 = 0 by omega, List.getD_cons_zero,
          show i - 8 * b.length = i % 8 by omega]
        have h8 : i % 8 < 8 := Nat.mod_lt _ (by omega)
        simp [h8, show i % 8 < w by omega]
      · rw [if_neg (by omega), if_neg (by omega)]
        have e : i - 8 * b.length - 8 = i - 8 * (b.length + 1) := by omega
        have h8 : 8 ≤ i - 8 * b.length := by omega
        have hlt : i - 8 * b.length < w := by omega
        rw [BitVec.getLsbD_or, BitVec.getLsbD_shiftLeft, BitVec.getLsbD_setWidth, BitVec.getLsbD_of_ge a _ h8, e]
        simp only [hlt, show ¬ i - 8 * b.length < 8 by omega, decide_true, decide_false, Bool.not_false, Bool.true_and,
          Bool.and_false, Bool.or_false]
    · simp [hw]

/-- Bit i of `be(b)` is bit i mod 8 of the byte i / 8 places from the end (rule R11). -/
theorem be_getLsbD (w : Nat) (b : List Byte) (i : Nat) :
    (be w b).getLsbD i =
      (decide (i < w) && (decide (i / 8 < b.length) && (b.getD (b.length - 1 - i / 8) 0).getLsbD (i % 8))) := by
  rw [be, beFrom_getLsbD]
  by_cases h : i / 8 < b.length <;> simp [h]

/-- Loading the n bytes a value was stored as gives the value back (rules R11, R75, R76). -/
theorem be_unbe {w : Nat} (n : Nat) (v : BitVec w) (h : w = 8 * n) : be w (unbe n v) = v := by
  apply BitVec.eq_of_getLsbD_eq
  intro i hi
  have hk : i / 8 < n := by omega
  rw [be_getLsbD, unbe_length, unbe_getD n v _ (by omega)]
  have h8 : i % 8 < 8 := Nat.mod_lt _ (by omega)
  have e : 8 * (n - 1 - (n - 1 - i / 8)) + i % 8 = i := by omega
  simp [hi, hk, h8, e]

/-- Storing what was loaded from n bytes gives the bytes back (rules R11, R75, R76). -/
theorem unbe_be (n w : Nat) (b : List Byte) (h : b.length = n) (hw : 8 * n ≤ w) : unbe n (be w b) = b := by
  apply List.ext_getElem (by simp [h])
  intro k hk hk'
  have hk1 : k < n := by simpa using hk
  have e : (unbe n (be w b)).getD k 0 = b.getD k 0 := by
    rw [unbe_getD n _ k hk1]
    apply BitVec.eq_of_getLsbD_eq
    intro i hi
    have e1 : (8 * (n - 1 - k) + i) / 8 = n - 1 - k := by omega
    have e2 : (8 * (n - 1 - k) + i) % 8 = i := by omega
    have e3 : n - 1 - (n - 1 - k) = k := by omega
    rw [BitVec.getLsbD_extractLsb', be_getLsbD, h, e1, e2, e3]
    simp [hi, show 8 * (n - 1 - k) + i < w by omega, show n - 1 - k < n by omega]
  rwa [List.getD_eq_getElem _ _ hk, List.getD_eq_getElem _ _ hk'] at e

/-- Lane `j` of a number read from bytes is byte `j` of them, the most significant first. -/
theorem be_extractLsb' (b : List Byte) (j : Nat) (hb : b.length ≤ 4) (hj : j < b.length) :
    (be 32 b).extractLsb' (8 * (b.length - 1 - j)) 8 = b.getD j 0 := by
  apply BitVec.eq_of_getLsbD_eq
  intro i hi
  have h1 : (8 * (b.length - 1 - j) + i) / 8 = b.length - 1 - j := by omega
  have h2 : (8 * (b.length - 1 - j) + i) % 8 = i := by omega
  have h3 : 8 * (b.length - 1 - j) + i < 32 := by omega
  have h4 : b.length - 1 - j < b.length := by omega
  rw [BitVec.getLsbD_extractLsb', be_getLsbD, h1, h2, show b.length - 1 - (b.length - 1 - j) = j by omega]
  simp [hi, h3, h4]

/-- A number read from `n` bytes has `8 n` bits. -/
theorem be_toNat_lt (w : Nat) (b : List Byte) : (be w b).toNat < 2 ^ (8 * b.length) := by
  apply Nat.lt_pow_two_of_testBit
  intro i hi
  have h : ¬ i / 8 < b.length := by omega
  rw [BitVec.testBit_toNat, be_getLsbD]
  simp [h]

end Sys2Proof.Machine
end

