-- ==== Sys2Proof/Laws/Memory.lean ====
section
/-! SUPPORT. The laws of the byte buffers: a read after a write, and that every operation keeps the canonical form. -/

namespace Sys2Proof.Machine

@[simp] theorem Memory.read_nil (a : Nat) : Memory.read [] a = none := rfl

/-- A read after a write gives the written byte at the written offset, and what it gave before elsewhere. -/
theorem Memory.read_write (m : Memory) (a : Nat) (b : Byte) (x : Nat) :
    Memory.read (Memory.write m a b) x = if x = a then some b else Memory.read m x := by
  induction m with
  | nil => simp [Memory.write, Memory.read, eq_comm]
  | cons c m ih =>
    obtain ⟨k, v⟩ := c
    rw [Memory.write]
    by_cases h1 : a < k
    · rw [if_pos h1]
      by_cases hx : x = a
      · subst hx; simp [Memory.read]
      · simp [Memory.read, hx, Ne.symm hx]
    by_cases h2 : a = k
    · subst h2
      rw [if_neg h1, if_pos rfl]
      by_cases hx : x = a
      · subst hx; simp [Memory.read]
      · simp [Memory.read, hx, Ne.symm hx]
    · rw [if_neg h1, if_neg h2]
      by_cases hk : k = x
      · have : x ≠ a := by omega
        simp [Memory.read, hk, this]
      · simp only [Memory.read, if_neg hk, ih]

/-- The offsets a write leaves listed. -/
theorem Memory.mem_write (m : Memory) (a : Nat) (b : Byte) (c : Host.Cell) (h : c ∈ Memory.write m a b) :
    c.1 = a ∨ c ∈ m := by
  induction m with
  | nil =>
    simp only [Memory.write, List.mem_singleton] at h
    exact .inl (by rw [h])
  | cons d m ih =>
    obtain ⟨k, v⟩ := d
    rw [Memory.write] at h
    split_ifs at h with h1 h2
    · rcases List.mem_cons.1 h with h | h
      · exact .inl (by rw [h])
      · exact .inr h
    · rcases List.mem_cons.1 h with h | h
      · exact .inl (by rw [h])
      · exact .inr (List.mem_cons_of_mem _ h)
    · rcases List.mem_cons.1 h with h | h
      · exact .inr (by rw [h]; exact List.mem_cons_self)
      · exact (ih h).imp_right (List.mem_cons_of_mem _)

/-- A write keeps the canonical form. -/
theorem Memory.wf_write (m : Memory) (h : Memory.wf m) (a : Nat) (b : Byte) : Memory.wf (Memory.write m a b) := by
  induction m with
  | nil => simp [Memory.write, Memory.wf]
  | cons c m ih =>
    obtain ⟨k, v⟩ := c
    have ih := ih h.tail
    have hk := (List.pairwise_cons.1 h).1
    rw [Memory.write]
    split_ifs with h1 h2
    · refine List.pairwise_cons.2 ⟨fun c hc => ?_, h⟩
      rcases List.mem_cons.1 hc with hc | hc
      · rw [hc]; exact h1
      · exact Nat.lt_trans h1 (hk c hc)
    · exact List.pairwise_cons.2 ⟨fun c hc => h2 ▸ hk c hc, h.tail⟩
    · refine List.pairwise_cons.2 ⟨fun c hc => ?_, ih⟩
      rcases Memory.mem_write m a b c hc with hc | hc
      · have : k < a := by omega
        rw [hc]; exact this
      · exact hk c hc

/-- Several writes keep the canonical form. -/
theorem Memory.wf_writeBytes (bs : List Byte) : ∀ (m : Memory) (a : Nat), Memory.wf m → Memory.wf (Memory.writeBytes m a bs) := by
  induction bs with
  | nil => exact fun m a h => h
  | cons b bs ih => exact fun m a h => ih _ _ (Memory.wf_write m h a b)

/-- The offsets several writes leave listed. -/
theorem Memory.mem_writeBytes (bs : List Byte) :
    ∀ (m : Memory) (a : Nat) (c : Host.Cell), c ∈ Memory.writeBytes m a bs → (a ≤ c.1 ∧ c.1 < a + bs.length) ∨ c ∈ m := by
  induction bs with
  | nil => exact fun m a c h => .inr h
  | cons b bs ih =>
    intro m a c h
    rcases ih _ _ _ h with h | h
    · left; simp; omega
    · rcases Memory.mem_write m a b c h with h | h
      · left; simp; omega
      · exact .inr h

/-- A read after several writes. -/
theorem Memory.read_writeBytes (bs : List Byte) :
    ∀ (m : Memory) (a x : Nat),
      Memory.read (Memory.writeBytes m a bs) x =
        if a ≤ x ∧ x < a + bs.length then some (bs.getD (x - a) 0) else Memory.read m x := by
  induction bs with
  | nil => intro m a x; rw [if_neg (by simp)]; rfl
  | cons b bs ih =>
    intro m a x
    rw [Memory.writeBytes, ih, Memory.read_write]
    by_cases hx : x = a
    · subst hx
      rw [if_neg (by omega), if_pos rfl, if_pos (by simp)]
      simp
    · by_cases h1 : a + 1 ≤ x ∧ x < a + 1 + bs.length
      · rw [if_pos h1, if_pos (by simp; omega), show x - a = (x - (a + 1)) + 1 by omega, List.getD_cons_succ]
      · rw [if_neg h1, if_neg hx, if_neg (by simp; omega)]

/-- What a buffer that holds exactly these bytes reads as. -/
theorem Memory.read_ofBytes (bs : List Byte) :
    ∀ a x : Nat, Memory.read (Memory.ofBytes a bs) x =
      if a ≤ x ∧ x < a + bs.length then some (bs.getD (x - a) 0) else none := by
  induction bs with
  | nil => intro a x; rw [if_neg (by simp)]; rfl
  | cons b bs ih =>
    intro a x
    rw [Memory.ofBytes, Memory.read, ih]
    by_cases hx : a = x
    · subst hx; simp
    · by_cases h1 : a + 1 ≤ x ∧ x < a + 1 + bs.length
      · rw [if_neg hx, if_pos h1, if_pos (by simp; omega), show x - a = (x - (a + 1)) + 1 by omega, List.getD_cons_succ]
      · rw [if_neg hx, if_neg h1, if_neg (by simp; omega)]

/-- The offsets a buffer that holds exactly these bytes lists. -/
theorem Memory.mem_ofBytes (bs : List Byte) :
    ∀ (a : Nat) (c : Host.Cell), c ∈ Memory.ofBytes a bs → a ≤ c.1 ∧ c.1 < a + bs.length := by
  induction bs with
  | nil => intro a c h; cases h
  | cons b bs ih =>
    intro a c h
    rcases List.mem_cons.1 h with h | h
    · subst h; simp
    · have := ih _ _ h; simp; omega

/-- A buffer that holds exactly these bytes is in canonical form. -/
theorem Memory.wf_ofBytes (bs : List Byte) : ∀ a, Memory.wf (Memory.ofBytes a bs) := by
  induction bs with
  | nil => intro a; exact List.Pairwise.nil
  | cons b bs ih =>
    intro a
    refine List.pairwise_cons.2 ⟨fun c hc => ?_, ih _⟩
    have := Memory.mem_ofBytes bs _ c hc
    show a < c.1
    omega

/-- Reading n bytes succeeds exactly with n bytes, each of which the buffer specifies. -/
theorem Memory.readBytes_eq_some (m : Memory) (n : Nat) :
    ∀ (a : Nat) (bs : List Byte), Memory.readBytes m a n = some bs ↔
      bs.length = n ∧ ∀ k, k < n → Memory.read m (a + k) = some (bs.getD k 0) := by
  induction n with
  | zero => intro a bs; cases bs <;> simp [Memory.readBytes]
  | succ n ih =>
    intro a bs
    rw [Memory.readBytes]
    cases bs with
    | nil => cases Memory.read m a <;> cases Memory.readBytes m (a + 1) n <;> simp
    | cons b bs =>
      have ih := ih (a + 1) bs
      constructor
      · intro h
        cases hr : Memory.read m a with
        | none => simp [hr] at h
        | some c =>
          cases hb : Memory.readBytes m (a + 1) n with
          | none => simp [hr, hb] at h
          | some cs =>
            simp only [hr, hb, Option.some.injEq, List.cons.injEq] at h
            obtain ⟨rfl, rfl⟩ := h
            obtain ⟨hl, hk⟩ := ih.1 hb
            refine ⟨by simp [hl], fun k hk' => ?_⟩
            cases k with
            | zero => simpa using hr
            | succ k => rw [show a + (k + 1) = a + 1 + k by omega, hk k (by omega), List.getD_cons_succ]
      · rintro ⟨hl, hk⟩
        have h0 := hk 0 (by omega)
        have hs : Memory.readBytes m (a + 1) n = some bs := by
          refine ih.2 ⟨by simpa using hl, fun k hk' => ?_⟩
          rw [show a + 1 + k = a + (k + 1) by omega, hk (k + 1) (by omega), List.getD_cons_succ]
        simp only [Nat.add_zero, List.getD_cons_zero] at h0
        simp [h0, hs]

/-- Reading n bytes fails exactly where one of them is unspecified. -/
theorem Memory.readBytes_eq_none (m : Memory) (n a : Nat) :
    Memory.readBytes m a n = none ↔ ∃ k, k < n ∧ Memory.read m (a + k) = none := by
  induction n generalizing a with
  | zero => simp [Memory.readBytes]
  | succ n ih =>
    rw [Memory.readBytes]
    have ih := ih (a + 1)
    cases hr : Memory.read m a with
    | none => simpa using ⟨0, by omega, hr⟩
    | some c =>
      cases hb : Memory.readBytes m (a + 1) n with
      | none =>
        obtain ⟨k, hk, h⟩ := ih.1 hb
        simpa using ⟨k + 1, by omega, by rwa [show a + (k + 1) = a + 1 + k by omega]⟩
      | some cs =>
        simp only [reduceCtorEq, false_iff, not_exists, not_and]
        intro k hk h
        cases k with
        | zero => simp [hr] at h
        | succ k =>
          have : Memory.readBytes m (a + 1) n = none :=
            ih.2 ⟨k, by omega, by rwa [show a + 1 + k = a + (k + 1) by omega]⟩
          simp [hb] at this

/-- Reading back part of a buffer that holds exactly these bytes. -/
theorem Memory.readBytes_ofBytes (bs : List Byte) (a n : Nat) (h : a + n ≤ bs.length) :
    Memory.readBytes (Memory.ofBytes 0 bs) a n = some ((bs.drop a).take n) := by
  refine (Memory.readBytes_eq_some _ _ _ _).2 ⟨by simp; omega, fun k hk => ?_⟩
  rw [Memory.read_ofBytes, if_pos (by omega)]
  simp [List.getD_eq_getElem?_getD, hk]

end Sys2Proof.Machine
end

