-- ==== Sys2Proof/Laws/State.lean ====
section
/-! SUPPORT. What each named update of the state leaves in each field, so that no later proof unfolds a record update. -/

namespace Sys2Proof.Machine

/-! The fields after completing a command. -/

@[simp] theorem complete_cfg (op : BitVec 4) (code : ErrCode) (out : List Byte) (s : State) : (complete op code out s).cfg = s.cfg := rfl
@[simp] theorem complete_ctrl (op : BitVec 4) (code : ErrCode) (out : List Byte) (s : State) : (complete op code out s).ctrl = s.ctrl := rfl
@[simp] theorem complete_len (op : BitVec 4) (code : ErrCode) (out : List Byte) (s : State) : (complete op code out s).len = s.len := rfl
@[simp] theorem complete_key0 (op : BitVec 4) (code : ErrCode) (out : List Byte) (s : State) : (complete op code out s).key0 = s.key0 := rfl
@[simp] theorem complete_key1 (op : BitVec 4) (code : ErrCode) (out : List Byte) (s : State) : (complete op code out s).key1 = s.key1 := rfl
@[simp] theorem complete_key2 (op : BitVec 4) (code : ErrCode) (out : List Byte) (s : State) : (complete op code out s).key2 = s.key2 := rfl
@[simp] theorem complete_ivin (op : BitVec 4) (code : ErrCode) (out : List Byte) (s : State) : (complete op code out s).ivin = s.ivin := rfl
@[simp] theorem complete_configured (op : BitVec 4) (code : ErrCode) (out : List Byte) (s : State) : (complete op code out s).configured = s.configured := rfl
@[simp] theorem complete_aMode (op : BitVec 4) (code : ErrCode) (out : List Byte) (s : State) : (complete op code out s).aMode = s.aMode := rfl
@[simp] theorem complete_aAlg (op : BitVec 4) (code : ErrCode) (out : List Byte) (s : State) : (complete op code out s).aAlg = s.aAlg := rfl
@[simp] theorem complete_aK0 (op : BitVec 4) (code : ErrCode) (out : List Byte) (s : State) : (complete op code out s).aK0 = s.aK0 := rfl
@[simp] theorem complete_aK1 (op : BitVec 4) (code : ErrCode) (out : List Byte) (s : State) : (complete op code out s).aK1 = s.aK1 := rfl
@[simp] theorem complete_aK2 (op : BitVec 4) (code : ErrCode) (out : List Byte) (s : State) : (complete op code out s).aK2 = s.aK2 := rfl
@[simp] theorem complete_ivInit (op : BitVec 4) (code : ErrCode) (out : List Byte) (s : State) : (complete op code out s).ivInit = s.ivInit := rfl
@[simp] theorem complete_ivChain (op : BitVec 4) (code : ErrCode) (out : List Byte) (s : State) : (complete op code out s).ivChain = s.ivChain := rfl
@[simp] theorem complete_done (op : BitVec 4) (code : ErrCode) (out : List Byte) (s : State) : (complete op code out s).done = true := rfl
@[simp] theorem complete_ovr (op : BitVec 4) (code : ErrCode) (out : List Byte) (s : State) : (complete op code out s).ovr = s.ovr := rfl
@[simp] theorem complete_accErr (op : BitVec 4) (code : ErrCode) (out : List Byte) (s : State) : (complete op code out s).accErr = s.accErr := rfl
@[simp] theorem complete_err (op : BitVec 4) (code : ErrCode) (out : List Byte) (s : State) : (complete op code out s).err = code := rfl
@[simp] theorem complete_lastop (op : BitVec 4) (code : ErrCode) (out : List Byte) (s : State) : (complete op code out s).lastop = op := rfl
@[simp] theorem complete_outlen (op : BitVec 4) (code : ErrCode) (out : List Byte) (s : State) : (complete op code out s).outlen = BitVec.ofNat 32 out.length := rfl
@[simp] theorem complete_inBuf (op : BitVec 4) (code : ErrCode) (out : List Byte) (s : State) : (complete op code out s).inBuf = s.inBuf := rfl
@[simp] theorem complete_outBuf (op : BitVec 4) (code : ErrCode) (out : List Byte) (s : State) : (complete op code out s).outBuf = Memory.ofBytes 0 out := rfl
@[simp] theorem complete_running (op : BitVec 4) (code : ErrCode) (out : List Byte) (s : State) : (complete op code out s).running = none := rfl
@[simp] theorem complete_resetLine (op : BitVec 4) (code : ErrCode) (out : List Byte) (s : State) : (complete op code out s).resetLine = s.resetLine := rfl
@[simp] theorem complete_bus (op : BitVec 4) (code : ErrCode) (out : List Byte) (s : State) : (complete op code out s).bus = s.bus := rfl
@[simp] theorem complete_answer (op : BitVec 4) (code : ErrCode) (out : List Byte) (s : State) : (complete op code out s).answer = s.answer := rfl
@[simp] theorem complete_draws (op : BitVec 4) (code : ErrCode) (out : List Byte) (s : State) : (complete op code out s).draws = s.draws + 1 := rfl

/-! The fields after accepting a command. -/

@[simp] theorem accept_cfg (s : State) (w : Word) : (s.accept w).cfg = s.cfg := rfl
@[simp] theorem accept_ctrl (s : State) (w : Word) : (s.accept w).ctrl = s.ctrl := rfl
@[simp] theorem accept_len (s : State) (w : Word) : (s.accept w).len = s.len := rfl
@[simp] theorem accept_key0 (s : State) (w : Word) : (s.accept w).key0 = s.key0 := rfl
@[simp] theorem accept_key1 (s : State) (w : Word) : (s.accept w).key1 = s.key1 := rfl
@[simp] theorem accept_key2 (s : State) (w : Word) : (s.accept w).key2 = s.key2 := rfl
@[simp] theorem accept_ivin (s : State) (w : Word) : (s.accept w).ivin = s.ivin := rfl
@[simp] theorem accept_configured (s : State) (w : Word) : (s.accept w).configured = s.configured := rfl
@[simp] theorem accept_aMode (s : State) (w : Word) : (s.accept w).aMode = s.aMode := rfl
@[simp] theorem accept_aAlg (s : State) (w : Word) : (s.accept w).aAlg = s.aAlg := rfl
@[simp] theorem accept_aK0 (s : State) (w : Word) : (s.accept w).aK0 = s.aK0 := rfl
@[simp] theorem accept_aK1 (s : State) (w : Word) : (s.accept w).aK1 = s.aK1 := rfl
@[simp] theorem accept_aK2 (s : State) (w : Word) : (s.accept w).aK2 = s.aK2 := rfl
@[simp] theorem accept_ivInit (s : State) (w : Word) : (s.accept w).ivInit = s.ivInit := rfl
@[simp] theorem accept_ivChain (s : State) (w : Word) : (s.accept w).ivChain = s.ivChain := rfl
@[simp] theorem accept_done (s : State) (w : Word) : (s.accept w).done = s.done := rfl
@[simp] theorem accept_ovr (s : State) (w : Word) : (s.accept w).ovr = s.ovr := rfl
@[simp] theorem accept_accErr (s : State) (w : Word) : (s.accept w).accErr = s.accErr := rfl
@[simp] theorem accept_err (s : State) (w : Word) : (s.accept w).err = s.err := rfl
@[simp] theorem accept_lastop (s : State) (w : Word) : (s.accept w).lastop = s.lastop := rfl
@[simp] theorem accept_outlen (s : State) (w : Word) : (s.accept w).outlen = s.outlen := rfl
@[simp] theorem accept_inBuf (s : State) (w : Word) : (s.accept w).inBuf = s.inBuf := rfl
@[simp] theorem accept_outBuf (s : State) (w : Word) : (s.accept w).outBuf = s.outBuf := rfl
@[simp] theorem accept_running (s : State) (w : Word) : (s.accept w).running = some (s.sample w) := rfl
@[simp] theorem accept_resetLine (s : State) (w : Word) : (s.accept w).resetLine = s.resetLine := rfl
@[simp] theorem accept_bus (s : State) (w : Word) : (s.accept w).bus = s.bus := rfl
@[simp] theorem accept_answer (s : State) (w : Word) : (s.accept w).answer = s.answer := rfl
@[simp] theorem accept_draws (s : State) (w : Word) : (s.accept w).draws = s.draws := rfl

/-! The fields after INIT's latching. -/

@[simp] theorem latch_cfg (s : State) (m : Mode) (o : InitOperands) : (s.latch m o).cfg = s.cfg := rfl
@[simp] theorem latch_ctrl (s : State) (m : Mode) (o : InitOperands) : (s.latch m o).ctrl = s.ctrl := rfl
@[simp] theorem latch_len (s : State) (m : Mode) (o : InitOperands) : (s.latch m o).len = s.len := rfl
@[simp] theorem latch_key0 (s : State) (m : Mode) (o : InitOperands) : (s.latch m o).key0 = s.key0 := rfl
@[simp] theorem latch_key1 (s : State) (m : Mode) (o : InitOperands) : (s.latch m o).key1 = s.key1 := rfl
@[simp] theorem latch_key2 (s : State) (m : Mode) (o : InitOperands) : (s.latch m o).key2 = s.key2 := rfl
@[simp] theorem latch_ivin (s : State) (m : Mode) (o : InitOperands) : (s.latch m o).ivin = s.ivin := rfl
@[simp] theorem latch_configured (s : State) (m : Mode) (o : InitOperands) : (s.latch m o).configured = true := rfl
@[simp] theorem latch_aMode (s : State) (m : Mode) (o : InitOperands) : (s.latch m o).aMode = m := rfl
@[simp] theorem latch_aAlg (s : State) (m : Mode) (o : InitOperands) : (s.latch m o).aAlg = ctrlAlg o.ctrl := rfl
@[simp] theorem latch_aK0 (s : State) (m : Mode) (o : InitOperands) : (s.latch m o).aK0 = o.key0 := rfl
@[simp] theorem latch_aK1 (s : State) (m : Mode) (o : InitOperands) : (s.latch m o).aK1 = o.key1 := rfl
@[simp] theorem latch_aK2 (s : State) (m : Mode) (o : InitOperands) : (s.latch m o).aK2 = o.key2 := rfl
@[simp] theorem latch_ivInit (s : State) (m : Mode) (o : InitOperands) : (s.latch m o).ivInit = o.iv := rfl
@[simp] theorem latch_ivChain (s : State) (m : Mode) (o : InitOperands) : (s.latch m o).ivChain = o.iv := rfl
@[simp] theorem latch_done (s : State) (m : Mode) (o : InitOperands) : (s.latch m o).done = s.done := rfl
@[simp] theorem latch_ovr (s : State) (m : Mode) (o : InitOperands) : (s.latch m o).ovr = s.ovr := rfl
@[simp] theorem latch_accErr (s : State) (m : Mode) (o : InitOperands) : (s.latch m o).accErr = s.accErr := rfl
@[simp] theorem latch_err (s : State) (m : Mode) (o : InitOperands) : (s.latch m o).err = s.err := rfl
@[simp] theorem latch_lastop (s : State) (m : Mode) (o : InitOperands) : (s.latch m o).lastop = s.lastop := rfl
@[simp] theorem latch_outlen (s : State) (m : Mode) (o : InitOperands) : (s.latch m o).outlen = s.outlen := rfl
@[simp] theorem latch_inBuf (s : State) (m : Mode) (o : InitOperands) : (s.latch m o).inBuf = s.inBuf := rfl
@[simp] theorem latch_outBuf (s : State) (m : Mode) (o : InitOperands) : (s.latch m o).outBuf = s.outBuf := rfl
@[simp] theorem latch_running (s : State) (m : Mode) (o : InitOperands) : (s.latch m o).running = s.running := rfl
@[simp] theorem latch_resetLine (s : State) (m : Mode) (o : InitOperands) : (s.latch m o).resetLine = s.resetLine := rfl
@[simp] theorem latch_bus (s : State) (m : Mode) (o : InitOperands) : (s.latch m o).bus = s.bus := rfl
@[simp] theorem latch_answer (s : State) (m : Mode) (o : InitOperands) : (s.latch m o).answer = s.answer := rfl
@[simp] theorem latch_draws (s : State) (m : Mode) (o : InitOperands) : (s.latch m o).draws = s.draws := rfl

/-! The fields after the bookkeeping of a write. -/

@[simp] theorem noteWrite_cfg (s : State) : (s.noteWrite).cfg = s.cfg := rfl
@[simp] theorem noteWrite_ctrl (s : State) : (s.noteWrite).ctrl = s.ctrl := rfl
@[simp] theorem noteWrite_len (s : State) : (s.noteWrite).len = s.len := rfl
@[simp] theorem noteWrite_key0 (s : State) : (s.noteWrite).key0 = s.key0 := rfl
@[simp] theorem noteWrite_key1 (s : State) : (s.noteWrite).key1 = s.key1 := rfl
@[simp] theorem noteWrite_key2 (s : State) : (s.noteWrite).key2 = s.key2 := rfl
@[simp] theorem noteWrite_ivin (s : State) : (s.noteWrite).ivin = s.ivin := rfl
@[simp] theorem noteWrite_configured (s : State) : (s.noteWrite).configured = s.configured := rfl
@[simp] theorem noteWrite_aMode (s : State) : (s.noteWrite).aMode = s.aMode := rfl
@[simp] theorem noteWrite_aAlg (s : State) : (s.noteWrite).aAlg = s.aAlg := rfl
@[simp] theorem noteWrite_aK0 (s : State) : (s.noteWrite).aK0 = s.aK0 := rfl
@[simp] theorem noteWrite_aK1 (s : State) : (s.noteWrite).aK1 = s.aK1 := rfl
@[simp] theorem noteWrite_aK2 (s : State) : (s.noteWrite).aK2 = s.aK2 := rfl
@[simp] theorem noteWrite_ivInit (s : State) : (s.noteWrite).ivInit = s.ivInit := rfl
@[simp] theorem noteWrite_ivChain (s : State) : (s.noteWrite).ivChain = s.ivChain := rfl
@[simp] theorem noteWrite_done (s : State) : (s.noteWrite).done = s.done := rfl
@[simp] theorem noteWrite_ovr (s : State) : (s.noteWrite).ovr = s.ovr := rfl
@[simp] theorem noteWrite_accErr (s : State) : (s.noteWrite).accErr = s.accErr := rfl
@[simp] theorem noteWrite_err (s : State) : (s.noteWrite).err = s.err := rfl
@[simp] theorem noteWrite_lastop (s : State) : (s.noteWrite).lastop = s.lastop := rfl
@[simp] theorem noteWrite_outlen (s : State) : (s.noteWrite).outlen = s.outlen := rfl
@[simp] theorem noteWrite_inBuf (s : State) : (s.noteWrite).inBuf = s.inBuf := rfl
@[simp] theorem noteWrite_outBuf (s : State) : (s.noteWrite).outBuf = s.outBuf := rfl
@[simp] theorem noteWrite_running (s : State) : (s.noteWrite).running = s.running := rfl
@[simp] theorem noteWrite_resetLine (s : State) : (s.noteWrite).resetLine = s.resetLine := rfl
@[simp] theorem noteWrite_bus (s : State) : (s.noteWrite).bus = s.bus := rfl
@[simp] theorem noteWrite_answer (s : State) : (s.noteWrite).answer = none := rfl
@[simp] theorem noteWrite_draws (s : State) : (s.noteWrite).draws = s.draws + 1 := rfl

/-! The fields after a STATUS write. -/

@[simp] theorem writeStatus_cfg (s : State) (d : Word) : (s.writeStatus d).cfg = s.cfg := rfl
@[simp] theorem writeStatus_ctrl (s : State) (d : Word) : (s.writeStatus d).ctrl = s.ctrl := rfl
@[simp] theorem writeStatus_len (s : State) (d : Word) : (s.writeStatus d).len = s.len := rfl
@[simp] theorem writeStatus_key0 (s : State) (d : Word) : (s.writeStatus d).key0 = s.key0 := rfl
@[simp] theorem writeStatus_key1 (s : State) (d : Word) : (s.writeStatus d).key1 = s.key1 := rfl
@[simp] theorem writeStatus_key2 (s : State) (d : Word) : (s.writeStatus d).key2 = s.key2 := rfl
@[simp] theorem writeStatus_ivin (s : State) (d : Word) : (s.writeStatus d).ivin = s.ivin := rfl
@[simp] theorem writeStatus_configured (s : State) (d : Word) : (s.writeStatus d).configured = s.configured := rfl
@[simp] theorem writeStatus_aMode (s : State) (d : Word) : (s.writeStatus d).aMode = s.aMode := rfl
@[simp] theorem writeStatus_aAlg (s : State) (d : Word) : (s.writeStatus d).aAlg = s.aAlg := rfl
@[simp] theorem writeStatus_aK0 (s : State) (d : Word) : (s.writeStatus d).aK0 = s.aK0 := rfl
@[simp] theorem writeStatus_aK1 (s : State) (d : Word) : (s.writeStatus d).aK1 = s.aK1 := rfl
@[simp] theorem writeStatus_aK2 (s : State) (d : Word) : (s.writeStatus d).aK2 = s.aK2 := rfl
@[simp] theorem writeStatus_ivInit (s : State) (d : Word) : (s.writeStatus d).ivInit = s.ivInit := rfl
@[simp] theorem writeStatus_ivChain (s : State) (d : Word) : (s.writeStatus d).ivChain = s.ivChain := rfl
@[simp] theorem writeStatus_done (s : State) (d : Word) : (s.writeStatus d).done = (s.done && !d.getLsbD 1) := rfl
@[simp] theorem writeStatus_ovr (s : State) (d : Word) : (s.writeStatus d).ovr = (s.ovr && !d.getLsbD 3) := rfl
@[simp] theorem writeStatus_accErr (s : State) (d : Word) : (s.writeStatus d).accErr = (s.accErr && !d.getLsbD 4) := rfl
@[simp] theorem writeStatus_err (s : State) (d : Word) : (s.writeStatus d).err = s.err := rfl
@[simp] theorem writeStatus_lastop (s : State) (d : Word) : (s.writeStatus d).lastop = s.lastop := rfl
@[simp] theorem writeStatus_outlen (s : State) (d : Word) : (s.writeStatus d).outlen = s.outlen := rfl
@[simp] theorem writeStatus_inBuf (s : State) (d : Word) : (s.writeStatus d).inBuf = s.inBuf := rfl
@[simp] theorem writeStatus_outBuf (s : State) (d : Word) : (s.writeStatus d).outBuf = s.outBuf := rfl
@[simp] theorem writeStatus_running (s : State) (d : Word) : (s.writeStatus d).running = s.running := rfl
@[simp] theorem writeStatus_resetLine (s : State) (d : Word) : (s.writeStatus d).resetLine = s.resetLine := rfl
@[simp] theorem writeStatus_bus (s : State) (d : Word) : (s.writeStatus d).bus = s.bus := rfl
@[simp] theorem writeStatus_answer (s : State) (d : Word) : (s.writeStatus d).answer = s.answer := rfl
@[simp] theorem writeStatus_draws (s : State) (d : Word) : (s.writeStatus d).draws = s.draws := rfl

/-! The fields while the reset input is asserted. -/

@[simp] theorem holdReset_cfg (s : State) : (holdReset s).cfg = s.cfg := rfl
@[simp] theorem holdReset_ctrl (s : State) : (holdReset s).ctrl = 0 := rfl
@[simp] theorem holdReset_len (s : State) : (holdReset s).len = 0 := rfl
@[simp] theorem holdReset_key0 (s : State) : (holdReset s).key0 = 0 := rfl
@[simp] theorem holdReset_key1 (s : State) : (holdReset s).key1 = 0 := rfl
@[simp] theorem holdReset_key2 (s : State) : (holdReset s).key2 = 0 := rfl
@[simp] theorem holdReset_ivin (s : State) : (holdReset s).ivin = 0 := rfl
@[simp] theorem holdReset_configured (s : State) : (holdReset s).configured = false := rfl
@[simp] theorem holdReset_aMode (s : State) : (holdReset s).aMode = .ecb := rfl
@[simp] theorem holdReset_aAlg (s : State) : (holdReset s).aAlg = .des := rfl
@[simp] theorem holdReset_aK0 (s : State) : (holdReset s).aK0 = 0 := rfl
@[simp] theorem holdReset_aK1 (s : State) : (holdReset s).aK1 = 0 := rfl
@[simp] theorem holdReset_aK2 (s : State) : (holdReset s).aK2 = 0 := rfl
@[simp] theorem holdReset_ivInit (s : State) : (holdReset s).ivInit = 0 := rfl
@[simp] theorem holdReset_ivChain (s : State) : (holdReset s).ivChain = 0 := rfl
@[simp] theorem holdReset_done (s : State) : (holdReset s).done = false := rfl
@[simp] theorem holdReset_ovr (s : State) : (holdReset s).ovr = false := rfl
@[simp] theorem holdReset_accErr (s : State) : (holdReset s).accErr = false := rfl
@[simp] theorem holdReset_err (s : State) : (holdReset s).err = .ok := rfl
@[simp] theorem holdReset_lastop (s : State) : (holdReset s).lastop = 0 := rfl
@[simp] theorem holdReset_outlen (s : State) : (holdReset s).outlen = 0 := rfl
@[simp] theorem holdReset_inBuf (s : State) : (holdReset s).inBuf = [] := rfl
@[simp] theorem holdReset_outBuf (s : State) : (holdReset s).outBuf = [] := rfl
@[simp] theorem holdReset_running (s : State) : (holdReset s).running = none := rfl
@[simp] theorem holdReset_resetLine (s : State) : (holdReset s).resetLine = true := rfl
@[simp] theorem holdReset_bus (s : State) : (holdReset s).bus = s.bus := rfl
@[simp] theorem holdReset_answer (s : State) : (holdReset s).answer = s.answer := rfl
@[simp] theorem holdReset_draws (s : State) : (holdReset s).draws = s.draws := rfl

/-- Asserting the reset input. -/
theorem setResetLine_true (s : State) :
    setResetLine true s = { State.resetWith s.cfg with resetLine := true, bus := s.bus, draws := s.draws + 1 } := rfl

/-- Releasing the asserted reset input. -/
theorem setResetLine_false_of_held (s : State) (h : s.resetLine = true) :
    setResetLine false s = { State.resetWith s.cfg with bus := s.bus, draws := s.draws + 1 } := by
  rw [setResetLine, h]
  rfl

/-- Releasing the reset input where it is not asserted changes nothing. -/
theorem setResetLine_false_of_released (s : State) (h : s.resetLine = false) : setResetLine false s = s := by
  rw [setResetLine, h]
  rfl

@[simp] theorem complete_busy (op : BitVec 4) (code : ErrCode) (out : List Byte) (s : State) :
    (complete op code out s).busy = false := rfl

@[simp] theorem accept_busy (s : State) (w : Word) : (s.accept w).busy = true := rfl

@[simp] theorem sample_op (s : State) (w : Word) : (s.sample w).op = opField w := rfl

@[simp] theorem sample_ksel (s : State) (w : Word) : (s.sample w).ksel = kselField w := rfl

@[simp] theorem sample_len (s : State) (w : Word) : (s.sample w).len = s.len := rfl

@[simp] theorem sampledLen_accept (s : State) (w : Word) : (s.accept w).sampledLen = s.len.toNat := rfl

@[simp] theorem sampledLen_idle (s : State) (h : s.running = none) : s.sampledLen = s.len.toNat := by
  simp [State.sampledLen, h]

@[simp] theorem sampledInit_accept_init (s : State) (w : Word) (h : opField w = 0x1) :
    (s.accept w).sampledInit = s.liveInit := by
  simp [State.sampledInit, State.accept, State.sample, h]

@[simp] theorem outlen_complete_toNat (op : BitVec 4) (code : ErrCode) (out : List Byte) (s : State)
    (h : out.length < 2 ^ 32) : (complete op code out s).outlen.toNat = out.length := by
  rw [complete_outlen, BitVec.toNat_ofNat, Nat.mod_eq_of_lt h]

end Sys2Proof.Machine
end

