-- ==== Sys2Proof/Laws/Exec.lean ====
section
/-! SUPPORT. What each command can answer: one lemma per meaning, and one for all of them, cited instead of unfolding. -/

namespace Sys2Proof.Machine

/-- INIT answers a next state: an error with nothing latched, or the sampled registers latched. -/
theorem execInit_cases (s t : State) (h : execInit s = .next t) :
    (∃ code, code ≠ .ok ∧ code ≠ .padding ∧ t = complete 0x1 code [] s) ∨
    (∃ m, ctrlMode s.sampledInit.ctrl = some m ∧ t = complete 0x1 .ok [] (s.latch m s.sampledInit)) := by
  unfold execInit at h
  split_ifs at h with hk
  · exact .inl ⟨_, by decide, by decide, (Host.Outcome.next.inj h).symm⟩
  · split at h
    · exact .inl ⟨_, by decide, by decide, (Host.Outcome.next.inj h).symm⟩
    · rename_i m hm
      split_ifs at h with hv
      · exact .inl ⟨_, by decide, by decide, (Host.Outcome.next.inj h).symm⟩
      · exact .inr ⟨m, hm, (Host.Outcome.next.inj h).symm⟩

/-- A message has as many bytes as the sampled LEN says. -/
theorem message_length (s : State) (m : List Byte) (h : s.message = some m) : m.length = s.sampledLen :=
  ((Memory.readBytes_eq_some _ _ _ _).1 h).1

/-- There is no message exactly where an IN byte below the sampled LEN was not written. -/
theorem message_eq_none (s : State) : s.message = none ↔ ∃ k, k < s.sampledLen ∧ Memory.read s.inBuf k = none := by
  rw [State.message, Memory.readBytes_eq_none]
  simp

/-- ENCRYPT of a message that passes the checks. -/
theorem execEncrypt_eq (s : State) (m : List Byte) (hc : s.configured = true) (hl : s.sampledLen ≤ s.cfg.bufBytes)
    (hm : s.message = some m) :
    execEncrypt s = .next (complete 0x2 .ok (s.encryptBytes m).1 { s with ivChain := (s.encryptBytes m).2 }) := by
  have hm : Memory.readBytes s.inBuf 0 s.sampledLen = some m := hm
  rw [execEncrypt, if_neg (by simp [hc]), if_neg (by omega), hm]
  rfl

/-- DECRYPT of bytes that pass the checks. -/
theorem execDecrypt_eq (s : State) (c : List Byte) (hc : s.configured = true) (hl : s.sampledLen ≤ s.cfg.bufBytes)
    (hr : s.rejectsLength s.sampledLen = false) (hm : s.message = some c) :
    execDecrypt s =
      match s.stripPadding (s.decryptBytes c).1 with
      | none => .next (complete 0x3 .padding [] { s with ivChain := (s.decryptBytes c).2 })
      | some out => .next (complete 0x3 .ok out { s with ivChain := (s.decryptBytes c).2 }) := by
  have hm : Memory.readBytes s.inBuf 0 s.sampledLen = some c := hm
  rw [execDecrypt, if_neg (by simp [hc]), if_neg (by omega), hr, hm]
  rfl

/-- ENCRYPT answers a next state: an error with nothing processed, or the encrypted message. -/
theorem execEncrypt_cases (s t : State) (h : execEncrypt s = .next t) :
    (∃ code, code ≠ .ok ∧ code ≠ .padding ∧ t = complete 0x2 code [] s) ∨
    (s.configured = true ∧ s.sampledLen ≤ s.cfg.bufBytes ∧ ∃ m, s.message = some m ∧
      t = complete 0x2 .ok (s.encryptBytes m).1 { s with ivChain := (s.encryptBytes m).2 }) := by
  unfold execEncrypt at h
  split_ifs at h with hc hl
  · exact .inl ⟨_, by decide, by decide, (Host.Outcome.next.inj h).symm⟩
  · exact .inl ⟨_, by decide, by decide, (Host.Outcome.next.inj h).symm⟩
  · split at h
    · cases h
    · rename_i m hm
      exact .inr ⟨by simpa using hc, by omega, m, hm, (Host.Outcome.next.inj h).symm⟩

/-- DECRYPT answers a next state: an error with nothing processed, a bad padding with the chain advanced, or the message. -/
theorem execDecrypt_cases (s t : State) (h : execDecrypt s = .next t) :
    (∃ code, code ≠ .ok ∧ code ≠ .padding ∧ t = complete 0x3 code [] s) ∨
    (s.configured = true ∧ s.sampledLen ≤ s.cfg.bufBytes ∧ s.rejectsLength s.sampledLen = false ∧
      ∃ c, s.message = some c ∧
        ((s.stripPadding (s.decryptBytes c).1 = none ∧
            t = complete 0x3 .padding [] { s with ivChain := (s.decryptBytes c).2 }) ∨
          ∃ out, s.stripPadding (s.decryptBytes c).1 = some out ∧
            t = complete 0x3 .ok out { s with ivChain := (s.decryptBytes c).2 })) := by
  unfold execDecrypt at h
  split_ifs at h with hc hl hr
  · exact .inl ⟨_, by decide, by decide, (Host.Outcome.next.inj h).symm⟩
  · exact .inl ⟨_, by decide, by decide, (Host.Outcome.next.inj h).symm⟩
  · exact .inl ⟨_, by decide, by decide, (Host.Outcome.next.inj h).symm⟩
  · split at h
    · cases h
    · rename_i c hm
      refine .inr ⟨by simpa using hc, by omega, by simpa using hr, c, hm, ?_⟩
      split at h
      · rename_i hp
        exact .inl ⟨hp, (Host.Outcome.next.inj h).symm⟩
      · rename_i out hp
        exact .inr ⟨out, hp, (Host.Outcome.next.inj h).symm⟩

/-- RESET_IV answers a next state: an error, or the supplied IV put back. -/
theorem execResetIv_cases (s t : State) (h : execResetIv s = .next t) :
    t = complete 0x4 .notConfigured [] s ∨
    (s.configured = true ∧ t = complete 0x4 .ok [] { s with ivChain := s.ivInit }) := by
  unfold execResetIv at h
  split_ifs at h with hc
  · exact .inl (Host.Outcome.next.inj h).symm
  · exact .inr ⟨by simpa using hc, (Host.Outcome.next.inj h).symm⟩

/-- KSREAD answers a next state: an error, or the schedule of the selected key. -/
theorem execKsread_cases (ksel : Nat) (s t : State) (h : execKsread ksel s = .next t) :
    (∃ code, code ≠ .ok ∧ code ≠ .padding ∧ t = complete 0x5 code [] s) ∨
    (s.configured = true ∧ ∃ k, s.selectKey ksel = some k ∧ t = complete 0x5 .ok (scheduleBytes k) s) := by
  unfold execKsread at h
  split_ifs at h with hc
  · exact .inl ⟨_, by decide, by decide, (Host.Outcome.next.inj h).symm⟩
  · split at h
    · exact .inl ⟨_, by decide, by decide, (Host.Outcome.next.inj h).symm⟩
    · rename_i k hk
      exact .inr ⟨by simpa using hc, k, hk, (Host.Outcome.next.inj h).symm⟩

/-- A reserved opcode answers IllegalCommand. -/
theorem illegalCommand_eq (op : BitVec 4) (s : State) :
    illegalCommand op s = .next (complete op .illegalCommand [] s) := rfl

/-- Every command that answers a next state completes: it is `complete` with the command's OP over the state in which the active
configuration and the chaining registers alone may have changed. -/
theorem exec_completes (i : Instr) (s t : State) (h : exec i s = .next t) :
    ∃ (code : ErrCode) (out : List Byte) (u : State), t = complete (opcode i) code out u ∧
      (u = s ∨ (∃ v, u = { s with ivChain := v } ∧ (i = .encrypt ∨ i = .decrypt ∨ i = .resetIv)) ∨
        ∃ m, ctrlMode s.sampledInit.ctrl = some m ∧ u = s.latch m s.sampledInit ∧ i = .init) := by
  cases i with
  | init =>
    rcases execInit_cases s t h with ⟨c, _, _, h⟩ | ⟨m, hm, h⟩
    · exact ⟨c, [], s, h, .inl rfl⟩
    · exact ⟨_, _, _, h, .inr (.inr ⟨m, hm, rfl, rfl⟩)⟩
  | encrypt =>
    rcases execEncrypt_cases s t h with ⟨c, _, _, h⟩ | ⟨_, _, m, _, h⟩
    · exact ⟨c, [], s, h, .inl rfl⟩
    · exact ⟨_, _, _, h, .inr (.inl ⟨_, rfl, .inl rfl⟩)⟩
  | decrypt =>
    rcases execDecrypt_cases s t h with ⟨c, _, _, h⟩ | ⟨_, _, _, c, _, ⟨_, h⟩ | ⟨out, _, h⟩⟩
    · exact ⟨c, [], s, h, .inl rfl⟩
    · exact ⟨_, _, _, h, .inr (.inl ⟨_, rfl, .inr (.inl rfl)⟩)⟩
    · exact ⟨_, _, _, h, .inr (.inl ⟨_, rfl, .inr (.inl rfl)⟩)⟩
  | resetIv =>
    rcases execResetIv_cases s t h with h | ⟨_, h⟩
    · exact ⟨_, _, s, h, .inl rfl⟩
    · exact ⟨_, _, _, h, .inr (.inl ⟨_, rfl, .inr (.inr rfl)⟩)⟩
  | ksread ksel =>
    rcases execKsread_cases ksel s t h with ⟨c, _, _, h⟩ | ⟨_, k, _, h⟩
    · exact ⟨c, [], s, h, .inl rfl⟩
    · exact ⟨_, _, s, h, .inl rfl⟩
  | reserved0 => exact ⟨_, _, s, (Host.Outcome.next.inj h).symm, .inl rfl⟩
  | reserved6 => exact ⟨_, _, s, (Host.Outcome.next.inj h).symm, .inl rfl⟩
  | reserved7 => exact ⟨_, _, s, (Host.Outcome.next.inj h).symm, .inl rfl⟩
  | reserved8 => exact ⟨_, _, s, (Host.Outcome.next.inj h).symm, .inl rfl⟩
  | reserved9 => exact ⟨_, _, s, (Host.Outcome.next.inj h).symm, .inl rfl⟩
  | reservedA => exact ⟨_, _, s, (Host.Outcome.next.inj h).symm, .inl rfl⟩
  | reservedB => exact ⟨_, _, s, (Host.Outcome.next.inj h).symm, .inl rfl⟩
  | reservedC => exact ⟨_, _, s, (Host.Outcome.next.inj h).symm, .inl rfl⟩
  | reservedD => exact ⟨_, _, s, (Host.Outcome.next.inj h).symm, .inl rfl⟩
  | reservedE => exact ⟨_, _, s, (Host.Outcome.next.inj h).symm, .inl rfl⟩
  | reservedF => exact ⟨_, _, s, (Host.Outcome.next.inj h).symm, .inl rfl⟩

/-- What a completed command leaves, whatever it is: it is idle with DONE and LASTOP written, and the staging registers, IN, the
sticky flags, the reset input and what the model keeps of the bus are unchanged. -/
theorem exec_frame (i : Instr) (s t : State) (h : exec i s = .next t) :
    t.running = none ∧ t.done = true ∧ t.lastop = opcode i ∧ t.cfg = s.cfg ∧ t.ctrl = s.ctrl ∧ t.len = s.len ∧
    t.key0 = s.key0 ∧ t.key1 = s.key1 ∧ t.key2 = s.key2 ∧ t.ivin = s.ivin ∧ t.ovr = s.ovr ∧ t.accErr = s.accErr ∧
    t.inBuf = s.inBuf ∧ t.resetLine = s.resetLine ∧ t.bus = s.bus ∧ t.answer = s.answer := by
  obtain ⟨c, out, u, rfl, rfl | ⟨v, rfl, _⟩ | ⟨m, _, rfl, _⟩⟩ := exec_completes i s t h <;> simp

/-- No command is refused. -/
theorem exec_not_refused (i : Instr) (s : State) (r : Refusal) : exec i s ≠ .refused r := by
  intro h
  cases i with
  | init =>
    simp only [exec, execInit, raiseError, succeed] at h
    split_ifs at h
    split at h
    · cases h
    · split_ifs at h
  | encrypt =>
    simp only [exec, execEncrypt, raiseError, succeed] at h
    split_ifs at h
    split at h <;> cases h
  | decrypt =>
    simp only [exec, execDecrypt, raiseError, succeed] at h
    split_ifs at h
    split at h
    · cases h
    · split at h <;> cases h
  | resetIv =>
    simp only [exec, execResetIv, raiseError, succeed] at h
    split_ifs at h
  | ksread ksel =>
    simp only [exec, execKsread, raiseError, succeed] at h
    split_ifs at h
    split at h <;> cases h
  | reserved0 => cases h
  | reserved6 => cases h
  | reserved7 => cases h
  | reserved8 => cases h
  | reserved9 => cases h
  | reservedA => cases h
  | reservedB => cases h
  | reservedC => cases h
  | reservedD => cases h
  | reservedE => cases h
  | reservedF => cases h

end Sys2Proof.Machine
end

