-- ==== Sys2Proof/Laws/Chain.lean ====
section
/-! SUPPORT. The mode chainer: how byte strings split into blocks and join again, and what block j of each mode's run is. -/

namespace Sys2Proof.Machine

/-! ### Bytes and blocks -/

@[simp] theorem chunks8_length (b : List Byte) : (chunks8 b).length = (b.length + 7) / 8 := by simp [chunks8]

@[simp] theorem loadBlocks_length (b : List Byte) : (loadBlocks b).length = (b.length + 7) / 8 := by simp [loadBlocks]

/-- Chunk j of a byte string. -/
theorem chunks8_getElem (b : List Byte) (j : Nat) (h : j < (chunks8 b).length) :
    (chunks8 b)[j] = (b.drop (8 * j)).take 8 := by
  simp [chunks8]

/-- Block j of a loaded byte string. -/
theorem loadBlocks_getElem (b : List Byte) (j : Nat) (h : j < (loadBlocks b).length) :
    (loadBlocks b)[j] = blockAt b j := by
  simp [loadBlocks, chunks8, blockAt]

@[simp] theorem chunks8_nil : chunks8 [] = [] := rfl

/-- A string of 1 to 8 bytes is one chunk. -/
theorem chunks8_single (b : List Byte) (h : 0 < b.length) (h8 : b.length ≤ 8) : chunks8 b = [b] := by
  have e : (b.length + 7) / 8 = 1 := by omega
  simp [chunks8, e, List.range_succ, List.take_of_length_le h8]

/-- The first eight bytes are the first chunk. -/
theorem chunks8_append (a b : List Byte) (h : a.length = 8) : chunks8 (a ++ b) = a :: chunks8 b := by
  apply List.ext_getElem
  · simp [h]; omega
  · intro j h1 h2
    cases j with
    | zero =>
      rw [chunks8_getElem, List.getElem_cons_zero]
      simp [← h]
    | succ j =>
      rw [chunks8_getElem, List.getElem_cons_succ, chunks8_getElem, show 8 * (j + 1) = a.length + 8 * j by omega,
        List.drop_append, List.drop_of_length_le (by omega)]
      simp

/-- Induction over a byte string by chunks: the empty string, a string of 1 to 8 bytes, and eight bytes before a string. -/
theorem chunk_induction {P : List Byte → Prop} (nil : P []) (last : ∀ b, 0 < b.length → b.length < 8 → P b)
    (step : ∀ a b, a.length = 8 → P b → P (a ++ b)) (b : List Byte) : P b := by
  have key : ∀ n (b : List Byte), b.length ≤ n → P b := by
    intro n
    induction n with
    | zero => intro b h; rw [List.length_eq_zero_iff.1 (Nat.le_zero.1 h)]; exact nil
    | succ n ih =>
      intro b h
      by_cases h0 : b.length = 0
      · rw [List.length_eq_zero_iff.1 h0]; exact nil
      by_cases h8 : b.length < 8
      · exact last b (by omega) h8
      · rw [← List.take_append_drop 8 b]
        exact step _ _ (by simp; omega) (ih _ (by simp; omega))
  exact key _ b le_rfl

/-- The chunks of a byte string join to the string. -/
theorem chunks8_flatten (b : List Byte) : (chunks8 b).flatten = b := by
  induction b using chunk_induction with
  | nil => rfl
  | last b h0 h8 => simp [chunks8_single b h0 (by omega)]
  | step a b h ih => simp [chunks8_append a b h, ih]

@[simp] theorem storeBlocks_nil : storeBlocks [] = [] := rfl

@[simp] theorem storeBlocks_cons (x : Block) (xs : List Block) : storeBlocks (x :: xs) = unbe 8 x ++ storeBlocks xs := rfl

@[simp] theorem storeBlocks_length (xs : List Block) : (storeBlocks xs).length = 8 * xs.length := by
  induction xs with
  | nil => rfl
  | cons x xs ih => simp [ih]; omega

/-- Loading stored blocks gives them back. -/
theorem loadBlocks_storeBlocks (xs : List Block) : loadBlocks (storeBlocks xs) = xs := by
  induction xs with
  | nil => rfl
  | cons x xs ih =>
    rw [storeBlocks_cons, loadBlocks, chunks8_append _ _ (by simp), List.map_cons, be_unbe 8 x rfl]
    exact congrArg _ ih

/-- Storing the blocks of a string of whole blocks gives the string back. -/
theorem storeBlocks_loadBlocks (b : List Byte) (h : b.length % 8 = 0) : storeBlocks (loadBlocks b) = b := by
  revert h
  induction b using chunk_induction with
  | nil => intro _; rfl
  | last b h0 h8 => intro h; omega
  | step a b ha ih =>
    intro h
    rw [loadBlocks, chunks8_append a b ha, List.map_cons, storeBlocks_cons, unbe_be 8 64 a ha (by omega)]
    rw [show storeBlocks (List.map (be 64) (chunks8 b)) = b from ih (by simpa [ha] using h)]

/-- The bytes of block j of a stored list. -/
theorem storeBlocks_slice (xs : List Block) (j : Nat) (h : j < xs.length) :
    ((storeBlocks xs).drop (8 * j)).take 8 = unbe 8 xs[j] := by
  have hl : (storeBlocks xs).length % 8 = 0 := by simp
  have e := chunks8_getElem (storeBlocks xs) j (by simp; omega)
  have e2 : be 64 ((storeBlocks xs).drop (8 * j) |>.take 8) = xs[j] := by
    have := loadBlocks_getElem (storeBlocks xs) j (by simp; omega)
    simpa [loadBlocks_storeBlocks, blockAt] using this.symm
  rw [← e2, unbe_be 8 64 _ (by simp; omega) (by omega)]

/-- Block j of a stored list (rule R76). -/
theorem blockAt_storeBlocks (xs : List Block) (j : Nat) (h : j < xs.length) : blockAt (storeBlocks xs) j = xs[j] := by
  rw [blockAt, storeBlocks_slice xs j h, be_unbe 8 _ rfl]

/-! ### Padding -/

theorem padCount_pos (n : Nat) : 1 ≤ padCount n := by unfold padCount; omega

theorem padCount_le (n : Nat) : padCount n ≤ 8 := by unfold padCount; omega

@[simp] theorem pad_length (m : List Byte) : (pad m).length = m.length + padCount m.length := by simp [pad]

theorem pad_length_mod (m : List Byte) : (m.length + padCount m.length) % 8 = 0 := by unfold padCount; omega

/-- Removing padding never lengthens. -/
theorem unpad_length (q m : List Byte) (h : unpad q = some m) : m.length ≤ q.length := by
  unfold unpad at h
  simp only at h
  split_ifs at h
  rw [← Option.some.inj h]
  simp

/-! ### The runs of the modes -/

@[simp] theorem cbcEncrypt_length (e : Block → Block) (iv : Block) (ps : List Block) :
    (cbcEncrypt e iv ps).1.length = ps.length := by
  induction ps generalizing iv with
  | nil => rfl
  | cons p ps ih => simp [cbcEncrypt, ih]

@[simp] theorem cbcDecrypt_length (d : Block → Block) (iv : Block) (cs : List Block) :
    (cbcDecrypt d iv cs).1.length = cs.length := by
  induction cs generalizing iv with
  | nil => rfl
  | cons c cs ih => simp [cbcDecrypt, ih]

/-- The chain from one block on. -/
theorem cbcChain_shift (e : Block → Block) (iv : Block) (p : Nat → Block) (j : Nat) :
    cbcChain e (e (p 0 ^^^ iv)) (fun k => p (k + 1)) j = cbcChain e iv p (j + 1) := by
  induction j with
  | zero => rfl
  | succ j ih => exact congrArg (fun x => e (p (j + 1) ^^^ x)) ih

/-- Block j of a CBC encryption is the chaining value after it (rule R127). -/
theorem cbcEncrypt_getElem (e : Block → Block) (iv : Block) (ps : List Block) (p : Nat → Block)
    (hp : ∀ j (h : j < ps.length), ps[j] = p j) (j : Nat) (h : j < (cbcEncrypt e iv ps).1.length) :
    (cbcEncrypt e iv ps).1[j] = cbcChain e iv p (j + 1) := by
  induction ps generalizing iv p j with
  | nil => simp [cbcEncrypt] at h
  | cons a ps ih =>
    have h0 : a = p 0 := hp 0 (by simp)
    subst h0
    cases j with
    | zero => rfl
    | succ j =>
      have := ih (e (p 0 ^^^ iv)) (fun k => p (k + 1)) (fun j h => hp (j + 1) (Nat.succ_lt_succ h)) j
        (by simpa [cbcEncrypt] using h)
      rw [cbcChain_shift] at this
      simpa [cbcEncrypt] using this

/-- The chaining value a CBC encryption leaves (rule R127). -/
theorem cbcEncrypt_snd (e : Block → Block) (iv : Block) (ps : List Block) (p : Nat → Block)
    (hp : ∀ j (h : j < ps.length), ps[j] = p j) : (cbcEncrypt e iv ps).2 = cbcChain e iv p ps.length := by
  induction ps generalizing iv p with
  | nil => rfl
  | cons a ps ih =>
    have h0 : a = p 0 := hp 0 (by simp)
    subst h0
    rw [cbcEncrypt, List.length_cons, ← cbcChain_shift]
    exact ih _ (fun k => p (k + 1)) (fun j h => hp (j + 1) (Nat.succ_lt_succ h))

/-- Block j of a CBC decryption (rule R127). -/
theorem cbcDecrypt_getElem (d : Block → Block) (iv : Block) (cs : List Block) (c : Nat → Block)
    (hc : ∀ j (h : j < cs.length), cs[j] = c j) (j : Nat) (h : j < (cbcDecrypt d iv cs).1.length) :
    (cbcDecrypt d iv cs).1[j] = d (c j) ^^^ cbcPrevious iv c j := by
  induction cs generalizing iv c j with
  | nil => simp [cbcDecrypt] at h
  | cons a cs ih =>
    have h0 : a = c 0 := hc 0 (by simp)
    subst h0
    cases j with
    | zero => rfl
    | succ j =>
      have := ih (c 0) (fun k => c (k + 1)) (fun j h => hc (j + 1) (Nat.succ_lt_succ h)) j
        (by simpa [cbcDecrypt] using h)
      cases j <;> simpa [cbcDecrypt, cbcPrevious] using this

/-- The chaining value a CBC decryption leaves: the last ciphertext block (rule R127). -/
theorem cbcDecrypt_snd (d : Block → Block) (iv : Block) (cs : List Block) : (cbcDecrypt d iv cs).2 = cs.getLastD iv := by
  induction cs generalizing iv with
  | nil => rfl
  | cons c cs ih => rw [cbcDecrypt, ih]; cases cs <;> rfl

/-- CBC decryption undoes CBC encryption from the same chaining value. -/
theorem cbcDecrypt_cbcEncrypt (e d : Block → Block) (hde : ∀ x, d (e x) = x) (iv : Block) (ps : List Block) :
    (cbcDecrypt d iv (cbcEncrypt e iv ps).1).1 = ps := by
  induction ps generalizing iv with
  | nil => rfl
  | cons p ps ih =>
    simp only [cbcEncrypt, cbcDecrypt, hde]
    rw [ih, BitVec.xor_assoc, BitVec.xor_self, BitVec.xor_zero]

/-- The top bytes of a block, as many as a chunk has. -/
theorem top_length (k : Nat) (v : Block) : (top k v).length = min k 8 := by simp [top]

@[simp] theorem xorBytes_length (a b : List Byte) : (xorBytes a b).length = min a.length b.length := by simp [xorBytes]

/-- OFB gives as many bytes as it is given. -/
theorem ofbRun_length (e : Block → Block) (iv : Block) (b : List Byte) : (ofbRun e iv (chunks8 b)).1.length = b.length := by
  induction b using chunk_induction generalizing iv with
  | nil => rfl
  | last b h0 h8 => simp [chunks8_single b h0 (by omega), ofbRun, top_length]; omega
  | step a b h ih => simp [chunks8_append a b h, ofbRun, top_length, h, ih]

/-- The keystream from one block on. -/
theorem ofbChain_shift (e : Block → Block) (iv : Block) (j : Nat) : ofbChain e (e iv) j = ofbChain e iv (j + 1) := by
  induction j with
  | zero => rfl
  | succ j ih => exact congrArg e ih

/-- The chaining value an OFB run leaves (rules R128 and R129). -/
theorem ofbRun_snd (e : Block → Block) (iv : Block) (xs : List (List Byte)) : (ofbRun e iv xs).2 = ofbChain e iv xs.length := by
  induction xs generalizing iv with
  | nil => rfl
  | cons x xs ih => rw [ofbRun, List.length_cons, ← ofbChain_shift]; exact ih _

/-- Byte k of a chunk XORed with the keystream. -/
theorem xorTop_getD (b : List Byte) (v : Block) (k : Nat) (h : k < b.length) (h8 : b.length ≤ 8) :
    (xorBytes b (top b.length v)).getD k 0 = b.getD k 0 ^^^ v.extractLsb' (8 * (7 - k)) 8 := by
  have hk : k < 8 := by omega
  have e := unbe_getD 8 v k hk
  rw [List.getD_eq_getElem?_getD] at e
  simp [xorBytes, top, List.getD_eq_getElem?_getD, h, unbe, hk]

/-- Byte k of an OFB run (rules R128 and R129). -/
theorem ofbRun_getD (e : Block → Block) (iv : Block) (b : List Byte) (k : Nat) (h : k < b.length) :
    (ofbRun e iv (chunks8 b)).1.getD k 0 =
      b.getD k 0 ^^^ (ofbChain e iv (k / 8 + 1)).extractLsb' (8 * (7 - k % 8)) 8 := by
  induction b using chunk_induction generalizing iv k with
  | nil => simp at h
  | last b h0 h8 =>
    have hk : k / 8 = 0 := by omega
    rw [chunks8_single b h0 (by omega), ofbRun, ofbRun, List.append_nil, xorTop_getD b _ k h (by omega), hk,
      Nat.mod_eq_of_lt (by omega)]
    rfl
  | step a b ha ih =>
    rw [chunks8_append a b ha, ofbRun]
    have hl : (xorBytes a (top a.length (e iv))).length = 8 := by simp [top_length, ha]
    by_cases hk : k < 8
    · rw [List.getD_append _ _ _ _ (by omega), List.getD_append _ _ _ _ (by omega),
        xorTop_getD a _ k (by omega) (by omega), show k / 8 = 0 by omega, Nat.mod_eq_of_lt hk]
      rfl
    · rw [List.getD_append_right _ _ _ _ (by omega), List.getD_append_right _ _ _ _ (by omega), hl, ha,
        ih (e iv) (k - 8) (by simp [ha] at h; omega), ofbChain_shift, show (k - 8) / 8 + 1 = k / 8 by omega,
        show (k - 8) % 8 = k % 8 by omega]

/-- OFB undoes itself from the same chaining value. -/
theorem ofbRun_ofbRun (e : Block → Block) (iv : Block) (b : List Byte) :
    (ofbRun e iv (chunks8 (ofbRun e iv (chunks8 b)).1)).1 = b := by
  apply List.ext_getElem (by rw [ofbRun_length, ofbRun_length])
  intro k h1 h2
  have e1 := ofbRun_getD e iv (ofbRun e iv (chunks8 b)).1 k (by rw [ofbRun_length]; exact h2)
  rw [ofbRun_getD e iv b k h2, BitVec.xor_assoc, BitVec.xor_self, BitVec.xor_zero] at e1
  rwa [List.getD_eq_getElem _ _ h1, List.getD_eq_getElem _ _ h2] at e1

/-! ### The lengths of what the commands write -/

/-- ENCRYPT never writes more than n + 8 bytes. -/
theorem encryptBytes_length_le (s : State) (m : List Byte) : (s.encryptBytes m).1.length ≤ m.length + 8 := by
  have h1 := padCount_le m.length
  have h2 := pad_length_mod m
  unfold State.encryptBytes
  split
  · simp; omega
  · simp; omega
  · rw [ofbRun_length]; omega

/-- DECRYPT's bytes Q are as many as the ciphertext, of whole blocks or in OFB. -/
theorem decryptBytes_length (s : State) (c : List Byte) (h : s.aMode = .ofb ∨ c.length % 8 = 0) :
    (s.decryptBytes c).1.length = c.length := by
  unfold State.decryptBytes
  split
  · rename_i hm; simp [hm] at h; simp; omega
  · rename_i hm; simp [hm] at h; simp; omega
  · rw [ofbRun_length]

/-- Block j of what a command wrote to OUT. -/
theorem outBlock_complete (op : BitVec 4) (code : ErrCode) (out : List Byte) (s : State) (j : Nat)
    (h : 8 * j + 8 ≤ out.length) : (complete op code out s).outBlock j = some (blockAt out j) := by
  rw [State.outBlock, complete_outBuf, Memory.readBytes_ofBytes _ _ _ h]
  rfl

/-- A key has 16 subkeys (rule R91). -/
theorem ks_length (k : Block) : (ks k).length = 16 := by simp [ks, rotations, shiftCounts]

/-- KSREAD writes 96 bytes (rule R144). -/
theorem scheduleBytes_length (k : Block) : (scheduleBytes k).length = 96 := by
  have hl := ks_length k
  have : ∀ l : List Subkey, (l.flatMap (unbe 6)).length = 6 * l.length := by
    intro l
    induction l with
    | nil => rfl
    | cons x l ih => simp [ih]; omega
  rw [scheduleBytes, this, hl]

end Sys2Proof.Machine
end

