-- ==== Sys2Proof/Laws/Encoding.lean ====
section
/-! SUPPORT. The fields of the command word: what an encoded word holds, and that its four bytes join to it. -/

namespace Sys2Proof

/-- Field OP of an encoded command. -/
@[simp] theorem opField_encodeWord (i : Instr) : opField (encodeWord i) = opcode i := by
  apply BitVec.eq_of_getLsbD_eq
  intro j hj
  simp only [opField, encodeWord, BitVec.getLsbD_extractLsb', BitVec.getLsbD_append]
  simp [hj]

/-- Field KSEL of an encoded command. -/
@[simp] theorem kselField_encodeWord (i : Instr) : kselField (encodeWord i) = kselOf i := by
  apply BitVec.eq_of_getLsbD_eq
  intro j hj
  simp only [kselField, encodeWord, BitVec.getLsbD_extractLsb', BitVec.getLsbD_append]
  simp [hj]

/-- The four bytes of a word, the first in bits 31:24, join to the word (rule R35). -/
theorem bytes_join (w : Word) :
    w.extractLsb' 24 8 ++ w.extractLsb' 16 8 ++ w.extractLsb' 8 8 ++ w.extractLsb' 0 8 = w := by
  apply BitVec.eq_of_getLsbD_eq
  intro j hj
  simp only [BitVec.getLsbD_append, BitVec.getLsbD_extractLsb']
  by_cases h1 : j < 8
  · simp [h1]
  by_cases h2 : j < 16
  · simp [h1, show j - 8 < 8 by omega, show 8 + (j - 8) = j by omega]
  by_cases h3 : j < 24
  · simp [h1, show ¬ j - 8 < 8 by omega, show j - 8 - 8 < 8 by omega, show 16 + (j - 8 - 8) = j by omega]
  · simp [h1, show ¬ j - 8 < 8 by omega, show ¬ j - 8 - 8 < 8 by omega, show j - 8 - 8 - 8 < 8 by omega,
      show 24 + (j - 8 - 8 - 8) = j by omega]

/-- Decoding the bytes of a word decodes the word, with the rest of the string. -/
theorem decode_wordBytes (w : Word) (rest : List Byte) : decode (wordBytes w ++ rest) = .ok (decodeWord w, rest) := by
  simp only [wordBytes, List.cons_append, List.nil_append, decode, bytes_join]

/-- Field OP as a mask of the word. -/
theorem and_op (w : Word) : w &&& 0xF = (opField w).setWidth 32 := by
  apply BitVec.eq_of_getLsbD_eq
  intro i hi
  simp only [opField, BitVec.getLsbD_and, BitVec.getLsbD_setWidth, BitVec.getLsbD_extractLsb']
  interval_cases i <;> simp

/-- Fields OP and KSEL as a mask of the word. -/
theorem and_op_ksel (w : Word) : w &&& 0x3F = (kselField w ++ opField w).setWidth 32 := by
  apply BitVec.eq_of_getLsbD_eq
  intro i hi
  simp only [opField, kselField, BitVec.getLsbD_and, BitVec.getLsbD_setWidth, BitVec.getLsbD_extractLsb',
    BitVec.getLsbD_append]
  interval_cases i <;> simp

/-- Two words with equal masks have equal fields OP. -/
theorem opField_of_and (w v : Word) (h : w &&& 0xF = v &&& 0xF) : opField w = opField v := by
  rw [and_op, and_op] at h
  have := congrArg (BitVec.setWidth 4) h
  rwa [BitVec.setWidth_setWidth_of_le _ (by omega), BitVec.setWidth_setWidth_of_le _ (by omega), BitVec.setWidth_eq,
    BitVec.setWidth_eq] at this

end Sys2Proof
end

