-- ==== Sys2Proof/Laws/Step.lean ====
section
/-! SUPPORT. What the host's accesses, the engine's turn and a step can answer. -/

namespace Sys2Proof.Machine

/-- A bus address inside the window names its offset (rule R38). -/
theorem windowOffset_base (c : Config) (off : Nat) (h : off < 0x10000) : windowOffset c (c.base + off) = some off := by
  have e : c.base + off - c.base = off := by omega
  rw [windowOffset, if_pos ⟨by omega, by omega⟩, e]

/-- A step that takes an event while the reset input is released. -/
theorem step_event (s : State) (e : BusEvent) (rest : List BusEvent) (hl : s.resetLine = false) (h : s.bus = e :: rest) :
    step s = takeEvent e { s with bus := rest } := by
  rw [step, nextMove, h]
  show nextEvent _ _ = _
  rw [nextEvent, if_neg (by simp [hl])]

/-- A step that takes an access of the host. -/
theorem step_host (s : State) (a : Access) (rest : List BusEvent) (hl : s.resetLine = false) (h : s.bus = .host a :: rest) :
    step s = hostAccess a { s with bus := rest } := step_event s _ rest hl h

/-- A step on the engine's turn. -/
theorem step_engine (s : State) (rest : List BusEvent) (hl : s.resetLine = false) (h : s.bus = .engine :: rest) :
    step s = engineTurn { s with bus := rest } := step_event s _ rest hl h

/-- A step with nothing pending is the engine's turn. -/
theorem step_nil (s : State) (hl : s.resetLine = false) (h : s.bus = []) : step s = engineTurn s := by
  rw [step, nextMove, h]
  show nextEvent _ _ = _
  rw [nextEvent, if_neg (by simp [hl])]
  rfl

/-- The step that takes a host read of the window. -/
theorem step_hostReads (s : State) (off : Nat) (w : AccessWidth) (h : off < 0x10000)
    (hl : s.resetLine = false) : step (s.hostReads off w) = .next (hostRead off w s) := by
  refine (step_host (s.hostReads off w) _ s.bus hl rfl).trans ?_
  show hostAccess (.read (s.cfg.base + off) w) s = _
  rw [hostAccess, Access.addr, windowOffset_base s.cfg off h]

/-- The step that takes a host write of the window. -/
theorem step_hostWrites (s : State) (off : Nat) (w : AccessWidth) (d : Word) (h : off < 0x10000)
    (hl : s.resetLine = false) : step (s.hostWrites off w d) = hostWrite off w d s := by
  refine (step_host (s.hostWrites off w d) _ s.bus hl rfl).trans ?_
  show hostAccess (.write (s.cfg.base + off) w d) s = _
  rw [hostAccess, Access.addr, windowOffset_base s.cfg off h]

/-- An offset of the IN window is in its region (rule R38). -/
theorem regionOf_in (c : Config) (k : Nat) (h : k < c.bufBytes) : regionOf c (0x4000 + k) = .inBuf := by
  rw [regionOf, if_neg (by omega), if_neg (by omega), if_pos (by omega)]

/-- An offset of the OUT window is in its region (rule R38). -/
theorem regionOf_out (c : Config) (k : Nat) (hw : c.wf) (h : k < c.outBytes) : regionOf c (0x8000 + k) = .outBuf := by
  have := hw.2.2
  rw [regionOf, if_neg (by omega), if_neg (by omega), if_neg (by omega), if_neg (by omega), if_pos (by omega)]

/-- The step that takes a 4-byte read of a register. -/
theorem step_readReg (s : State) (off : Nat) (r : Reg) (ho : off < 0x48) (h4 : off % 4 = 0) (hr : regAt off = some r)
    (hl : s.resetLine = false) :
    step (s.hostReads off .word) = .next { s with answer := some (s.readReg r), draws := s.draws + 1 } := by
  have hreg : regionOf s.cfg off = .registers := by simp [regionOf, ho]
  rw [step_hostReads _ _ _ (by omega) hl, hostRead, if_pos (by simp [taken, hreg, Region.takes, AccessWidth.bytes, h4]),
    State.readData, hreg]
  simp only [hr]

/-- The step that takes a 4-byte write of a register. -/
theorem step_writeReg (s : State) (off : Nat) (r : Reg) (d : Word) (ho : off < 0x48) (h4 : off % 4 = 0)
    (hr : regAt off = some r) (hl : s.resetLine = false) :
    step (s.hostWrites off .word d) = .next (writeReg r d s.noteWrite) := by
  have hreg : regionOf s.cfg off = .registers := by simp [regionOf, ho]
  have hreg' : regionOf s.noteWrite.cfg off = .registers := hreg
  rw [step_hostWrites _ _ _ _ (by omega) hl, hostWrite, if_pos (by simp [taken, hreg, Region.takes, AccessWidth.bytes, h4]),
    takenWrite, hreg']
  simp only [hr]

/-- The turn of a busy engine is the meaning of its command. -/
theorem engineTurn_running (s : State) (r : Command) (h : s.running = some r) :
    engineTurn s = exec (decodeFields r.op r.ksel) s := by
  rw [engineTurn, h]
  rfl

/-- The turn of an idle engine changes nothing. -/
theorem engineTurn_idle (s : State) (h : s.running = none) : engineTurn s = .next s := by rw [engineTurn, h]

/-- The turn of the engine leaves it idle, the pending events as they are and the reset input at its level. -/
theorem engineTurn_leaves_idle (s t : State) (h : engineTurn s = .next t) :
    t.running = none ∧ t.bus = s.bus ∧ t.resetLine = s.resetLine := by
  cases hr : s.running with
  | none =>
    rw [engineTurn_idle s hr] at h
    rw [← Host.Outcome.next.inj h]
    exact ⟨hr, rfl, rfl⟩
  | some r =>
    rw [engineTurn_running s r hr] at h
    obtain ⟨c, out, u, ht, hu⟩ := exec_completes _ s t h
    refine ⟨by rw [ht]; rfl, ?_⟩
    rcases hu with hu | ⟨v, hu, _⟩ | ⟨m, _, hu, _⟩ <;> rw [ht, hu] <;> exact ⟨rfl, rfl⟩

/-- The turn of the engine is never refused. -/
theorem engineTurn_not_refused (s : State) (r : Refusal) : engineTurn s ≠ .refused r := by
  cases hr : s.running with
  | none => rw [engineTurn_idle s hr]; intro h; cases h
  | some c => rw [engineTurn_running s c hr]; exact exec_not_refused _ s r

/-- A write the block takes: ignored, one register, the bytes of IN, or a race with a busy ENCRYPT or DECRYPT. -/
theorem takenWrite_cases (off : Nat) (w : AccessWidth) (d : Word) (s : State) :
    takenWrite off w d s = .next s ∨ (∃ r, takenWrite off w d s = .next (writeReg r d s)) ∨
    (regionOf s.cfg off = .inBuf ∧ takenWrite off w d s =
      .next { s with inBuf := Memory.writeBytes s.inBuf (off - 0x4000) (laneBytes w d) }) ∨
    takenWrite off w d s = .fault .hostRaceOnIN := by
  unfold takenWrite
  split
  · split
    · exact .inr (.inl ⟨_, rfl⟩)
    · exact .inl rfl
  · rename_i hr
    unfold writeIn
    split_ifs
    · exact .inr (.inr (.inr rfl))
    · exact .inr (.inr (.inl ⟨hr, rfl⟩))
  all_goals exact .inl rfl

/-- What an access that answers a next state leaves alone: everything but the staging registers, IN, the sticky flags, DONE, the
command in progress, and the model's own answer and draw counter. -/
theorem hostAccess_frame (a : Access) (s t : State) (h : hostAccess a s = .next t) :
    t.cfg = s.cfg ∧ t.configured = s.configured ∧ t.aMode = s.aMode ∧ t.aAlg = s.aAlg ∧ t.aK0 = s.aK0 ∧ t.aK1 = s.aK1 ∧
    t.aK2 = s.aK2 ∧ t.ivInit = s.ivInit ∧ t.ivChain = s.ivChain ∧ t.err = s.err ∧ t.lastop = s.lastop ∧
    t.outlen = s.outlen ∧ t.outBuf = s.outBuf ∧ t.bus = s.bus ∧
    t.resetLine = s.resetLine ∧ (∀ r, s.running = some r → t.running = some r) := by
  unfold hostAccess at h
  split at h
  · rw [← Host.Outcome.next.inj h]; simp
  · split at h
    · rw [← Host.Outcome.next.inj h, hostRead]
      split_ifs <;> simp
    · unfold hostWrite at h
      split_ifs at h
      · rcases takenWrite_cases _ _ _ s.noteWrite with e | ⟨r, e⟩ | ⟨_, e⟩ | e <;> rw [e] at h
        · rw [← Host.Outcome.next.inj h]; simp
        · rw [← Host.Outcome.next.inj h]
          cases r <;> simp [writeReg, writeCmd]
          split_ifs with hb
          · simp
          · simp [State.busy] at hb; simp [hb]
        · rw [← Host.Outcome.next.inj h]; simp
        · cases h
      · rw [← Host.Outcome.next.inj h]; simp

/-- An access is never refused. -/
theorem hostAccess_not_refused (a : Access) (s : State) (r : Refusal) : hostAccess a s ≠ .refused r := by
  intro h
  unfold hostAccess at h
  split at h
  · cases h
  · split at h
    · cases h
    · unfold hostWrite at h
      split_ifs at h
      rcases takenWrite_cases _ _ _ s.noteWrite with e | ⟨r, e⟩ | ⟨_, e⟩ | e <;> rw [e] at h <;> cases h

/-- An access while the reset input is asserted answers a next state: the held block, with the answer of the reset values. -/
theorem heldAccess_eq (a : Access) (s : State) :
    ∃ u, hostAccess a (holdReset s) = .next u ∧ heldAccess a s = .next (holdReset u) ∧ u.cfg = s.cfg ∧ u.bus = s.bus := by
  cases h : hostAccess a (holdReset s) with
  | next u =>
    have f := hostAccess_frame a _ u h
    exact ⟨u, rfl, by rw [heldAccess, h]; rfl, f.1, f.2.2.2.2.2.2.2.2.2.2.2.2.2.1⟩
  | refused r => exact absurd h (hostAccess_not_refused a _ r)
  | fault e =>
    exfalso
    unfold hostAccess at h
    split at h
    · cases h
    · split at h
      · cases h
      · unfold hostWrite at h
        split_ifs at h
        unfold takenWrite at h
        split at h
        · split at h <;> cases h
        · cases h
        all_goals cases h

/-- A step while the reset input is asserted leaves the block held, unless it releases the input. -/
theorem step_held (s : State) (hl : s.resetLine = true) (hb : s.bus.head? ≠ some (.reset false)) :
    ∃ t, step s = .next t ∧
      t = { State.resetWith s.cfg with resetLine := true, bus := s.bus.tail, answer := t.answer, draws := t.draws } := by
  have held (e : BusEvent) (u : State) (hu : u.resetLine = true) (he : e ≠ .reset false) : ∃ t, nextEvent e u = .next t ∧
      t = { State.resetWith u.cfg with resetLine := true, bus := u.bus, answer := t.answer, draws := t.draws } := by
    have access (a : Access) : ∃ t, heldAccess a u = .next t ∧
        t = { State.resetWith u.cfg with resetLine := true, bus := u.bus, answer := t.answer, draws := t.draws } := by
      obtain ⟨v, -, h2, h3, h4⟩ := heldAccess_eq a u
      exact ⟨_, h2, by rw [holdReset, h3, h4]⟩
    rw [nextEvent, if_pos hu]
    cases e with
    | host a => exact access a
    | engine => exact ⟨_, rfl, rfl⟩
    | together a => exact access a
    | reset level =>
      cases level with
      | true => exact ⟨_, rfl, rfl⟩
      | false => exact absurd rfl he
  rw [step, nextMove]
  cases h : s.bus with
  | nil => simpa [h] using held .engine s hl (by simp)
  | cons e rest => exact held e { s with bus := rest } hl fun he => hb (by rw [h, he]; rfl)

/-- Two moves in a row. -/
theorem andThen_eq_next (r : Result) (f : State → Result) (t : State) :
    andThen r f = .next t ↔ ∃ u, r = .next u ∧ f u = .next t := by
  cases r <;> simp [andThen]

/-- An access that is a CMD write, by its form (rule R153). -/
theorem isCmdWrite_iff (c : Config) (a : Access) :
    isCmdWrite c a = true ↔ ∃ d, a = .write (c.base + 0x008) .word d := by
  cases a with
  | read addr w => simp [isCmdWrite]
  | write addr w d =>
    simp only [isCmdWrite, windowOffset, Bool.and_eq_true, beq_iff_eq, Access.write.injEq]
    constructor
    · rintro ⟨rfl, h⟩
      split_ifs at h with hr
      exact ⟨d, by have := Option.some.inj h; omega, rfl, rfl⟩
    · rintro ⟨_, rfl, rfl, _⟩
      simp

/-- Both agents at one instant: the completion and then a CMD write, or another access and then the completion. -/
theorem togetherTurn_cases (a : Access) (s t : State) (h : togetherTurn a s = .next t) :
    (isCmdWrite s.cfg a = true ∧ ∃ u, engineTurn s = .next u ∧ hostAccess a u = .next t) ∨
    (isCmdWrite s.cfg a = false ∧ ∃ u, hostAccess a s = .next u ∧ engineTurn u = .next t) := by
  rw [togetherTurn] at h
  split_ifs at h with hc
  · exact .inl ⟨hc, (andThen_eq_next _ _ _).1 h⟩
  · exact .inr ⟨by simpa using hc, (andThen_eq_next _ _ _).1 h⟩

/-- What a step can do while the reset input is released. -/
theorem step_cases_released (s t : State) (hl : s.resetLine = false) (h : step s = .next t) :
    (s.bus = [] ∧ engineTurn s = .next t) ∨
    ∃ rest, (s.bus = .engine :: rest ∧ engineTurn { s with bus := rest } = .next t) ∨
      (∃ a, s.bus = .host a :: rest ∧ hostAccess a { s with bus := rest } = .next t) ∨
      (∃ a, s.bus = .together a :: rest ∧ togetherTurn a { s with bus := rest } = .next t) ∨
      (s.bus = .reset true :: rest ∧
        t = { State.resetWith s.cfg with resetLine := true, bus := rest, draws := s.draws + 1 }) ∨
      (s.bus = .reset false :: rest ∧ t = { s with bus := rest }) := by
  cases hb : s.bus with
  | nil => exact .inl ⟨rfl, by rwa [step_nil s hl hb] at h⟩
  | cons e rest =>
    rw [step_event s e rest hl hb] at h
    refine .inr ⟨rest, ?_⟩
    cases e with
    | engine => exact .inl ⟨rfl, h⟩
    | host a => exact .inr (.inl ⟨a, rfl, h⟩)
    | together a => exact .inr (.inr (.inl ⟨a, rfl, h⟩))
    | reset level =>
      cases level with
      | true => exact .inr (.inr (.inr (.inl ⟨rfl, (Host.Outcome.next.inj h).symm⟩)))
      | false =>
        exact .inr (.inr (.inr (.inr ⟨rfl,
          (Host.Outcome.next.inj h).symm.trans (setResetLine_false_of_released { s with bus := rest } hl)⟩)))

/-- What a step can do while the reset input is asserted: the block stays at its reset values, and the input may be released. -/
theorem step_cases_held (s t : State) (hl : s.resetLine = true) (h : step s = .next t) :
    ∃ level answer draws, t =
      { State.resetWith s.cfg with resetLine := level, bus := s.bus.tail, answer := answer, draws := draws } := by
  by_cases hb : s.bus.head? = some (.reset false)
  · cases hs : s.bus with
    | nil => simp [hs] at hb
    | cons e rest =>
      obtain rfl : e = .reset false := by simpa [hs] using hb
      rw [step, nextMove, hs] at h
      change nextEvent _ _ = _ at h
      rw [nextEvent, if_pos hl] at h
      exact ⟨false, none, s.draws + 1,
        (Host.Outcome.next.inj h).symm.trans (setResetLine_false_of_held { s with bus := rest } hl)⟩
  · obtain ⟨u, hu, e⟩ := step_held s hl hb
    obtain rfl : u = t := Host.Outcome.next.inj (hu.symm.trans h)
    exact ⟨true, u.answer, u.draws, e⟩

/-- Accepting a command and running it at once is running it: nothing is lost between them (rules R137 and R140). -/
theorem exec_accept (s : State) (w : Word) (h : s.running = none) :
    exec (decodeWord w) (s.accept w) = exec (decodeWord w) s := by
  have hl : (s.accept w).sampledLen = s.sampledLen := by simp [h]
  have hm : (s.accept w).message = s.message := by simp [State.message, hl]
  have key : ∀ i : Instr, (i = .init → (s.accept w).sampledInit = s.sampledInit) → exec i (s.accept w) = exec i s := by
    intro i hi
    have hc : ∀ op c out, complete op c out (s.accept w) = complete op c out s := fun _ _ _ => rfl
    have hv : ∀ op c out v, complete op c out { s.accept w with ivChain := v } = complete op c out { s with ivChain := v } :=
      fun _ _ _ _ => rfl
    cases i with
    | init =>
      have hi := hi rfl
      simp only [exec, execInit, hi]
      rfl
    | encrypt => simp only [exec, execEncrypt, raiseError, succeed, hl, hc, hv]; rfl
    | decrypt => simp only [exec, execDecrypt, raiseError, succeed, hl, hc, hv]; rfl
    | resetIv => rfl
    | ksread ksel => rfl
    | reserved0 => rfl
    | reserved6 => rfl
    | reserved7 => rfl
    | reserved8 => rfl
    | reserved9 => rfl
    | reservedA => rfl
    | reservedB => rfl
    | reservedC => rfl
    | reservedD => rfl
    | reservedE => rfl
    | reservedF => rfl
  refine key _ fun hi => ?_
  have hop : opField w = 0x1 := by
    have all : ∀ (op : BitVec 4) (k : BitVec 2), decodeFields op k = .init → op = 0x1 := by decide
    exact all _ _ hi
  rw [sampledInit_accept_init s w hop]
  simp [State.sampledInit, h]

end Sys2Proof.Machine
end

