-- ==== Sys2Proof/Laws/PerInstr.lean ====
section
/-! SUPPORT. A statement about every command as syntax: its two fields decode to it. One lemma per constructor. -/

namespace Sys2Proof.Laws.FieldsDecode

/-- The fields OP and KSEL of a well-formed command decode to the command (rules R55 and R70). -/
def Statement (i : Sys2Proof.Instr) : Prop :=
  Sys2Proof.WellFormed i → Sys2Proof.decodeFields (Sys2Proof.opcode i) (Sys2Proof.kselOf i) = i

theorem init : Statement .init := fun _ => rfl
theorem encrypt : Statement .encrypt := fun _ => rfl
theorem decrypt : Statement .decrypt := fun _ => rfl
theorem resetIv : Statement .resetIv := fun _ => rfl
theorem ksread (ksel : Nat) : Statement (.ksread ksel) := by
  intro h
  have h : ksel < 4 := h
  interval_cases ksel <;> rfl
theorem reserved0 : Statement .reserved0 := fun _ => rfl
theorem reserved6 : Statement .reserved6 := fun _ => rfl
theorem reserved7 : Statement .reserved7 := fun _ => rfl
theorem reserved8 : Statement .reserved8 := fun _ => rfl
theorem reserved9 : Statement .reserved9 := fun _ => rfl
theorem reservedA : Statement .reservedA := fun _ => rfl
theorem reservedB : Statement .reservedB := fun _ => rfl
theorem reservedC : Statement .reservedC := fun _ => rfl
theorem reservedD : Statement .reservedD := fun _ => rfl
theorem reservedE : Statement .reservedE := fun _ => rfl
theorem reservedF : Statement .reservedF := fun _ => rfl

end Sys2Proof.Laws.FieldsDecode
end

