-- ==== Sys2Proof/Tests/Slice0.lean ====
section
/-! SUPPORT. The model's own tests: the smoke test of WellFormed, words written out from the spec's encoding, known answers of
spec/95_test_vectors.md (each test names its section), and for every statement with hypotheses a witness that meets them. -/

namespace Sys2Proof.Tests

open Sys2Proof Sys2Proof.Machine

set_option Elab.async false

/-! ## Helpers -/

/-- Whether a result is a next state with a property. -/
def nextSat (r : Result) (p : State → Bool) : Bool :=
  match r with
  | .next t => p t
  | .fault _ => false
  | .refused _ => false

/-- The next state of a result, or `s` where there is none. -/
def nextOf (r : Result) (s : State) : State :=
  match r with
  | .next t => t
  | .fault _ => s
  | .refused _ => s

/-- Whether a result is a fault with a property. -/
def faultSat (r : Result) (p : Fault → Bool) : Bool :=
  match r with
  | .next _ => false
  | .fault e => p e
  | .refused _ => false

theorem eq_next (r : Result) (s : State) (h : nextSat r (fun _ => true) = true) : r = .next (nextOf r s) := by
  cases r with
  | next t => rfl
  | fault e => cases h
  | refused e => cases h

theorem eq_fault (r : Result) (e : Fault) (h : faultSat r (fun x => decide (x = e)) = true) : r = .fault e := by
  cases r with
  | next t => cases h
  | fault x => exact congrArg _ (of_decide_eq_true h)
  | refused x => cases h

/-- The key K of 95_test_vectors.md. -/
def keyK : Block := 0x133457799BBCDFF1

/-- The IV of 95_test_vectors.md. -/
def iv : Block := 0x1234567890ABCDEF

/-- "abc". -/
def abc : List Byte := [0x61, 0x62, 0x63]

/-- A block configured for single DES under K from the IV, with a message loaded. -/
def loaded (m : Mode) (msg : List Byte) : State :=
  { State.reset with
    configured := true, aMode := m, aK0 := keyK, ivInit := iv, ivChain := iv
    inBuf := Memory.ofBytes 0 msg, len := BitVec.ofNat 32 msg.length }

/-- A busy block: the command of word `w` accepted, with what was loaded. -/
def busyWith (w : Word) : State := (loaded .ecb abc).accept w

/-- The reset input is released in every state the helpers build. -/
theorem helpers_released (m : Mode) (msg : List Byte) (w : Word) :
    State.reset.resetLine = false ∧ (loaded m msg).resetLine = false ∧ ((loaded m msg).accept w).resetLine = false :=
  ⟨rfl, rfl, rfl⟩

/-! ## WellFormed: an ill-formed operand is refused -/

theorem test_wf_refuses_ksel_4 : ¬ WellFormed (.ksread 4) := by
  show ¬ (4 < 4)
  decide

theorem test_wf_takes_ksel_3 : WellFormed (.ksread 3) := by
  show 3 < 4
  decide

/-! ## Decoding: words written out from 30_encoding.md sections 1, 3 and 4 (OP in bits 3:0, KSEL in bits 5:4) -/

theorem test_decode_init : decode [0x00, 0x00, 0x00, 0b00000001] = .ok (.init, []) := rfl
theorem test_decode_encrypt : decode [0x00, 0x00, 0x00, 0b00000010] = .ok (.encrypt, []) := rfl
theorem test_decode_decrypt : decode [0x00, 0x00, 0x00, 0b00000011] = .ok (.decrypt, []) := rfl
theorem test_decode_resetIv : decode [0x00, 0x00, 0x00, 0b00000100] = .ok (.resetIv, []) := rfl
theorem test_decode_ksread_0 : decode [0x00, 0x00, 0x00, 0b00000101] = .ok (.ksread 0, []) := rfl
theorem test_decode_ksread_1 : decode [0x00, 0x00, 0x00, 0b00010101] = .ok (.ksread 1, []) := rfl
theorem test_decode_ksread_2 : decode [0x00, 0x00, 0x00, 0b00100101] = .ok (.ksread 2, []) := rfl
theorem test_decode_ksread_3 : decode [0x00, 0x00, 0x00, 0b00110101] = .ok (.ksread 3, []) := rfl
theorem test_decode_reserved0 : decode [0x00, 0x00, 0x00, 0b00000000] = .ok (.reserved0, []) := rfl
theorem test_decode_reserved6 : decode [0x00, 0x00, 0x00, 0b00000110] = .ok (.reserved6, []) := rfl
theorem test_decode_reserved7 : decode [0x00, 0x00, 0x00, 0b00000111] = .ok (.reserved7, []) := rfl
theorem test_decode_reserved8 : decode [0x00, 0x00, 0x00, 0b00001000] = .ok (.reserved8, []) := rfl
theorem test_decode_reserved9 : decode [0x00, 0x00, 0x00, 0b00001001] = .ok (.reserved9, []) := rfl
theorem test_decode_reservedA : decode [0x00, 0x00, 0x00, 0b00001010] = .ok (.reservedA, []) := rfl
theorem test_decode_reservedB : decode [0x00, 0x00, 0x00, 0b00001011] = .ok (.reservedB, []) := rfl
theorem test_decode_reservedC : decode [0x00, 0x00, 0x00, 0b00001100] = .ok (.reservedC, []) := rfl
theorem test_decode_reservedD : decode [0x00, 0x00, 0x00, 0b00001101] = .ok (.reservedD, []) := rfl
theorem test_decode_reservedE : decode [0x00, 0x00, 0x00, 0b00001110] = .ok (.reservedE, []) := rfl
theorem test_decode_reservedF : decode [0x00, 0x00, 0x00, 0b00001111] = .ok (.reservedF, []) := rfl

/-- Bits 31:6, and KSEL of a command other than KSREAD, are ignored (rule R73). -/
theorem test_decode_ignores_reserved_bits : decode [0xFF, 0xFF, 0xFF, 0b11110011] = .ok (.decrypt, []) := rfl

/-- The rest of the byte string is given back. -/
theorem test_decode_rest : decode [0x00, 0x00, 0x00, 0x01, 0xAA] = .ok (.init, [0xAA]) := rfl

/-- Fewer than four bytes hold no command. -/
theorem test_decode_truncated : decode [0x00, 0x00, 0x05] = .error .truncated := rfl

theorem test_encode_ksread : encode (.ksread 2) = [0x00, 0x00, 0x00, 0x25] := by decide

theorem test_table_word : decodeTableWord 32 0x15 = some (.ksread 1) ∧ decodeTableWord 40 0x15 = none := ⟨rfl, rfl⟩

/-- The first step after reset runs the placed command: ENCRYPT before any INIT, STATUS 0x2502 (section 7, Program 5 line 2). -/
theorem test_fetch_word_runs :
    nextSat (step (State.reset.withFetchWord 32 2)) (fun t => t.statusWord = 0x00002502) = true := by decide +kernel

/-! ## The datapath (sections 2 to 4) -/

theorem test_permute_reversal : permute 24 (List.range' 1 24).reverse (0xABCDEF : BitVec 24) = 0xF7B3D5 := by decide +kernel
theorem test_permute_rotate : permute 24 (List.range' 2 23 ++ [1]) (0xABCDEF : BitVec 24) = 0x579BDF := by decide +kernel
theorem test_ip : ip 0x0123456789ABCDEF = 0xCC00CCFFF0AAF0AA ∧ ip 1 = 0x0000008000000000 := by decide +kernel
theorem test_fp : fp 0x0123456789ABCDEF = 0xFF330FAA00330FAA := by decide +kernel
theorem test_expand : expand 0x80000000 = 0x400000000001 ∧ expand 1 = 0x800000000002 := by decide +kernel
theorem test_contract : contract 0x5C82B597 = 0x234AA9BB ∧ contract 1 = 0x00000800 := by decide +kernel
theorem test_rotl28 : rotl28 0xF0CCAAF 2 = 0xC332ABF ∧ rotl28 0xF0CCAAF 1 = 0xE19955F := by decide +kernel
theorem test_truncating_xor : xorBytes abc (top 3 0x0999BF92EB76BA0E) = [0x68, 0xFB, 0xDC] := by decide +kernel
theorem test_block_load : be 64 [0x4E, 0x6F, 0x77, 0x20, 0x69, 0x73, 0x20, 0x74] = 0x4E6F772069732074 := by decide +kernel
theorem test_block_store : unbe 8 (0x3FA40E8A984D4815 : Block) = [0x3F, 0xA4, 0x0E, 0x8A, 0x98, 0x4D, 0x48, 0x15] := by
  decide +kernel

/-- The schedule of the source's known-answer key, and of K (sections 2 and 3.1). -/
theorem test_key_schedule :
    ks 0xEF00EF00FF80FF80 =
      [0x6FAC1BB8E602, 0x9953ED0319BD, 0x9153ED0319B5, 0x915BE54309B5, 0x917BE543099D, 0x9177E543119D, 0xD157E54311AD,
       0xD1D3E54219AD, 0xEEAC3A3CE442, 0xEEAE1AACE442, 0x6EBE1AACE642, 0x6EBC5ABCC642, 0x6EEC5A9CC642, 0x6EED1A9CE640,
       0x6EAD1BB8E640, 0x9B53E54318BD] ∧
    (ks keyK).getD 7 0 = 0xF78A3AC13BFB ∧ (ksr keyK).getD 0 0 = 0xCB3D8B0E17F5 := by decide +kernel

/-- The S-box lookups and whole-array outputs of section 4.3. -/
theorem test_sboxes :
    [tS1, tS2, tS3, tS4, tS5, tS6, tS7, tS8].map (fun t => (sboxLane t 0b011000).toNat) = [5, 12, 11, 11, 13, 14, 5, 5] ∧
    [tS1, tS2, tS3, tS4, tS5, tS6, tS7, tS8].map (fun t => (sboxLane t 0b000001).toNat) = [0, 3, 13, 13, 14, 10, 13, 1] ∧
    sboxArray 0 = 0xEFA72C4D ∧ sboxArray 0xFFFFFFFFFFFF = 0xD9CE3DCB := by decide +kernel

/-- The first two rounds of the trace of section 3.2. -/
theorem test_round_trace :
    ((ks keyK).take 2).foldl feistelRound (splitIP 0x0123456789ABCDEF) = (0xEF4A6544, 0xCC017709) := by decide +kernel

/-- Single-block vectors of section 3.3. -/
theorem test_des : desE 0 0 = 0x8CA64DE9C1B123A7 ∧ desD keyK 0x0808080808080808 = 0x811389CD52073084 := by decide +kernel

/-- The decryption and the two-key form of section 3.4. -/
theorem test_tdes :
    tdesD 0x0123456789ABCDEF 0x23456789ABCDEF01 0x456789ABCDEF0123 0x5468652071756663 = 0x6725870A7B3A3BAE ∧
    tdesE 0x0123456789ABCDEF 0x23456789ABCDEF01 0x0123456789ABCDEF 0x5468652071756663 = 0xC44862F70CF2FBDC := by
  decide +kernel

/-- Padding vectors of section 4.5. -/
theorem test_unpad :
    unpad [0x41, 0x42, 0x43, 0x44, 0x45, 0x46, 0x47, 0] = none ∧ unpad [0x41, 0x42, 0x43, 0x44, 0x45, 0x46, 0x47, 8] = some [] ∧
    unpad [0x61, 0x62, 0x63, 7, 7, 7, 7, 5] = some abc := by decide +kernel

/-! ## The commands -/

/-- Program 1 line 3: INIT in ECB with DES, STATUS 0x1006 before DONE is cleared. -/
theorem test_init_ok :
    nextSat (exec .init ({ State.reset with ctrl := 0x00000800, key0 := keyK } : State))
      (fun t => t.statusWord = 0x00001006 ∧ t.aK0 = keyK ∧ t.aMode = .ecb) = true := by decide +kernel

/-- Program 5 line 5: CBC without an IV is Validation, STATUS 0x1102. -/
theorem test_init_missing_iv :
    nextSat (exec .init ({ State.reset with ctrl := 0x00000801 } : State))
      (fun t => t.statusWord = 0x00001102 ∧ t.outlen = 0) = true := by decide +kernel

/-- Section 4.5, CBC "abc". -/
theorem test_encrypt_cbc :
    nextSat (exec .encrypt (loaded .cbc abc))
      (fun t => t.outBuf = Memory.ofBytes 0 [0xA6, 0xDF, 0x41, 0xDD, 0x72, 0xE8, 0x6C, 0x1E] ∧
        t.ivChain = 0xA6DF41DD72E86C1E ∧ t.outlen = 8) = true := by decide +kernel

/-- Section 4.5, OFB "AAAAAAAA" and its chaining value: no padding. -/
theorem test_encrypt_ofb :
    nextSat (exec .encrypt (loaded .ofb (List.replicate 8 0x41)))
      (fun t => t.outBuf = Memory.ofBytes 0 [0x48, 0xD8, 0xFE, 0xD3, 0xAA, 0x37, 0xFB, 0x4F] ∧
        t.ivChain = 0x0999BF92EB76BA0E ∧ t.outlen = 8) = true := by decide +kernel

/-- Rule R134's worked example in ECB. -/
theorem test_decrypt_ecb :
    nextSat (exec .decrypt (loaded .ecb [0xDA, 0xAD, 0xBF, 0x9A, 0x3C, 0x47, 0x1F, 0xC4]))
      (fun t => t.outBuf = Memory.ofBytes 0 abc ∧ t.outlen = 3 ∧ t.err = .ok) = true := by decide +kernel

/-- Program 5 lines 13 to 15: a padding byte of 0 is Padding, and the chain has advanced. -/
theorem test_decrypt_bad_padding :
    nextSat (exec .decrypt (loaded .cbc [0x02, 0x5C, 0x37, 0xC4, 0x10, 0x29, 0x85, 0x6B]))
      (fun t => t.statusWord = 0x00003306 ∧ t.ivChain = 0x025C37C41029856B ∧ t.outlen = 0) = true := by decide +kernel

/-- Program 2 lines 10 and 11: the supplied IV comes back. -/
theorem test_resetIv :
    nextSat (exec .resetIv ({ loaded .cbc abc with ivChain := 0x62C16A27E4FCF277 } : State))
      (fun t => t.ivChain = 0x1234567890ABCDEF ∧ t.outlen = 0 ∧ t.lastop = 4) = true := by decide +kernel

/-- Program 4 line 8: KSEL = 1 with DES is Validation, STATUS 0x5106. -/
theorem test_ksread_validation :
    nextSat (exec (.ksread 1) (loaded .ecb [])) (fun t => t.statusWord = 0x00005106 ∧ t.outlen = 0) = true := by decide +kernel

/-- Section 4.2: K_1 of key 23456789ABCDEF01 as the second Triple DES key. -/
theorem test_ksread_second_key :
    nextSat (exec (.ksread 1) ({ loaded .ecb [] with aAlg := .tdes, aK1 := 0x23456789ABCDEF01 } : State))
      (fun t => Memory.readBytes t.outBuf 0 6 = some [0xCA, 0x3D, 0x03, 0xB8, 0x70, 0x32] ∧ t.outlen = 96) = true := by
  decide +kernel

/-- Rule R72: each reserved opcode leaves its OP in LASTOP and code 6 in ERR; CONFIGURED and DONE are 1 here. -/
theorem test_reserved0 : nextSat (exec .reserved0 (loaded .ecb [])) (fun t => t.statusWord = 0x0606) = true := by decide +kernel
theorem test_reserved6 : nextSat (exec .reserved6 (loaded .ecb [])) (fun t => t.statusWord = 0x6606) = true := by decide +kernel
theorem test_reserved7 : nextSat (exec .reserved7 State.reset) (fun t => t.statusWord = 0x7602) = true := by decide +kernel
theorem test_reserved8 : nextSat (exec .reserved8 (loaded .ecb [])) (fun t => t.statusWord = 0x8606) = true := by decide +kernel
theorem test_reserved9 : nextSat (exec .reserved9 (loaded .ecb [])) (fun t => t.statusWord = 0x9606) = true := by decide +kernel
theorem test_reservedA : nextSat (exec .reservedA (loaded .ecb [])) (fun t => t.statusWord = 0xA606) = true := by decide +kernel
theorem test_reservedB : nextSat (exec .reservedB (loaded .ecb [])) (fun t => t.statusWord = 0xB606) = true := by decide +kernel
theorem test_reservedC : nextSat (exec .reservedC (loaded .ecb [])) (fun t => t.statusWord = 0xC606) = true := by decide +kernel
theorem test_reservedD : nextSat (exec .reservedD (loaded .ecb [])) (fun t => t.statusWord = 0xD606) = true := by decide +kernel
theorem test_reservedE : nextSat (exec .reservedE (loaded .ecb [])) (fun t => t.statusWord = 0xE606) = true := by decide +kernel
theorem test_reservedF : nextSat (exec .reservedF (loaded .ecb [])) (fun t => t.statusWord = 0xF606) = true := by decide +kernel

/-! ## The bus -/

/-- Rule R36's example: the two halves of KEY0. -/
theorem test_key_halves :
    nextSat (step (State.reset.hostWrites 0x020 .word 0x01234567)) (fun t => t.key0 = 0x0123456700000000) = true ∧
    nextSat (step (State.reset.hostWrites 0x024 .word 0x89ABCDEF)) (fun t => t.key0 = 0x0000000089ABCDEF) = true := by
  decide +kernel

/-- Program 5 line 9: a misaligned read returns 0 and sets ACCERR. -/
theorem test_misaligned_read :
    nextSat (step (State.reset.hostReads 0x0006 .word)) (fun t => t.answer = some 0 ∧ t.statusWord = 0x10) = true := by
  decide +kernel

/-- Program 1 lines 8 and 9: a word of OUT on big-endian lanes. -/
theorem test_read_out :
    nextSat (step (({ State.reset with
        outlen := 8, outBuf := Memory.ofBytes 0 [0xDA, 0xAD, 0xBF, 0x9A, 0x3C, 0x47, 0x1F, 0xC4] } : State).hostReads 0x8004 .word))
      (fun t => t.answer = some 0x3C471FC4) = true := by decide +kernel

/-- Two bytes of OUT on big-endian lanes (rule R35): the first two of the ciphertext of "abc" (section 5). -/
theorem test_read_out_half :
    nextSat (exec .encrypt { loaded .cbc abc with bus := [.host (.read 0x8000 .half)] })
      (fun t => nextSat (step t) fun u => u.answer = some 0xA6DF) = true := by decide +kernel

/-- Each read of an unspecified byte of an idle block draws anew (rule R44, row U4 of 93_implementation_defined.md). -/
theorem test_unspecified_read_draws :
    nextSat (step (State.reset.hostReads 0x8000 .byte)) (fun t => t.draws = State.reset.draws + 1) = true := by decide +kernel

/-- A CMD write while reset is asserted is not accepted (rule R160). -/
theorem test_reset_held_takes_no_command :
    nextSat (step ({ holdReset (loaded .ecb abc) with bus := [.host (.write 0x008 .word 2)] } : State))
      (fun t => !t.busy && t.resetLine) = true := by decide +kernel

/-! ## Witnesses: for each statement with hypotheses, values that meet them, with the edges of each clause -/

theorem witness_OpFieldSelectsCommand :
    ∀ k : BitVec 4, ((0xFFFFFFF : BitVec 28) ++ k : Word) &&& 0xF = k.setWidth 32 := by decide +kernel

theorem witness_DecodeOfEncodeIsTheCommand : WellFormed .init ∧ WellFormed (.ksread 0) ∧ WellFormed (.ksread 3) := by
  refine ⟨trivial, ?_, ?_⟩
  · show 0 < 4
    decide
  · show 3 < 4
    decide

theorem witness_ReservedBitsAreIgnored :
    (0xFFFFFFD5 : Word) &&& 0x3F = 0x15 &&& 0x3F ∧
    ((0xFFFFFFF3 : Word) &&& 0xF = 0x03 &&& 0xF ∧ (0xFFFFFFF3 : Word) &&& 0xF ≠ 0x5) ∧
    (0xFFFFFFFF : Word) &&& 0x000F1F0F = 0x000F1F0F &&& 0x000F1F0F ∧
    (0xFFFFFFFF : Word) &&& 0x1A = 0x1A &&& 0x1A := by decide +kernel

theorem witness_PermuteFollowsItsTable :
    (tE.length = 48 ∧ (∀ j ∈ tE, 1 ≤ j ∧ j ≤ 32)) ∧
    (∀ j, j < 65 → 1 ≤ j → (cipherBit (0x40 : Block) j = true ↔ j = 58)) := by decide +kernel

theorem witness_RotationMovesCipherBits :
    (∀ n ∈ shiftCounts, n = 1 ∨ n = 2) ∧ shiftCounts.sum = 28 := by decide +kernel

/-- The halves of round 16 of the schedule of K (section 3.1). -/
theorem witness_SubkeysUseCumulativeRotations :
    (rotations (c0 keyK) shiftCounts)[15]? = some 0xF0CCAAF ∧ (rotations (d0 keyK) shiftCounts)[15]? = some 0x556678F ∧
    (rotations (c0 keyK) shiftCounts)[0]? = some 0xE19955F ∧ (rotations (d0 keyK) shiftCounts)[0]? = some 0xAACCF1E := by
  decide +kernel

/-- The edges of the index ranges: the last bit of the last chunk, the last bit under IP and FP, the first of KSR. -/
theorem witness_index_ranges :
    (cipherBit (chunk 8 (1 : Subkey)) 6 = cipherBit (1 : Subkey) (6 * (8 - 1) + 6) ∧ cipherBit (1 : Subkey) 48 = true) ∧
    tFP.getD (tIP.getD (64 - 1) 0 - 1) 0 = 64 ∧ (ksr keyK)[1 - 1]? = some 0xCB3D8B0E17F5 := by decide +kernel

theorem witness_ParityBitsDoNotReachTheSchedule :
    keyK &&& 0xFEFEFEFEFEFEFEFE = (keyK ^^^ 0x0101010101010101) &&& 0xFEFEFEFEFEFEFEFE ∧
    keyK ≠ keyK ^^^ 0x0101010101010101 := by decide +kernel

theorem witness_ActiveBlockPrimitiveInverts :
    (loaded .ecb abc).aAlg = .des ∧ ({ loaded .ecb abc with aAlg := .tdes } : State).aAlg = .tdes := ⟨rfl, rfl⟩

theorem witness_PaddingAddsItsOwnCount :
    (2 < abc.length) ∧ (abc.length ≤ 3 ∧ 7 < (pad abc).length) ∧ (List.replicate 8 (0x41 : Byte)).length = 8 := by
  decide +kernel

/-- p = 9, p = 0, p = 8 and p = 1 on eight bytes. -/
theorem witness_PaddingRemovalReadsLastByte :
    ∀ p ∈ [(9 : Byte), 0, 8, 1], let q : List Byte := [1, 2, 3, 4, 5, 6, 7] ++ [p];
      0 < q.length ∧ q.length % 8 = 0 ∧ q[q.length - 1]? = some p ∧
      ((q.length < p.toNat ∨ p = 0 ∨ 8 < p.toNat) ↔ (p = 9 ∨ p = 0)) ∧ (p.toNat ≤ 8 ↔ p ≠ 9) := by decide +kernel

/-- A block whose staging CTRL is `c`, idle: its sampled CTRL is then `c`. -/
def withCtrl (c : Word) : State := { State.reset with ctrl := c }

/-- KEYLEN 7 with DES and 8 with TDES fail; MODE 3; CBC and OFB with IVLEN 7 and 9; ECB, CBC and OFB that pass; the example. -/
theorem witness_InitLatchesOrReportsFirstFailure :
    (∀ c ∈ [0x0700, 0x0804], let d := (withCtrl (BitVec.ofNat 32 c)).sampledInit.ctrl;
      ¬((ctrlAlg d = .des ∧ ctrlKeylen d = 8) ∨ (ctrlAlg d = .tdes ∧ ctrlKeylen d = 24))) ∧
    (∀ c ∈ [0x0803, 0x1807], let d := (withCtrl (BitVec.ofNat 32 c)).sampledInit.ctrl;
      ((ctrlAlg d = .des ∧ ctrlKeylen d = 8) ∨ (ctrlAlg d = .tdes ∧ ctrlKeylen d = 24)) ∧ ctrlMode d = none) ∧
    (∀ p ∈ [(0x70801, Mode.cbc), (0x91806, Mode.ofb)], let d := (withCtrl (BitVec.ofNat 32 p.1)).sampledInit.ctrl;
      ((ctrlAlg d = .des ∧ ctrlKeylen d = 8) ∨ (ctrlAlg d = .tdes ∧ ctrlKeylen d = 24)) ∧ ctrlMode d = some p.2 ∧
      p.2 ≠ .ecb ∧ ctrlIvlen d ≠ 8) ∧
    (∀ p ∈ [(0x00800, Mode.ecb), (0x80801, Mode.cbc), (0x81806, Mode.ofb)],
      let d := (withCtrl (BitVec.ofNat 32 p.1)).sampledInit.ctrl;
      ((ctrlAlg d = .des ∧ ctrlKeylen d = 8) ∨ (ctrlAlg d = .tdes ∧ ctrlKeylen d = 24)) ∧ ctrlMode d = some p.2 ∧
      (p.2 = .ecb ∨ ctrlIvlen d = 8)) ∧
    (withCtrl 0x00080801).sampledInit.ctrl = 0x00080801 := by decide +kernel

/-- The hypotheses of the three modes' statements: an empty message, "abc", and a message that fills the smallest IN. -/
theorem witness_modes :
    ∀ m ∈ [Mode.ecb, Mode.cbc, Mode.ofb], ∀ b ∈ [[], abc, List.replicate 96 (0 : Byte)],
      let s : State := { loaded m b with cfg := { base := 0x40000, bufBytes := 96 } };
      s.cfg.wf ∧ s.configured = true ∧ s.aMode = m ∧ s.sampledLen ≤ s.cfg.bufBytes ∧ s.message = some b := by decide +kernel

/-- The inner hypotheses of EcbBlockByBlock: whole blocks, with a good and with a bad padding. -/
theorem witness_EcbBlockByBlock :
    (let s := loaded .ecb [0xDA, 0xAD, 0xBF, 0x9A, 0x3C, 0x47, 0x1F, 0xC4];
      0 < s.sampledLen ∧ s.sampledLen % 8 = 0 ∧
        unpad (s.decryptBytes [0xDA, 0xAD, 0xBF, 0x9A, 0x3C, 0x47, 0x1F, 0xC4]).1 = some abc) ∧
    (let s := loaded .ecb [0, 0, 0, 0, 0, 0, 0, 0];
      0 < s.sampledLen ∧ s.sampledLen % 8 = 0 ∧ unpad (s.decryptBytes [0, 0, 0, 0, 0, 0, 0, 0]).1 = none) := by decide +kernel

/-- The inner hypotheses of CbcChainsBlocks. -/
theorem witness_CbcChainsBlocks :
    (let c : List Byte := [0xA6, 0xDF, 0x41, 0xDD, 0x72, 0xE8, 0x6C, 0x1E];
      let s := loaded .cbc c;
      0 < s.sampledLen ∧ s.sampledLen % 8 = 0 ∧ s.message = some c ∧ unpad (s.decryptBytes c).1 = some abc) ∧
    (let c : List Byte := [0x02, 0x5C, 0x37, 0xC4, 0x10, 0x29, 0x85, 0x6B];
      let s := loaded .cbc c;
      0 < s.sampledLen ∧ s.sampledLen % 8 = 0 ∧ s.message = some c ∧ unpad (s.decryptBytes c).1 = none) := by decide +kernel

theorem witness_OfbXorsItsKeystream : (loaded .ofb abc).aMode = .ofb ∧ (loaded .ofb abc).message = some abc ∧
    2 < (loaded .ofb abc).sampledLen := by decide +kernel

/-- Lengths 0, 7 and one above BUF_BYTES, and completing commands in ECB and OFB. -/
theorem witness_LengthsByMode :
    (loaded .ecb abc).cfg.wf ∧ (loaded .ecb abc).configured = true ∧
    nextSat (exec .encrypt (loaded .ecb abc)) (fun _ => true) = true ∧
    (∀ i ∈ [Instr.encrypt, .decrypt], nextSat (exec i (loaded .ofb abc)) (fun _ => true) = true) ∧
    (loaded .cbc []).sampledLen = 0 ∧ (loaded .ecb [1, 2, 3, 4, 5, 6, 7]).sampledLen % 8 ≠ 0 ∧
    (let s : State := { loaded .ofb abc with len := 4097 };
      s.cfg.wf ∧ s.configured = true ∧ s.cfg.bufBytes < s.sampledLen) := by decide +kernel

theorem witness_UnconfiguredCommandsReportIt : State.reset.configured = false := rfl

/-- An IN byte below LEN that was not written: ENCRYPT, and DECRYPT of a whole block. -/
theorem witness_OnlyUninitialisedInputFaults :
    (let s : State := { loaded .ecb abc with len := 4 };
      s.configured = true ∧ s.sampledLen ≤ s.cfg.bufBytes ∧ 3 < s.sampledLen ∧ Memory.read s.inBuf 3 = none ∧
        faultSat (exec .encrypt s) (fun e => decide (e = .uninitialisedInput)) = true) ∧
    (let s : State := { loaded .cbc abc with len := 8 };
      0 < s.sampledLen ∧ s.sampledLen % 8 = 0 ∧ Memory.read s.inBuf 7 = none ∧
        faultSat (exec .decrypt s) (fun e => decide (e = .uninitialisedInput)) = true) := by decide +kernel

theorem witness_ResetIvRestoresSuppliedIv :
    (loaded .cbc abc).configured = true ∧ State.reset.configured = false ∧
    nextSat (exec .resetIv (loaded .cbc abc)) (fun t => nextSat (exec .resetIv t) (fun _ => true)) = true ∧
    nextSat (exec .encrypt (loaded .ecb abc)) (fun _ => true) = true ∧ (loaded .ecb abc).aMode = .ecb ∧
    (let s := loaded .cbc abc;
      s.cfg.wf ∧ s.aMode = .cbc ∧ s.aAlg = .des ∧ s.aK0 = 0x133457799BBCDFF1 ∧ s.ivInit = 0x1234567890ABCDEF ∧
        s.ivChain = 0x1234567890ABCDEF ∧ s.message = some [0x61, 0x62, 0x63]) := by decide +kernel

/-- KSEL 0 to 3 with both algorithms: which are Validation, and the example's key. -/
theorem witness_KsreadWritesTheSchedule :
    State.reset.configured = false ∧
    (let s := loaded .ecb [];
      s.configured = true ∧ s.aAlg = .des ∧ (1 : Nat) < 4 ∧ (1 : Nat) ≠ 0 ∧ (3 : Nat) < 4) ∧
    (let s : State := { loaded .ecb [] with aAlg := .tdes };
      s.configured = true ∧ ¬((2 : Nat) = 3 ∨ (s.aAlg = .des ∧ (2 : Nat) ≠ 0))) ∧
    ({ loaded .ecb [] with aK0 := 0xEF00EF00FF80FF80 } : State).aK0 = 0xEF00EF00FF80FF80 := by decide +kernel

theorem witness_ReservedOpcodesCompleteIllegal :
    State.reset.busy = false ∧ ((0xFFFFFFF0 : Word) &&& 0xF = 0) ∧ 6 ≤ ((0x6 : Word) &&& 0xF).toNat ∧
    6 ≤ ((0xF : Word) &&& 0xF).toNat ∧
    (let s : State := { State.reset with bus := [.host (.write 0x008 .word 0x7), .engine] };
      s.busy = false ∧ s.bus = .host (.write (s.cfg.base + 0x008) .word 0x7) :: .engine :: []) := by decide +kernel

theorem witness_CompletionWritesStatus : nextSat (exec .init State.reset) (fun _ => true) = true := by decide +kernel

/-- A completing ENCRYPT in ECB, and a completing KSREAD. -/
theorem witness_CommandFrame :
    (loaded .ecb abc).cfg.wf ∧ (loaded .ecb abc).aMode = .ecb ∧
    nextSat (exec .encrypt (loaded .ecb abc)) (fun _ => true) = true ∧
    nextSat (exec (.ksread 0) (loaded .cbc abc)) (fun _ => true) = true := by decide +kernel

/-- An error before any block, and a bad padding in CBC and in ECB. -/
theorem witness_ErrorsLeaveConfigurationAndChain :
    nextSat (exec .encrypt State.reset) (fun t => t.err ≠ .ok ∧ t.err ≠ .padding) = true ∧
    (let c : List Byte := [0x02, 0x5C, 0x37, 0xC4, 0x10, 0x29, 0x85, 0x6B];
      nextSat (exec .decrypt (loaded .cbc c)) (fun t => t.err = .padding) = true ∧ (loaded .cbc c).message = some c) ∧
    nextSat (exec .decrypt (loaded .ecb [0, 0, 0, 0, 0, 0, 0, 0])) (fun t => t.err = .padding) = true := by decide +kernel

/-- A running INIT and a running ENCRYPT, each of which completes. -/
theorem witness_StagingWritesDoNotReachARunningCommand :
    ∀ n ∈ [1, 2], let w := BitVec.ofNat 32 n; let s := busyWith w;
      ∃ r, s.running = some r ∧ (r.op = 0x1 → r.init.isSome = true) ∧ nextSat (exec r.instr s) (fun _ => true) = true := by
  intro n hn
  refine ⟨(loaded .ecb abc).sample (BitVec.ofNat 32 n), rfl, ?_⟩
  revert n
  decide +kernel

/-- "abc" loaded in ECB, with another value than the supplied one in IV_CHAIN. -/
def otherChain : State := { loaded .ecb abc with ivChain := 7 }

/-- "abc" in CBC from the supplied IV, and in ECB from another IV_CHAIN: encrypted, RESET_IV, and the ciphertext read from OUT. -/
theorem witness_DecryptAfterEncryptReturnsMessage :
    (∃ (s t u : State) (m c : List Byte), s.cfg.wf ∧ s.configured = true ∧ s.aMode = .cbc ∧ s.ivChain = s.ivInit ∧
      s.message = some m ∧ exec .encrypt s = .next t ∧ t.err = .ok ∧ exec .resetIv t = .next u ∧
      Memory.readBytes t.outBuf 0 t.outlen.toNat = some c ∧ c.length ≤ s.cfg.bufBytes) ∧
    (∃ (s t u : State) (m c : List Byte), s.cfg.wf ∧ s.configured = true ∧ s.aMode = .ecb ∧ s.ivChain ≠ s.ivInit ∧
      s.message = some m ∧ exec .encrypt s = .next t ∧ t.err = .ok ∧ exec .resetIv t = .next u ∧
      Memory.readBytes t.outBuf 0 t.outlen.toNat = some c ∧ c.length ≤ s.cfg.bufBytes) := by
  refine ⟨⟨loaded .cbc abc, nextOf (exec .encrypt (loaded .cbc abc)) State.reset,
    nextOf (exec .resetIv (nextOf (exec .encrypt (loaded .cbc abc)) State.reset)) State.reset, abc,
    [0xA6, 0xDF, 0x41, 0xDD, 0x72, 0xE8, 0x6C, 0x1E], by decide +kernel, rfl, rfl, rfl, by decide +kernel,
    eq_next _ _ (by decide +kernel), by decide +kernel, eq_next _ _ (by decide +kernel), by decide +kernel, by decide +kernel⟩,
    ⟨otherChain, nextOf (exec .encrypt otherChain) State.reset,
    nextOf (exec .resetIv (nextOf (exec .encrypt otherChain) State.reset)) State.reset, abc,
    (Memory.readBytes (nextOf (exec .encrypt otherChain) State.reset).outBuf 0 8).getD [], by decide +kernel, rfl, rfl,
    by decide +kernel, by decide +kernel, eq_next _ _ (by decide +kernel), by decide +kernel, eq_next _ _ (by decide +kernel),
    by decide +kernel, by decide +kernel⟩⟩

/-- "abc" and "abd" in OFB. -/
theorem witness_OfbFlipsTheSameBits :
    ∃ (s t u : State) (m l : List Byte) (mem : Memory), s.cfg.wf ∧ s.configured = true ∧ s.aMode = .ofb ∧
      s.message = some m ∧ ({ s with inBuf := mem } : State).message = some l ∧
      exec .encrypt s = .next t ∧ exec .encrypt { s with inBuf := mem } = .next u ∧ t.err = .ok ∧ 2 < s.sampledLen := by
  refine ⟨loaded .ofb abc, nextOf (exec .encrypt (loaded .ofb abc)) State.reset,
    nextOf (exec .encrypt { loaded .ofb abc with inBuf := Memory.ofBytes 0 [0x61, 0x62, 0x64] }) State.reset, abc,
    [0x61, 0x62, 0x64], Memory.ofBytes 0 [0x61, 0x62, 0x64], by decide +kernel, rfl, rfl, by decide +kernel,
    by decide +kernel, eq_next _ _ (by decide +kernel), eq_next _ _ (by decide +kernel), by decide +kernel, by decide +kernel⟩

/-- A block held in reset, with the host about to do `b`. -/
def heldWith (b : List BusEvent) : State := { holdReset (loaded .ecb abc) with bus := b }

/-- An idle block, a busy one, and a read of one held in reset. -/
theorem witness_RegisterReadsAnswerTheirValue :
    State.reset.resetLine = false ∧ State.reset.busy = false ∧ (busyWith 2).resetLine = false ∧ (busyWith 2).busy = true ∧
    (heldWith []).resetLine = true ∧
    nextSat (step ((heldWith []).hostReads 0x000 .word)) (fun t => t.answer = some 0x44455333) = true ∧
    nextSat (step (({ State.resetWith (heldWith []).cfg with draws := (heldWith []).draws } : State).hostReads 0x000 .word))
      (fun _ => true) = true := by decide +kernel

/-- An idle block, and a busy one to which the host writes. -/
theorem witness_AcceptSamplesOperands :
    State.reset.busy = false ∧ (State.reset.sample 1).op = 0x1 ∧
    (let s : State := { busyWith 2 with bus := [.host (.write 0x010 .word 9)] };
      s.running = some ((loaded .ecb abc).sample 2) ∧ nextSat (step s) (fun _ => true) = true) := by decide +kernel

theorem witness_CommandWhileBusyIsDropped : (busyWith 5).busy = true := rfl

/-- The last byte below 0x4000 and a misaligned halfword at the end of the window. -/
theorem witness_RefusedAccessSetsAccerr :
    ((0x3FFF < 0x10000) ∧ (0x3FFF < 0x4000 ∧ AccessWidth.byte ≠ .word)) ∧
    ((0xFFFF < 0x10000) ∧ 0xFFFF % AccessWidth.half.bytes ≠ 0) ∧ 0x0006 % AccessWidth.word.bytes ≠ 0 := by decide +kernel

/-- The first and the last offset of every reserved range, and of OUT, with the default BUF_BYTES. -/
theorem witness_ReservedOffsetsReadZeroAndIgnoreWrites :
    State.reset.cfg.wf ∧
    (∀ off ∈ [0x018, 0x01C, 0x0048, 0x3FFC], off < 0x10000 ∧ off % AccessWidth.word.bytes = 0 ∧
      (off = 0x018 ∨ off = 0x01C ∨ (0x0048 ≤ off ∧ off < 0x4000))) ∧
    (∀ off ∈ [0x5000, 0x7FFF], off % AccessWidth.byte.bytes = 0 ∧ 0x4000 + State.reset.cfg.bufBytes ≤ off ∧ off < 0x8000) ∧
    (∀ off ∈ [0x9008, 0xFFFF], off < 0x10000 ∧ 0x8000 + State.reset.cfg.outBytes ≤ off) ∧
    (∀ off ∈ [0x8000, 0x9007], 0x8000 ≤ off ∧ off < 0x8000 + State.reset.cfg.outBytes) := by decide +kernel

/-- The last word of IN, idle and during a KSREAD. -/
theorem witness_InWritesUseBigEndianLanes :
    State.reset.cfg.wf ∧ 4092 + AccessWidth.word.bytes ≤ State.reset.cfg.bufBytes ∧ 4092 % AccessWidth.word.bytes = 0 ∧
    State.reset.running = none ∧ (busyWith 5).running = some ((loaded .ecb abc).sample 5) ∧
    ((loaded .ecb abc).sample 5).op ≠ 0x2 ∧ ((loaded .ecb abc).sample 5).op ≠ 0x3 := by decide +kernel

theorem witness_InWriteWhileCipherRunsFaults :
    (busyWith 2).cfg.wf ∧ 4095 < (busyWith 2).cfg.bufBytes ∧ 4095 % AccessWidth.byte.bytes = 0 ∧
    (busyWith 2).running = some ((loaded .ecb abc).sample 2) ∧ ((loaded .ecb abc).sample 2).op = 0x2 ∧
    (busyWith 3).running = some ((loaded .ecb abc).sample 3) ∧ ((loaded .ecb abc).sample 3).op = 0x3 := by decide +kernel

/-- A configured block with one valid byte in OUT. -/
def oneByteOut : State := { loaded .ofb abc with outlen := 1, outBuf := [(0, 0x68)] }

/-- `oneByteOut` meets the invariant, busy or idle, whatever is pending. -/
theorem oneByteOut_inv (r : Option Command) (hr : r = none ∨ r = some ((loaded .ofb abc).sample 2)) (b : List BusEvent) :
    ({ oneByteOut with running := r, bus := b } : State).Inv where
  params := (by decide +kernel : oneByteOut.cfg.wf)
  ctrlReserved := (by decide +kernel : oneByteOut.ctrl &&& ~~~ctrlMask = 0)
  inForm := (by decide +kernel : Memory.wf oneByteOut.inBuf)
  inSize := (by decide +kernel : ∀ c ∈ oneByteOut.inBuf, c.1 < oneByteOut.cfg.bufBytes)
  outForm := (by decide +kernel : Memory.wf oneByteOut.outBuf)
  outValid := by
    intro k
    show (Memory.read [(0, 0x68)] k).isSome = true ↔ k < 1
    by_cases h : k = 0
    · subst h; decide
    · simp [Memory.read, Ne.symm h, h]
  outSize := (by decide +kernel : oneByteOut.outlen.toNat ≤ oneByteOut.cfg.outBytes)
  unconfigured := fun h => by cases h
  sampledOnlyByInit := by
    intro q hq
    rcases hr with h | h <;> subst h
    · cases hq
    · cases hq; decide +kernel
  sampledReserved := by
    intro q o hq ho
    rcases hr with h | h <;> subst h
    · cases hq
    · cases hq; cases ho
  held := fun h => Bool.noConfusion (show false = true from h)

/-- A taken and a refused read of an idle block, twice; and a specified byte of IN and of OUT, each read twice. -/
theorem witness_ReadsHaveNoSideEffect :
    State.reset.busy = false ∧ oneByteOut.busy = false ∧ oneByteOut.resetLine = false ∧
    nextSat (step (State.reset.hostReads 0x000 .word)) (fun t => nextSat (step (t.hostReads 0x000 .word)) fun _ => true) = true ∧
    nextSat (step (State.reset.hostReads 0x001 .byte)) (fun t => nextSat (step (t.hostReads 0x001 .byte)) fun _ => true) = true ∧
    (∀ off ∈ [0x4002, 0x8000], off < 0x10000 ∧
      nextSat (step (oneByteOut.hostReads off .byte)) (fun t => nextSat (step (t.hostReads off .byte)) fun _ => true) = true ∧
      ∀ j, j < AccessWidth.byte.bytes →
        (regionOf oneByteOut.cfg (off + j) = .inBuf → (Memory.read oneByteOut.inBuf (off + j - 0x4000)).isSome = true) ∧
        (regionOf oneByteOut.cfg (off + j) = .outBuf → off + j - 0x8000 < oneByteOut.outlen.toNat ∧
          (Memory.read oneByteOut.outBuf (off + j - 0x8000)).isSome = true)) := by
  decide +kernel

/-- The word and the halfword that straddle OUTLEN = 1, the last word and the last byte of OUT, and a busy block. -/
theorem witness_OutReadsAreValidBelowOutlen :
    oneByteOut.Inv ∧ oneByteOut.resetLine = false ∧ oneByteOut.busy = false ∧
    0 + AccessWidth.word.bytes ≤ oneByteOut.cfg.outBytes ∧ 0 % AccessWidth.word.bytes = 0 ∧
    0 + AccessWidth.half.bytes ≤ oneByteOut.cfg.outBytes ∧ 0 % AccessWidth.half.bytes = 0 ∧
    4100 + AccessWidth.word.bytes ≤ oneByteOut.cfg.outBytes ∧ 4100 % AccessWidth.word.bytes = 0 ∧
    4103 + AccessWidth.byte.bytes ≤ oneByteOut.cfg.outBytes ∧ 4103 % AccessWidth.byte.bytes = 0 ∧
    0 + 0 < oneByteOut.outlen.toNat ∧ oneByteOut.outlen.toNat ≤ 0 + 1 ∧
    ({ oneByteOut with running := some ((loaded .ofb abc).sample 2) } : State).Inv ∧
    ({ oneByteOut with running := some ((loaded .ofb abc).sample 2) } : State).busy = true :=
  ⟨oneByteOut_inv none (.inl rfl) [], rfl, rfl, by decide +kernel, by decide, by decide +kernel, by decide, by decide +kernel,
    by decide, by decide +kernel, by decide, by decide +kernel, by decide +kernel, oneByteOut_inv _ (.inr rfl) [], rfl⟩

/-- A CMD write while idle, one while busy, a clear of DONE, OVR and ACCERR, a refused read, an engine's turn that configures, and
an idle one. -/
theorem witness_FlagsChangeOnlyByTheirRules :
    nextSat (step ({ State.reset with bus := [.host (.write 0x008 .word 1)] } : State)) (fun t => t.busy) = true ∧
    nextSat (step ({ busyWith 2 with bus := [.host (.write 0x008 .word 1)] } : State)) (fun t => t.ovr) = true ∧
    nextSat (step ({ State.reset with done := true, ovr := true, accErr := true, bus := [.host (.write 0x00C .word 0x1A)] } : State))
      (fun t => !t.done && !t.ovr && !t.accErr) = true ∧
    nextSat (step ({ State.reset with bus := [.host (.read 0x006 .word)] } : State)) (fun t => t.accErr) = true ∧
    nextSat (step (({ State.reset with ctrl := 0x0800 } : State).accept 1)) (fun t => t.configured) = true ∧
    nextSat (step ({ State.reset with bus := [.engine] } : State)) (fun t => !t.busy) = true := by decide +kernel

/-- An engine's turn, an access of the host, and the first and last word of OUT. -/
theorem witness_EachBufferHasOneWriter :
    nextSat (step (busyWith 2)) (fun _ => true) = true ∧
    nextSat (step ({ oneByteOut with bus := [.host (.write 0x8000 .byte 7)] } : State)) (fun _ => true) = true ∧
    State.reset.cfg.wf ∧ 4100 < State.reset.cfg.outBytes ∧ 4100 % AccessWidth.word.bytes = 0 := by decide +kernel

/-- A busy block with the access `a` at the instant of its completion. -/
def atCompletion (a : Access) : State := { busyWith 2 with bus := [.together a] }

/-- At a completion: a read, the clear of DONE, a staging write, a write to IN, which faults, and a CMD write; and a read with
nothing in progress. -/
theorem witness_CompletionWinsOverSimultaneousClear :
    (∀ a ∈ [Access.read 0x00C .word, .write 0x00C .word 2, .write 0x010 .word 9, .write 0x008 .word 1],
      (atCompletion a).resetLine = false ∧ (atCompletion a).bus = .together a :: [] ∧
      (atCompletion a).running = some ((loaded .ecb abc).sample 2) ∧ nextSat (step (atCompletion a)) (fun _ => true) = true ∧
      nextSat (step ({ atCompletion a with bus := [.host a] } : State)) (fun _ => true) = true) ∧
    faultSat (step ({ atCompletion (.write 0x4000 .byte 7) with bus := [.host (.write 0x4000 .byte 7)] } : State))
      (fun _ => true) = true ∧
    (atCompletion (.write 0x4000 .byte 7)).bus = .together (.write 0x4000 .byte 7) :: [] ∧
    (atCompletion (.write 0x008 .word 1)).cfg.base + 0x008 = 0x008 ∧
    ({ State.reset with bus := [.together (.read 0x00C .word)] } : State).running = none := by
  decide +kernel

/-- The smallest and the largest BUF_BYTES. -/
theorem witness_ResetMeetsInvariant :
    ({ base := 0, bufBytes := 96 } : Config).wf ∧ ({ base := 0x40000, bufBytes := 16376 } : Config).wf := by decide +kernel

/-- A busy block as reset is asserted; a held block with a CMD write, with nothing and with reset asserted again
pending; and the release. -/
theorem witness_ResetValues :
    ({ busyWith 2 with bus := [.reset true] } : State).bus = .reset true :: [] ∧
    (heldWith [.host (.write 0x008 .word 3)]).resetLine = true ∧
    (heldWith [.host (.write 0x008 .word 3)]).bus.head? ≠ some (.reset false) ∧
    (heldWith []).bus.head? ≠ some (.reset false) ∧ (heldWith [.reset true]).bus.head? ≠ some (.reset false) ∧
    (heldWith [.reset false]).resetLine = true ∧ (heldWith [.reset false]).bus = .reset false :: [] := by decide +kernel

/-- A step from a state that meets the invariant: the host's, the engine's with the ENCRYPT of "abc" in progress, and the assertion
of reset. -/
theorem witness_EveryStepKeepsInvariant :
    (∃ s t : State, s.Inv ∧ step s = .next t ∧ t ≠ s) ∧ (∃ s t : State, s.Inv ∧ s.busy = true ∧ step s = .next t) ∧
    (∃ s t : State, s.Inv ∧ step s = .next t ∧ t.resetLine = true) := by
  refine ⟨⟨_, nextOf _ State.reset, oneByteOut_inv none (.inl rfl) [.host (.write 0x010 .word 9)],
    eq_next _ State.reset (by decide +kernel), by decide +kernel⟩, ⟨_, nextOf _ State.reset,
    oneByteOut_inv (some ((loaded .ofb abc).sample 2)) (.inr rfl) [], rfl, eq_next _ State.reset (by decide +kernel)⟩,
    ⟨_, nextOf _ State.reset, oneByteOut_inv none (.inl rfl) [.reset true], eq_next _ State.reset (by decide +kernel),
    by decide +kernel⟩⟩

theorem witness_EngineStepRunsDecodedCommand :
    (let s : State := { busyWith 0x15 with bus := [.engine] };
      s.running = some ((loaded .ecb abc).sample 0x15) ∧ s.bus = .engine :: []) ∧
    (busyWith 0x15).bus = [] ∧ decode (wordBytes 0xFFFFFFC4) = .ok (.resetIv, []) ∧
    decodeTableWord 32 0x25 = some (.ksread 2) ∧ State.reset.running = none ∧ State.reset.bus = [] :=
  ⟨⟨rfl, rfl⟩, rfl, rfl, rfl, rfl, rfl⟩

theorem witness_OnlyInitWritesActiveConfiguration :
    (let s : State := { busyWith 2 with bus := [.together (.write 0x004 .word 0x0803)] };
      s.resetLine = false ∧ nextSat (step s) (fun _ => true) = true ∧ s.running = some ((loaded .ecb abc).sample 2) ∧
        ((loaded .ecb abc).sample 2).op ≠ 0x1 ∧ s.bus.head? ≠ some (.reset true)) := by decide +kernel

/-- A command in progress with two accesses before the engine's turn, with none, and with accesses alone. -/
theorem witness_CommandInProgressCompletesOnItsTurn :
    (busyWith 2).resetLine = false ∧ (busyWith 2).running = some ((loaded .ecb abc).sample 2) ∧ (busyWith 2).bus = [] ∧
    (let accesses : List Access := [.read 0x00C .word, .write 0x008 .word 1];
      let s : State := { busyWith 2 with bus := accesses.map .host ++ .engine :: [.reset true] };
      s.resetLine = false ∧ s.running = some ((loaded .ecb abc).sample 2) ∧
        nextSat (Host.Core.run Sys2Proof.core (accesses.length + 1) s) (fun t => t.done) = true) ∧
    (let accesses : List Access := [.write 0x4000 .byte 7];
      let s : State := { busyWith 2 with bus := accesses.map .host };
      s.running = some ((loaded .ecb abc).sample 2) ∧
        faultSat (Host.Core.run Sys2Proof.core (accesses.length + 1) s) (fun _ => true) = true) := by
  decide +kernel

end Sys2Proof.Tests
end

section
/-! PROOF. Who may change the block's flags, its buffers and its reset values: O51, O52, O53 and O55. -/

namespace Sys2Proof.Machine

/-! Writes of the host, by what they change. -/

/-- An offset of the window names its bus address (rule R38). -/
theorem addr_of_windowOffset (c : Config) (addr off : Nat) (h : windowOffset c addr = some off) : addr = c.base + off := by
  rw [windowOffset] at h
  split_ifs at h with hr
  have := Option.some.inj h
  omega

/-- The register found at an offset has that offset (rule R56). -/
theorem offset_of_regAt (off : Nat) (r : Reg) (h : regAt off = some r) : r.offset = off := by
  simpa using List.find?_some h

/-- The registers are written by whole words (rule R38). -/
theorem width_of_taken_registers (c : Config) (off : Nat) (w : AccessWidth) (hr : regionOf c off = .registers)
    (h : taken c off w = true) : w = .word := by
  rw [taken, hr, Bool.and_eq_true] at h
  exact eq_of_beq h.1

/-- A taken write that answers a next state writes the register at its offset, or at most the bytes of IN. -/
theorem takenWrite_next (off : Nat) (w : AccessWidth) (d : Word) (s t : State) (h : takenWrite off w d s = .next t) :
    (∃ r, regionOf s.cfg off = .registers ∧ regAt off = some r ∧ t = writeReg r d s) ∨
      t = { s with inBuf := t.inBuf } := by
  unfold takenWrite at h
  split at h
  · rename_i hreg
    split at h
    · rename_i r hr
      exact .inl ⟨r, hreg, hr, (Host.Outcome.next.inj h).symm⟩
    · exact .inr (by cases h; rfl)
  · rw [writeIn] at h
    split_ifs at h
    exact .inr (by cases h; rfl)
  all_goals exact .inr (by cases h; rfl)

/-- The flags that an access of the host can change stand in `t` as in `s` (rules R24 and R31). -/
def State.SameHostFlags (s t : State) : Prop :=
  t.running = s.running ∧ t.done = s.done ∧ t.ovr = s.ovr ∧ t.accErr = s.accErr

/-- Of the registers only CMD and STATUS have a write that can change a flag (rules R56 to R69). -/
theorem writeReg_sameHostFlags (r : Reg) (d : Word) (s : State) (hc : r ≠ .cmd) (hs : r ≠ .status) :
    s.SameHostFlags (writeReg r d s) := by
  cases r with
  | cmd => exact absurd rfl hc
  | status => exact absurd rfl hs
  | id | ctrl | len | outlen | key0Hi | key0Lo | key1Hi | key1Lo | key2Hi | key2Lo | ivinHi | ivinLo | ivcurHi | ivcurLo =>
    exact ⟨rfl, rfl, rfl, rfl⟩

/-- An access is refused: its width or its alignment is not one that its place in the window takes (rule R41). -/
def Access.Refused (a : Access) (c : Config) : Prop :=
  ∃ off w, windowOffset c a.addr = some off ∧ taken c off w = false ∧ (a = .read a.addr w ∨ ∃ d, a = .write a.addr w d)

/-- What an access that answers a next state does to the flags: nothing, or it is a CMD write, a STATUS write or refused. -/
theorem hostAccess_flag_cases (a : Access) (s t : State) (h : hostAccess a s = .next t) :
    s.SameHostFlags t ∨
    (∃ d, a = .write (s.cfg.base + 0x008) .word d ∧ t = writeCmd d s.noteWrite) ∨
    (∃ d, a = .write (s.cfg.base + 0x00C) .word d ∧ t = s.noteWrite.writeStatus d) ∨
    (a.Refused s.cfg ∧ t.running = s.running ∧ t.done = s.done ∧ t.ovr = s.ovr ∧ t.accErr = true) := by
  unfold hostAccess at h
  split at h
  · cases h
    exact .inl ⟨rfl, rfl, rfl, rfl⟩
  · rename_i off hoff
    split at h
    · rename_i addr w
      rw [hostRead] at h
      split_ifs at h with ht <;> cases h
      · exact .inl ⟨rfl, rfl, rfl, rfl⟩
      · exact .inr (.inr (.inr ⟨⟨off, w, hoff, by simpa using ht, .inl rfl⟩, rfl, rfl, rfl, rfl⟩))
    · rename_i addr w d
      rw [hostWrite] at h
      split_ifs at h with ht
      · rcases takenWrite_next off w d s.noteWrite t h with ⟨r, hreg, hr, rfl⟩ | e
        · obtain rfl := width_of_taken_registers s.cfg off w hreg ht
          obtain rfl := addr_of_windowOffset s.cfg addr off hoff
          obtain rfl := offset_of_regAt off r hr
          by_cases hc : r = .cmd
          · subst hc
            exact .inr (.inl ⟨d, rfl, rfl⟩)
          by_cases hs : r = .status
          · subst hs
            exact .inr (.inr (.inl ⟨d, rfl, rfl⟩))
          · exact .inl (writeReg_sameHostFlags r d s.noteWrite hc hs)
        · rw [e]
          exact .inl ⟨rfl, rfl, rfl, rfl⟩
      · cases h
        exact .inr (.inr (.inr ⟨⟨off, w, hoff, by simpa using ht, .inr ⟨d, rfl⟩⟩, rfl, rfl, rfl, rfl⟩))

/-- A CMD write starts a command in an idle engine and sets OVR in a busy one (rules R62 and R139). -/
theorem writeCmd_cases (d : Word) (s : State) :
    (s.busy = false ∧ writeCmd d s = s.accept d) ∨ (s.busy = true ∧ writeCmd d s = { s with ovr := true }) := by
  cases hb : s.busy <;> simp [writeCmd, hb]

/-- A write-1-to-clear flag changes only by being cleared, by a 1 (rule R63). -/
theorem writeOneToClear_ne (flag one : Bool) (h : (flag && !one) ≠ flag) : (flag && !one) = false ∧ one = true := by
  revert flag one
  decide

/-- BUSY is whether a command is in progress, so it changes only where that does. -/
theorem busy_congr {s t : State} (h : t.running = s.running) : t.busy = s.busy := congrArg Option.isSome h

/-! The engine's turn. -/

/-- A step on the engine's turn, or with nothing pending, completes the command in progress or leaves the block as it is. -/
theorem engineStep_cases (s t : State) (rest : List BusEvent) (hl : s.resetLine = false)
    (hb : s.bus = [] ∨ s.bus = .engine :: rest) (h : step s = .next t) :
    ∃ bus, (s.running = none ∧ t = { s with bus := bus }) ∨
      ∃ r, s.running = some r ∧ exec (decodeFields r.op r.ksel) { s with bus := bus } = .next t := by
  obtain ⟨bus, h⟩ : ∃ bus, engineTurn { s with bus := bus } = .next t := by
    rcases hb with hb | hb
    · exact ⟨s.bus, by rw [← h, step_nil s hl hb]⟩
    · exact ⟨rest, by rw [← h, step_engine s rest hl hb]⟩
  refine ⟨bus, ?_⟩
  rcases Option.eq_none_or_eq_some s.running with hr | ⟨r, hr⟩
  · rw [engineTurn_idle { s with bus := bus } hr] at h
    exact .inl ⟨hr, (Host.Outcome.next.inj h).symm⟩
  · rw [engineTurn_running { s with bus := bus } r hr] at h
    exact .inr ⟨r, hr, h⟩

/-- The fields of a command decode to a command with that OP (rule R70). -/
theorem opcode_decodeFields (op : BitVec 4) (ksel : BitVec 2) : opcode (decodeFields op ksel) = op := by
  revert op ksel
  decide

/-- Only a successful INIT changes CONFIGURED, and it sets it (rules R21 and R141). -/
theorem exec_configured_ne (i : Instr) (s t : State) (h : exec i s = .next t) (hc : t.configured ≠ s.configured) :
    i = .init ∧ t.err = .ok ∧ t.configured = true := by
  obtain ⟨code, out, u, rfl, rfl | ⟨v, rfl, _⟩ | ⟨m, _, rfl, rfl⟩⟩ := exec_completes i s t h
  · exact absurd rfl hc
  · exact absurd rfl hc
  · rcases execInit_cases s _ h with ⟨code, _, _, e⟩ | ⟨m, _, e⟩ <;> rw [e] at hc ⊢
    · exact absurd rfl hc
    · exact ⟨rfl, rfl, rfl⟩

/-! O51. -/

/-- The host's half of rules R31 and R151. -/
theorem hostAccess_flag_rules (a : Access) (s t : State) (h : hostAccess a s = .next t) :
    (t.busy ≠ s.busy → t.busy = true ∧ ∃ d, a = .write (s.cfg.base + 0x008) .word d) ∧
    (t.done ≠ s.done → t.done = false ∧ ∃ d, a = .write (s.cfg.base + 0x00C) .word d ∧ d.getLsbD 1 = true) ∧
    (t.ovr ≠ s.ovr → (t.ovr = false ∧ ∃ d, a = .write (s.cfg.base + 0x00C) .word d ∧ d.getLsbD 3 = true) ∨
      (t.ovr = true ∧ s.busy = true ∧ (∃ d, a = .write (s.cfg.base + 0x008) .word d) ∧ t.done = s.done ∧
        t.running = s.running)) ∧
    (t.accErr ≠ s.accErr → (t.accErr = false ∧ ∃ d, a = .write (s.cfg.base + 0x00C) .word d ∧ d.getLsbD 4 = true) ∨
      (t.accErr = true ∧ t.done = s.done ∧ t.running = s.running ∧ a.Refused s.cfg)) := by
  rcases hostAccess_flag_cases a s t h with ⟨hr, hd, ho, ha⟩ | ⟨d, hcmd, rfl⟩ | ⟨d, hstatus, rfl⟩ | ⟨href, hr, hd, ho, ha⟩
  · exact ⟨absurd (busy_congr hr), absurd hd, absurd ho, absurd ha⟩
  · rcases writeCmd_cases d s.noteWrite with ⟨_, e⟩ | ⟨hb, e⟩ <;> rw [e]
    · exact ⟨fun _ => ⟨rfl, d, hcmd⟩, absurd rfl, absurd rfl, absurd rfl⟩
    · exact ⟨absurd rfl, absurd rfl, fun _ => .inr ⟨rfl, hb, ⟨d, hcmd⟩, rfl, rfl⟩, absurd rfl⟩
  · have cleared (flag : Bool) (k : Nat) (hf : (flag && !d.getLsbD k) ≠ flag) : (flag && !d.getLsbD k) = false ∧
        ∃ d, a = .write (s.cfg.base + 0x00C) .word d ∧ d.getLsbD k = true :=
      (writeOneToClear_ne flag _ hf).imp_right fun hk => ⟨d, hstatus, hk⟩
    exact ⟨absurd rfl, cleared _ 1, fun hf => .inl (cleared _ 3 hf), fun hf => .inl (cleared _ 4 hf)⟩
  · exact ⟨absurd (busy_congr hr), absurd hd, absurd ho, fun _ => .inr ⟨ha, hd, hr, href⟩⟩

/-- Settles O51: the host's moves by the register they write, the engine's by the command they complete. -/
theorem flagsChangeOnlyByTheirRules : Obligations.FlagsChangeOnlyByTheirRules := by
  unfold Obligations.FlagsChangeOnlyByTheirRules
  constructor
  · intro s t a rest hl hb h
    rw [step_host s a rest hl hb] at h
    obtain ⟨-, hconf, -, -, -, -, -, -, -, herr, hlast, hout, -⟩ := hostAccess_frame a _ t h
    exact ⟨herr, hlast, hout, hconf, hostAccess_flag_rules a { s with bus := rest } t h⟩
  · intro s t rest hl hb h
    obtain ⟨bus, ⟨hr, rfl⟩ | ⟨r, hr, hx⟩⟩ := engineStep_cases s t rest hl hb h
    · have idle : s.busy = false := by rw [State.busy, hr]; rfl
      exact ⟨rfl, rfl, fun _ => ⟨rfl, rfl, rfl, rfl, idle⟩, absurd rfl⟩
    · obtain ⟨-, -, -, -, -, -, -, -, -, -, hovr, hacc, -⟩ := exec_frame _ _ t hx
      have busy : s.busy = true := by rw [State.busy, hr]; rfl
      refine ⟨hovr, hacc, fun idle => by simp [busy] at idle, fun hc => ?_⟩
      obtain ⟨hi, hok, hset⟩ := exec_configured_ne _ _ t hx hc
      have hop : r.op = 0x1 := by rw [← opcode_decodeFields r.op r.ksel, hi]; rfl
      exact ⟨r, hr, hop, hok, hset⟩

/-! O52. -/

/-- A taken write to the OUT window is ignored (rule R27). -/
theorem hostWrite_out (s : State) (k : Nat) (w : AccessWidth) (d : Word) (hw : s.cfg.wf) (hk : k < s.cfg.outBytes)
    (ha : k % w.bytes = 0) : hostWrite (0x8000 + k) w d s = .next s.noteWrite := by
  have hreg := regionOf_out s.cfg k hw hk
  have align : (0x8000 + k) % w.bytes = 0 := by
    cases w <;> simp only [AccessWidth.bytes] at ha ⊢ <;> omega
  rw [hostWrite, if_pos (by simp [taken, hreg, Region.takes, align]), takenWrite, noteWrite_cfg, hreg]

/-- Settles O52: a command's frame holds IN, an access's frame holds OUT and the chaining registers. -/
theorem eachBufferHasOneWriter : Obligations.EachBufferHasOneWriter := by
  unfold Obligations.EachBufferHasOneWriter
  refine ⟨fun s t rest hl hb h k => ?_, fun s t a rest hl hb h => ?_, fun s k w d hl hw hk ha => ?_⟩
  · obtain ⟨bus, ⟨-, rfl⟩ | ⟨r, -, hx⟩⟩ := engineStep_cases s t rest hl hb h
    · rfl
    · obtain ⟨-, -, -, -, -, -, -, -, -, -, -, -, hin, -⟩ := exec_frame _ _ t hx
      rw [hin]
  · rw [step_host s a rest hl hb] at h
    obtain ⟨-, -, -, -, -, -, -, hinit, hchain, -, -, -, hout, -⟩ := hostAccess_frame a _ t h
    exact ⟨fun k => by rw [hout], hchain, hinit⟩
  · have := hw.2.2
    rw [step_hostWrites s _ w d (by simp only [Config.outBytes] at hk; omega) hl, hostWrite_out s k w d hw hk ha]
    rfl

/-! O53. -/

/-- Bit 1 of STATUS is DONE (rule R63). -/
theorem statusWord_getLsbD_done (s : State) : s.statusWord.getLsbD 1 = s.done := by
  rw [State.statusWord]
  refine BitVec.getLsbD_append.trans ?_
  rw [if_neg (by decide), BitVec.getLsbD_append]
  cases s.done <;> rfl

/-- Settles O53: bit 1 of STATUS is DONE, and bit 3 of CTRL is IRQEN by definition. -/
theorem irqIsDoneAndIrqen : Obligations.IrqIsDoneAndIrqen := by
  intro s
  rw [statusWord_getLsbD_done, State.irq, ctrlIrqen, Bool.and_eq_true]

/-! O55. -/

/-- A step that asserts the reset input, whatever its level before (rules R160 and R161). -/
theorem step_assertReset (s : State) (rest : List BusEvent) (h : s.bus = .reset true :: rest) :
    step s = .next { State.resetWith s.cfg with resetLine := true, bus := rest, draws := s.draws + 1 } := by
  rw [step, nextMove, h]
  show nextEvent (.reset true) { s with bus := rest } = _
  rw [nextEvent]
  split_ifs
  · rw [heldEvent, setResetLine_true]
  · rw [takeEvent, setResetLine_true]

/-- A step that releases the asserted reset input (rule R160). -/
theorem step_releaseReset (s : State) (rest : List BusEvent) (hl : s.resetLine = true) (h : s.bus = .reset false :: rest) :
    step s = .next { State.resetWith s.cfg with bus := rest, draws := s.draws + 1 } := by
  rw [step, nextMove, h]
  show nextEvent (.reset false) { s with bus := rest } = _
  rw [nextEvent, if_pos hl, heldEvent, setResetLine_false_of_held { s with bus := rest } hl]

/-- Settles O55: the reset state field by field, then the three steps that reach or keep it. -/
theorem resetValues : Obligations.ResetValues := by
  unfold Obligations.ResetValues
  refine ⟨?_, rfl, step_assertReset, step_held, step_releaseReset⟩
  rintro c s rfl
  simp [State.resetWith, State.busy, State.irq]

end Sys2Proof.Machine
end

section
/-! PROOF. Accesses that are refused, and offsets that hold nothing: O45 and O46. -/

namespace Sys2Proof.Machine

/-! Which accesses are taken. -/

/-- Below the buffers a region takes whole words only; from IN on it takes every width (rule R38). -/
theorem takes_regionOf_iff (c : Config) (off : Nat) (w : AccessWidth) :
    (regionOf c off).takes w = true ↔ w = .word ∨ 0x4000 ≤ off := by
  by_cases low : off < 0x4000
  · have hr : regionOf c off = .registers ∨ regionOf c off = .reservedLow := by
      rw [regionOf, if_pos low]
      split_ifs <;> simp
    have below : ¬ 0x4000 ≤ off := by omega
    rcases hr with e | e <;> simp [e, Region.takes, below]
  · have above : 0x4000 ≤ off := by omega
    rw [regionOf, if_neg (by omega), if_neg low]
    split_ifs <;> simp [Region.takes, above]

/-- When an access is taken, in offsets (rules R38 and R41). -/
theorem taken_iff (c : Config) (off : Nat) (w : AccessWidth) :
    taken c off w = true ↔ (w = .word ∨ 0x4000 ≤ off) ∧ off % w.bytes = 0 := by
  rw [taken, Bool.and_eq_true, takes_regionOf_iff, beq_iff_eq]

/-! O45. -/

/-- Settles O45: neither kind of access is taken, and both accesses answer a refusal the same way whatever the region. -/
theorem refusedAccessSetsAccerr : Obligations.RefusedAccessSetsAccerr := by
  unfold Obligations.RefusedAccessSetsAccerr
  intro s off w d hl hoff hbad
  have refused : ¬ taken s.cfg off w = true := by
    rw [taken_iff]
    rintro ⟨width, align⟩
    rcases hbad with ⟨low, narrow⟩ | misaligned
    · exact width.elim narrow (by omega)
    · exact misaligned align
  constructor
  · rw [step_hostReads s off w hoff hl, hostRead, if_neg refused]
  · rw [step_hostWrites s off w d hoff hl, hostWrite, if_neg refused]
    rfl

/-! O46. -/

/-- An offset is reserved: it lies in a reserved region, or among the registers where there is none (rules R38 and R56). -/
def ReservedOffset (c : Config) (off : Nat) : Prop :=
  (regionOf c off = .registers ∧ regAt off = none) ∨ regionOf c off = .reservedLow ∨
    regionOf c off = .reservedAfterIn ∨ regionOf c off = .reservedAfterOut

/-- The reserved offsets of rule R38 and the two holes of the register map of rule R56. -/
theorem reservedOffset_of_range (c : Config) (off : Nat) (hw : c.wf)
    (h : off = 0x018 ∨ off = 0x01C ∨ (0x0048 ≤ off ∧ off < 0x4000) ∨ (0x4000 + c.bufBytes ≤ off ∧ off < 0x8000) ∨
      0x8000 + c.outBytes ≤ off) : ReservedOffset c off := by
  obtain ⟨-, -, hmax⟩ := hw
  rcases h with rfl | rfl | ⟨h1, h2⟩ | ⟨h1, h2⟩ | h1
  · exact .inl ⟨rfl, rfl⟩
  · exact .inl ⟨rfl, rfl⟩
  · exact .inr (.inl (by rw [regionOf, if_neg (by omega), if_pos h2]))
  · exact .inr (.inr (.inl (by
      rw [regionOf, if_neg (by omega), if_neg (by omega), if_neg (by omega), if_pos h2])))
  · exact .inr (.inr (.inr (by
      rw [regionOf, if_neg (by omega), if_neg (by omega), if_neg (by omega), if_neg (by omega), if_neg (by omega)])))

/-- A reserved offset reads 0 (rule R39). -/
theorem readData_of_reserved (s : State) (off : Nat) (w : AccessWidth) (h : ReservedOffset s.cfg off) :
    s.readData off w = 0 := by
  rcases h with ⟨e, hnone⟩ | e | e | e <;> rw [State.readData, e]
  simp only [hnone]

/-- A write to a reserved offset is ignored (rule R39). -/
theorem takenWrite_of_reserved (s : State) (off : Nat) (w : AccessWidth) (d : Word) (h : ReservedOffset s.cfg off) :
    takenWrite off w d s = .next s := by
  rcases h with ⟨e, hnone⟩ | e | e | e <;> rw [takenWrite, e]
  simp only [hnone]

/-- Settles O46: a reserved offset is in a region, or a hole of the register map, that both accesses pass over; OUT's write is
`hostWrite_out`. -/
theorem reservedOffsetsReadZeroAndIgnoreWrites : Obligations.ReservedOffsetsReadZeroAndIgnoreWrites := by
  unfold Obligations.ReservedOffsetsReadZeroAndIgnoreWrites
  intro s off w d hl hw hoff align width
  have htaken : taken s.cfg off w = true := (taken_iff s.cfg off w).2 ⟨width, align⟩
  refine ⟨fun hres => ⟨{ s with answer := some 0, draws := s.draws + 1 }, ?_, rfl⟩, ?_⟩
  · rw [step_hostReads s off w hoff hl, hostRead, if_pos htaken,
      readData_of_reserved s off w (reservedOffset_of_range s.cfg off hw hres)]
  · rw [step_hostWrites s off w d hoff hl]
    rintro (hres | ⟨hlow, hhigh⟩)
    · rw [hostWrite, if_pos htaken]
      exact takenWrite_of_reserved s.noteWrite off w d (reservedOffset_of_range s.cfg off hw hres)
    · obtain ⟨k, rfl⟩ := Nat.exists_eq_add_of_le hlow
      have align_k : k % w.bytes = 0 := by
        cases w <;> simp only [AccessWidth.bytes] at align ⊢ <;> omega
      exact hostWrite_out s k w d hw (by omega) align_k

end Sys2Proof.Machine
end

section
/-! PROOF. What the decoder and the writable registers read of a word, and the reserved opcodes: O2, O5 and O33. -/

namespace Sys2Proof

/-! The fields of the command word. -/

/-- Field OP has a value exactly where the masked word has it (rule R55). -/
theorem opField_eq_iff (w : Word) (op : BitVec 4) : opField w = op ↔ w &&& 0xF = op.setWidth 32 := by
  rw [and_op]
  refine ⟨congrArg _, fun h => ?_⟩
  simpa using congrArg (BitVec.setWidth 4) h

/-- Field OP as the number that the masked word holds (rule R55). -/
theorem toNat_and_op (w : Word) : (w &&& 0xF).toNat = (opField w).toNat := by
  rw [and_op, BitVec.toNat_setWidth_of_le (by decide)]

/-- The mask of fields OP and KSEL keeps field OP. -/
theorem opField_and_mask (w : Word) : opField (w &&& 0x3F) = opField w := by
  apply opField_of_and
  rw [BitVec.and_assoc]
  rfl

/-- The mask of fields OP and KSEL keeps field KSEL. -/
theorem kselField_and_mask (w : Word) : kselField (w &&& 0x3F) = kselField w := by
  rw [and_op_ksel]
  apply BitVec.eq_of_getLsbD_eq
  intro i hi
  simp only [kselField, BitVec.getLsbD_extractLsb', BitVec.getLsbD_setWidth, BitVec.getLsbD_append]
  interval_cases i <;> simp

/-- The reserved bits 31:6 of a command word are not read (rule R73). -/
theorem decodeWord_and_mask (w : Word) : decodeWord (w &&& 0x3F) = decodeWord w := by
  rw [decodeWord, opField_and_mask, kselField_and_mask, decodeWord]

/-- A word whose OP is known decodes to that entry of the opcode map (rule R70). -/
theorem decodeWord_of_op (w : Word) (op : BitVec 4) (h : w &&& 0xF = op.setWidth 32) :
    decodeWord w = decodeFields op (kselField w) := by
  rw [decodeWord, (opField_eq_iff w op).2 h]

/-- Every opcode but KSREAD's ignores KSEL (rules R55 and R73). -/
theorem decodeFields_ksel_irrelevant (op : BitVec 4) (k l : BitVec 2) (h : op ≠ 0x5) :
    decodeFields op k = decodeFields op l := by
  revert op k l
  decide

/-- What does not change under a mask of its argument agrees on arguments that agree under the mask. -/
theorem eq_of_and_eq {α : Type} {f : Word → α} {m d e : Word} (hf : ∀ x, f (x &&& m) = f x) (h : d &&& m = e &&& m) :
    f d = f e := by
  rw [← hf d, h, hf e]

/-! O2. -/

/-- Settles O2: one entry of the opcode map for each value of OP. -/
theorem opFieldSelectsCommand : Obligations.OpFieldSelectsCommand := by
  intro w
  exact ⟨decodeWord_of_op w 0x0, decodeWord_of_op w 0x1, decodeWord_of_op w 0x2, decodeWord_of_op w 0x3,
    decodeWord_of_op w 0x4, decodeWord_of_op w 0x5, decodeWord_of_op w 0x6, decodeWord_of_op w 0x7,
    decodeWord_of_op w 0x8, decodeWord_of_op w 0x9, decodeWord_of_op w 0xA, decodeWord_of_op w 0xB,
    decodeWord_of_op w 0xC, decodeWord_of_op w 0xD, decodeWord_of_op w 0xE, decodeWord_of_op w 0xF⟩

end Sys2Proof

namespace Sys2Proof.Machine

/-! O5. -/

/-- The mask of STATUS' write-1-to-clear bits keeps what a write does (rule R63). -/
theorem writeStatus_and_mask (s : State) (d : Word) : s.writeStatus (d &&& 0x1A) = s.writeStatus d := by
  simp [State.writeStatus]

/-- A write of CTRL ignores the reserved bits (rule R58). -/
theorem writeCtrl_and_mask (s : State) (d : Word) : writeReg .ctrl (d &&& ctrlMask) s = writeReg .ctrl d s := by
  rw [writeReg, BitVec.and_assoc, BitVec.and_self, writeReg]

/-- The reserved bits 31:16 and 7:5 of STATUS read 0 (rule R63): the word and the mask, field by field. -/
theorem statusWord_reserved (s : State) : s.statusWord &&& 0xFFFF00E0 = 0 := by
  show (0#16 ++ s.lastop ++ s.err.code ++ 0#3 ++ BitVec.ofBool s.accErr ++ BitVec.ofBool s.ovr ++
      BitVec.ofBool s.configured ++ BitVec.ofBool s.done ++ BitVec.ofBool s.busy) &&&
    (0xFFFF#16 ++ 0#4 ++ 0#4 ++ 7#3 ++ 0#1 ++ 0#1 ++ 0#1 ++ 0#1 ++ 0#1) = 0
  simp only [BitVec.and_append, BitVec.and_zero, BitVec.zero_and]
  rfl

/-- Settles O5: each mask drops the bits that are not read. -/
theorem reservedBitsAreIgnored : Obligations.ReservedBitsAreIgnored := by
  refine ⟨fun _ _ => eq_of_and_eq decodeWord_and_mask, fun w v h hop => ?_, fun s d => ?_,
    fun s _ _ => eq_of_and_eq (f := fun x => writeReg .ctrl x s) (writeCtrl_and_mask s), statusWord_reserved,
    fun s _ _ => eq_of_and_eq (f := s.writeStatus) (writeStatus_and_mask s)⟩
  · have hne : opField w ≠ 0x5 := fun e => hop ((opField_eq_iff w 0x5).1 e)
    rw [decodeWord, decodeWord, ← opField_of_and w v h]
    exact decodeFields_ksel_irrelevant _ _ _ hne
  · show d &&& ctrlMask &&& 0xFFF0E0F0 = 0
    rw [BitVec.and_assoc]
    exact BitVec.and_zero

/-! O33. -/

/-- The eleven commands of the reserved opcodes (rule R72). -/
def reservedInstrs : List Instr :=
  [.reserved0, .reserved6, .reserved7, .reserved8, .reserved9, .reservedA, .reservedB, .reservedC, .reservedD, .reservedE,
    .reservedF]

/-- A reserved command completes with IllegalCommand and its own OP, in every state (rule R72). -/
theorem exec_reserved (i : Instr) (s : State) (h : i ∈ reservedInstrs) :
    exec i s = .next (complete (opcode i) .illegalCommand [] s) := by
  simp only [reservedInstrs, List.mem_cons, List.not_mem_nil, or_false] at h
  rcases h with rfl | rfl | rfl | rfl | rfl | rfl | rfl | rfl | rfl | rfl | rfl <;> exact illegalCommand_eq _ s

/-- The reserved opcodes are 0 and those from 6 on, whatever KSEL (rules R70 and R72). -/
theorem decodeFields_mem_reservedInstrs (op : BitVec 4) (ksel : BitVec 2) (h : op = 0 ∨ 6 ≤ op.toNat) :
    decodeFields op ksel ∈ reservedInstrs := by
  revert op ksel
  decide

/-- Every command is one of the five or reserved. -/
theorem defined_or_reserved (i : Instr) : i = .init ∨ i = .encrypt ∨ i = .decrypt ∨ i = .resetIv ∨
    (∃ ksel, i = .ksread ksel) ∨ i ∈ reservedInstrs := by
  cases i <;> simp [reservedInstrs]

/-- A run whose first step answers a next state goes on from it. -/
theorem run_succ_of_step (M : Host.Core) (k : Nat) (s t : M.State) (h : M.step s = .next t) :
    M.run (k + 1) s = M.run k t := by
  rw [Host.Core.run, h]

/-- A CMD write to an idle block is accepted (rules R62 and R137). -/
theorem step_writeCmd_idle (s : State) (w : Word) (hl : s.resetLine = false) (hi : s.running = none) :
    step (s.hostWrites 0x008 .word w) = .next (s.noteWrite.accept w) := by
  rw [step_writeReg s 0x008 .cmd w (by decide) rfl rfl hl, writeReg, writeCmd, if_neg (by simp [State.busy, hi])]

/-- The engine's turn on a just accepted reserved opcode completes it with IllegalCommand (rule R72). -/
theorem step_engine_reserved (s : State) (w : Word) (rest : List BusEvent) (hl : s.resetLine = false)
    (hb : s.bus = .engine :: rest) (hop : opField w = 0 ∨ 6 ≤ (opField w).toNat) :
    step (s.accept w) =
      .next (complete (opField w) .illegalCommand [] { s.accept w with bus := rest }) := by
  rw [step_engine (s.accept w) rest hl hb, engineTurn_running _ (s.sample w) rfl, sample_op, sample_ksel,
    exec_reserved _ _ (decodeFields_mem_reservedInstrs _ _ hop), opcode_decodeFields]

/-- A reserved opcode written to an idle block and then the engine's turn: it is accepted and completes with IllegalCommand
(rule R72). -/
theorem run_writeCmd_reserved (s : State) (w : Word) (rest : List BusEvent) (hl : s.resetLine = false)
    (hi : s.running = none) (hb : s.bus = .engine :: rest) (hop : opField w = 0 ∨ 6 ≤ (opField w).toNat) :
    Host.Core.run core 2 (s.hostWrites 0x008 .word w) =
      .next (complete (opField w) .illegalCommand [] { s.noteWrite with bus := rest }) :=
  (run_succ_of_step core 1 (s.hostWrites 0x008 .word w) (s.noteWrite.accept w) (step_writeCmd_idle s w hl hi)).trans
    (run_succ_of_step core 0 (s.noteWrite.accept w) _ (step_engine_reserved s.noteWrite w rest hl hb hop))

/-- Settles O33: what a reserved command answers, the write that accepts it with the turn that completes it, and the cases of a
decoded command. -/
theorem reservedOpcodesCompleteIllegal : Obligations.ReservedOpcodesCompleteIllegal := by
  refine ⟨fun s i h => exec_reserved i s h, fun s w rest hl hi hmask hb => ?_, fun w => defined_or_reserved (decodeWord w)⟩
  have hidle : s.running = none := by simpa [State.busy] using hi
  have hop : opField w = 0 ∨ 6 ≤ (opField w).toNat := by
    rwa [toNat_and_op, ← show opField w = 0 ↔ w &&& 0xF = 0 from opField_eq_iff w 0] at hmask
  have hwrite : s = ({ s with bus := .engine :: rest } : State).hostWrites 0x008 .word w := by
    rw [State.hostWrites, ← hb]
  refine (congrArg (Host.Core.run core 2) hwrite).trans
    ((run_writeCmd_reserved { s with bus := .engine :: rest } w rest hl hidle rfl hop).trans ?_)
  rw [hidle]
  rfl

end Sys2Proof.Machine
end

section
/-! PROOF. The 28-bit left rotation of the key schedule: O8. -/

namespace Sys2Proof.Machine

/-- The cipher's bit numbers are the library's numbers from the most significant bit, one up (rule R10). -/
theorem cipherBit_succ {w : Nat} (v : BitVec w) (j : Nat) (h : j < w) : cipherBit v (j + 1) = v.getMsbD j := by
  rw [cipherBit, BitVec.getMsbD, decide_eq_true h, Bool.true_and, Nat.sub_sub, Nat.add_comm j]

/-- Cipher bit ⟨i⟩ of a rotation, for every width and count (rule R80). -/
theorem cipherBit_rotateLeft {w : Nat} (v : BitVec w) (n i : Nat) (h1 : 1 ≤ i) (hw : i ≤ w) :
    cipherBit (v.rotateLeft n) i = cipherBit v ((i - 1 + n) % w + 1) := by
  obtain ⟨j, rfl⟩ := Nat.exists_eq_add_of_le' h1
  have hj : j < w := hw
  rw [cipherBit_succ _ j hj, cipherBit_succ _ _ (Nat.mod_lt _ (Nat.zero_lt_of_lt hj)), BitVec.getMsbD_rotateLeft,
    decide_eq_true hj, Bool.true_and, Nat.add_sub_cancel, Nat.add_comm n]

/-- Two rotations in a row rotate by the sum of their counts. -/
theorem rotateLeft_rotateLeft {w : Nat} (v : BitVec w) (m n : Nat) :
    (v.rotateLeft m).rotateLeft n = v.rotateLeft (m + n) := by
  apply cipherBit_ext
  intro i h1 hw
  have hmod : (i - 1 + n) % w < w := Nat.mod_lt _ (Nat.lt_of_lt_of_le h1 hw)
  rw [cipherBit_rotateLeft _ n i h1 hw, cipherBit_rotateLeft v m _ (Nat.le_add_left 1 _) hmod,
    cipherBit_rotateLeft v (m + n) i h1 hw, Nat.add_sub_cancel, Nat.mod_add_mod, Nat.add_assoc, Nat.add_comm n]

/-- A rotation by a multiple of the width is none. -/
theorem rotateLeft_of_dvd {w : Nat} (v : BitVec w) (n : Nat) (h : w ∣ n) : v.rotateLeft n = v := by
  apply cipherBit_ext
  intro i h1 hw
  obtain ⟨k, rfl⟩ := h
  rw [cipherBit_rotateLeft v _ i h1 hw, Nat.add_mul_mod_self_left, Nat.mod_eq_of_lt (by omega), Nat.sub_add_cancel h1]

/-- A sequence of the key schedule's rotations rotates by the sum of its counts (rule R89). -/
theorem foldl_rotl28 (v : HalfKey) (ns : List Nat) (h : ∀ n ∈ ns, n < 28) :
    ns.foldl rotl28 v = v.rotateLeft ns.sum := by
  induction ns generalizing v with
  | nil => exact (rotateLeft_of_dvd v 0 (Nat.dvd_zero 28)).symm
  | cons n ns ih =>
    obtain ⟨hn, hns⟩ := List.forall_mem_cons.1 h
    rw [List.foldl_cons, ih _ hns, rotl28_eq_rotateLeft v n hn, rotateLeft_rotateLeft, List.sum_cons]

/-- Settles O8: one rotation bit by bit, and a sequence of them as one rotation by its sum. -/
theorem rotationMovesCipherBits : Obligations.RotationMovesCipherBits := by
  unfold Obligations.RotationMovesCipherBits
  refine ⟨fun v n i hn h1 h28 => ?_, fun v ns hns hsum => ?_, by decide⟩
  · rw [rotl28_eq_rotateLeft v n (by omega)]
    exact cipherBit_rotateLeft v n i h1 h28
  · have small : ∀ n ∈ ns, n < 28 := fun n hn => by
      have := hns n hn
      omega
    rw [foldl_rotl28 v ns small, hsum]
    exact rotateLeft_of_dvd v 28 (Nat.dvd_refl 28)

end Sys2Proof.Machine
end

section
/-! PROOF. ENCRYPT and DECRYPT in the block modes ECB and CBC, and the lengths by mode: O25, O26 and O28. -/

namespace Sys2Proof.Machine

/-! What each mode computes (rules R126 to R130). -/

theorem encryptBytes_ecb (s : State) (m : List Byte) (h : s.aMode = .ecb) :
    s.encryptBytes m = (storeBlocks ((loadBlocks (pad m)).map s.blockE), s.ivChain) := by
  rw [State.encryptBytes, h]

theorem encryptBytes_cbc (s : State) (m : List Byte) (h : s.aMode = .cbc) :
    s.encryptBytes m = (storeBlocks (cbcEncrypt s.blockE s.ivChain (loadBlocks (pad m))).1,
      (cbcEncrypt s.blockE s.ivChain (loadBlocks (pad m))).2) := by
  rw [State.encryptBytes, h]

theorem encryptBytes_ofb (s : State) (m : List Byte) (h : s.aMode = .ofb) :
    s.encryptBytes m = ofbRun s.blockE s.ivChain (chunks8 m) := by
  rw [State.encryptBytes, h]

theorem decryptBytes_ecb (s : State) (c : List Byte) (h : s.aMode = .ecb) :
    s.decryptBytes c = (storeBlocks ((loadBlocks c).map s.blockD), s.ivChain) := by
  rw [State.decryptBytes, h]

theorem decryptBytes_cbc (s : State) (c : List Byte) (h : s.aMode = .cbc) :
    s.decryptBytes c = (storeBlocks (cbcDecrypt s.blockD s.ivChain (loadBlocks c)).1,
      (cbcDecrypt s.blockD s.ivChain (loadBlocks c)).2) := by
  rw [State.decryptBytes, h]

theorem stripPadding_blockMode (s : State) (q : List Byte) (h : s.aMode ≠ .ofb) : s.stripPadding q = unpad q := by
  cases hm : s.aMode with
  | ecb => rw [State.stripPadding, hm]
  | cbc => rw [State.stripPadding, hm]
  | ofb => exact absurd hm h

theorem stripPadding_ofb (s : State) (q : List Byte) (h : s.aMode = .ofb) : s.stripPadding q = some q := by
  rw [State.stripPadding, h]

/-- The lengths DECRYPT rejects (rule R130). -/
theorem rejectsLength_iff (s : State) (n : Nat) :
    s.rejectsLength n = true ↔ s.aMode ≠ .ofb ∧ (n = 0 ∨ n % 8 ≠ 0) := by
  cases hm : s.aMode with
  | ecb => simp [State.rejectsLength, hm]
  | cbc => simp [State.rejectsLength, hm]
  | ofb => simp [State.rejectsLength, hm]

theorem rejectsLength_ofb (s : State) (n : Nat) (h : s.aMode = .ofb) : s.rejectsLength n = false := by
  rw [State.rejectsLength, h]

/-- DECRYPT takes whole blocks, and at least one, in every mode. -/
theorem rejectsLength_wholeBlocks (s : State) (n : Nat) (h0 : 0 < n) (h8 : n % 8 = 0) : s.rejectsLength n = false := by
  rw [← Bool.not_eq_true, rejectsLength_iff]
  omega

/-! The blocks of what the modes compute. -/

/-- Block j of ECB in either direction (rule R126). -/
theorem blockAt_storeBlocks_map (f : Block → Block) (b : List Byte) (j : Nat) (h : 8 * j < b.length) :
    blockAt (storeBlocks ((loadBlocks b).map f)) j = f (blockAt b j) := by
  rw [blockAt_storeBlocks _ j (by simp; omega), List.getElem_map, loadBlocks_getElem]

/-- Block j of a CBC encryption of a byte string (rule R127). -/
theorem blockAt_storeBlocks_cbcEncrypt (e : Block → Block) (iv : Block) (b : List Byte) (j : Nat) (h : 8 * j < b.length) :
    blockAt (storeBlocks (cbcEncrypt e iv (loadBlocks b)).1) j = cbcChain e iv (blockAt b) (j + 1) := by
  rw [blockAt_storeBlocks _ j (by simp; omega)]
  exact cbcEncrypt_getElem e iv _ _ (loadBlocks_getElem b) j _

/-- Block j of a CBC decryption of a byte string (rule R127). -/
theorem blockAt_storeBlocks_cbcDecrypt (d : Block → Block) (iv : Block) (b : List Byte) (j : Nat) (h : 8 * j < b.length) :
    blockAt (storeBlocks (cbcDecrypt d iv (loadBlocks b)).1) j = d (blockAt b j) ^^^ cbcPrevious iv (blockAt b) j := by
  rw [blockAt_storeBlocks _ j (by simp; omega)]
  exact cbcDecrypt_getElem d iv _ _ (loadBlocks_getElem b) j _

/-- The chaining value a CBC encryption of whole blocks leaves (rule R127). -/
theorem cbcEncrypt_loadBlocks_snd (e : Block → Block) (iv : Block) (b : List Byte) (h8 : b.length % 8 = 0) :
    (cbcEncrypt e iv (loadBlocks b)).2 = cbcChain e iv (blockAt b) (b.length / 8) := by
  rw [cbcEncrypt_snd e iv _ _ (loadBlocks_getElem b), loadBlocks_length,
    show (b.length + 7) / 8 = b.length / 8 by omega]

/-- The chaining value a CBC decryption of whole blocks leaves: the last of them (rule R127). -/
theorem cbcDecrypt_loadBlocks_snd (d : Block → Block) (iv : Block) (b : List Byte) (h0 : 0 < b.length)
    (h8 : b.length % 8 = 0) : (cbcDecrypt d iv (loadBlocks b)).2 = blockAt b (b.length / 8 - 1) := by
  have hlast : (loadBlocks b).length - 1 = b.length / 8 - 1 := by
    rw [loadBlocks_length]
    omega
  rw [cbcDecrypt_snd, List.getLastD_eq_getLast?, List.getLast?_eq_getElem?, hlast,
    List.getElem?_eq_getElem (by rw [loadBlocks_length]; omega), Option.getD_some, loadBlocks_getElem]

/-! What ENCRYPT writes in a block mode. -/

/-- ENCRYPT writes the padded length in ECB and CBC (rule R130). -/
theorem encryptBytes_length_blockMode (s : State) (m : List Byte) (h : s.aMode ≠ .ofb) :
    (s.encryptBytes m).1.length = m.length + padCount m.length := by
  have hmod := pad_length_mod m
  cases hm : s.aMode with
  | ecb => rw [encryptBytes_ecb s m hm]; simp; omega
  | cbc => rw [encryptBytes_cbc s m hm]; simp; omega
  | ofb => exact absurd hm h

/-- OUTLEN after an ENCRYPT in ECB or CBC. -/
theorem outlen_encrypt_blockMode (s u : State) (m : List Byte) (hw : s.cfg.wf) (h : s.aMode ≠ .ofb)
    (hl : m.length ≤ s.cfg.bufBytes) :
    (complete 0x2 .ok (s.encryptBytes m).1 u).outlen.toNat = m.length + padCount m.length := by
  obtain ⟨-, -, hmax⟩ := hw
  have hpad := padCount_le m.length
  have hlen := encryptBytes_length_blockMode s m h
  rw [outlen_complete_toNat _ _ _ _ (by omega), hlen]

/-- Block j of OUT after an ENCRYPT in ECB or CBC. -/
theorem outBlock_encrypt_blockMode (s u : State) (m : List Byte) (j : Nat) (h : s.aMode ≠ .ofb)
    (hj : 8 * j < m.length + padCount m.length) :
    (complete 0x2 .ok (s.encryptBytes m).1 u).outBlock j = some (blockAt (s.encryptBytes m).1 j) := by
  have hmod := pad_length_mod m
  exact outBlock_complete _ _ _ _ j (by rw [encryptBytes_length_blockMode s m h]; omega)

/-! What DECRYPT answers in a block mode. -/

/-- The result code of DECRYPT for the bytes Q in ECB and CBC (rule R134). -/
def unpadCode (q : List Byte) : ErrCode := if (unpad q).isSome then .ok else .padding

/-- DECRYPT in ECB and CBC completes with what is left of Q, and with nothing where its padding is bad; IV_CHAIN is advanced
either way (rules R134 and R149). -/
theorem execDecrypt_blockMode (s : State) (c : List Byte) (hc : s.configured = true) (hl : s.sampledLen ≤ s.cfg.bufBytes)
    (h : s.aMode ≠ .ofb) (h0 : 0 < s.sampledLen) (h8 : s.sampledLen % 8 = 0) (hm : s.message = some c) :
    execDecrypt s = .next (complete 0x3 (unpadCode (s.decryptBytes c).1) ((unpad (s.decryptBytes c).1).getD [])
      { s with ivChain := (s.decryptBytes c).2 }) := by
  rw [execDecrypt_eq s c hc hl (rejectsLength_wholeBlocks s _ h0 h8) hm, stripPadding_blockMode s _ h, unpadCode]
  cases unpad (s.decryptBytes c).1 <;> rfl

/-- STATUS.ERR, OUTLEN and OUT after a DECRYPT whose padding is good. -/
theorem complete_of_unpad_eq_some (u : State) (q p : List Byte) (hq : q.length < 2 ^ 32) (h : unpad q = some p) :
    let t := complete 0x3 (unpadCode q) ((unpad q).getD []) u
    t.err = .ok ∧ t.outlen.toNat = p.length ∧ Memory.readBytes t.outBuf 0 p.length = some p := by
  have hp := unpad_length q p h
  rw [unpadCode, h]
  exact ⟨rfl, outlen_complete_toNat _ _ _ _ (by simp; omega), by simp [Memory.readBytes_ofBytes]⟩

/-- STATUS.ERR and OUTLEN after a DECRYPT whose padding is bad. -/
theorem complete_of_unpad_eq_none (u : State) (q : List Byte) (h : unpad q = none) :
    let t := complete 0x3 (unpadCode q) ((unpad q).getD []) u
    t.err = .padding ∧ t.outlen = 0 := by
  rw [unpadCode, h]
  exact ⟨rfl, rfl⟩

/-! ECB leaves IV_CHAIN alone (rule R126). -/

/-- ENCRYPT in ECB is the same completion of the state it runs in, whatever IV_CHAIN holds. -/
theorem execEncrypt_ecb (s : State) (m : List Byte) (hc : s.configured = true) (hl : s.sampledLen ≤ s.cfg.bufBytes)
    (h : s.aMode = .ecb) (hm : s.message = some m) :
    execEncrypt s = .next (complete 0x2 .ok (storeBlocks ((loadBlocks (pad m)).map s.blockE)) s) := by
  rw [execEncrypt_eq s m hc hl hm, encryptBytes_ecb s m h]

/-- DECRYPT in ECB is the same completion of the state it runs in, whatever IV_CHAIN holds. -/
theorem execDecrypt_ecb (s : State) (c q : List Byte) (hc : s.configured = true) (hl : s.sampledLen ≤ s.cfg.bufBytes)
    (h : s.aMode = .ecb) (h0 : 0 < s.sampledLen) (h8 : s.sampledLen % 8 = 0) (hm : s.message = some c)
    (hq : storeBlocks ((loadBlocks c).map s.blockD) = q) :
    execDecrypt s = .next (complete 0x3 (unpadCode q) ((unpad q).getD []) s) := by
  rw [execDecrypt_blockMode s c hc hl (by simp [h]) h0 h8 hm, decryptBytes_ecb s c h, hq]

/-- Settles O25: each command's bytes are stored block by block, and its completion is that of the state with another
IV_CHAIN. -/
theorem ecbBlockByBlock : Obligations.EcbBlockByBlock := by
  unfold Obligations.EcbBlockByBlock
  intro s m hw hc hecb hl hm
  have hmode : s.aMode ≠ .ofb := by simp [hecb]
  have hlen := message_length s m hm
  refine ⟨?_, fun h0 h8 => ?_⟩
  · have hout := outlen_encrypt_blockMode s s m hw hmode (by omega)
    have hblock := outBlock_encrypt_blockMode s s m (h := hmode)
    rw [encryptBytes_ecb s m hecb] at hout hblock
    refine ⟨_, execEncrypt_ecb s m hc hl hecb hm, rfl, rfl, rfl, rfl, hlen ▸ hout, fun j hj => ?_, rfl,
      fun v => execEncrypt_ecb { s with ivChain := v } m hc hl hecb hm⟩
    rw [hout] at hj
    rw [hblock j hj, blockAt_storeBlocks_map _ _ _ (by rwa [pad_length])]
  · have hq := decryptBytes_length s m (.inr (by omega))
    rw [decryptBytes_ecb s m hecb] at hq
    obtain ⟨-, -, hmax⟩ := hw
    exact ⟨_, _, hq.trans hlen, fun j hj => blockAt_storeBlocks_map _ _ _ (by omega),
      execDecrypt_ecb s m _ hc hl hecb h0 h8 hm rfl, rfl, rfl, rfl,
      fun p => complete_of_unpad_eq_some s _ p (by omega), complete_of_unpad_eq_none s _, rfl,
      fun v => execDecrypt_ecb { s with ivChain := v } m _ hc hl hecb h0 h8 hm rfl⟩

/-- Settles O26: the runs of CBC block by block, and the chaining values they leave. -/
theorem cbcChainsBlocks : Obligations.CbcChainsBlocks := by
  unfold Obligations.CbcChainsBlocks
  intro s m hw hc hcbc hl hm
  have hmode : s.aMode ≠ .ofb := by simp [hcbc]
  have hlen := message_length s m hm
  refine ⟨?_, fun h0 h8 => ?_⟩
  · have hout := fun u => outlen_encrypt_blockMode s u m hw hmode (by omega)
    refine ⟨_, execEncrypt_eq s m hc hl hm, rfl, rfl, rfl, rfl, hlen ▸ hout _, fun j hj => ?_, ?_⟩
    · rw [hout] at hj
      rw [outBlock_encrypt_blockMode s _ m j hmode hj, encryptBytes_cbc s m hcbc,
        blockAt_storeBlocks_cbcEncrypt _ _ _ _ (by rwa [pad_length])]
    · rw [hout, complete_ivChain, encryptBytes_cbc s m hcbc, ← pad_length]
      exact cbcEncrypt_loadBlocks_snd _ _ _ (by rw [pad_length, pad_length_mod])
  · have hq := decryptBytes_length s m (.inr (by omega))
    obtain ⟨-, -, hmax⟩ := hw
    refine ⟨_, _, hq.trans hlen, fun j hj => ?_, execDecrypt_blockMode s m hc hl hmode h0 h8 hm, rfl, rfl, rfl, ?_,
      fun p => complete_of_unpad_eq_some _ _ p (by omega), complete_of_unpad_eq_none _ _⟩
    · rw [decryptBytes_cbc s m hcbc, blockAt_storeBlocks_cbcDecrypt _ _ _ _ (by omega)]
    · rw [complete_ivChain, decryptBytes_cbc s m hcbc, ← hlen]
      exact cbcDecrypt_loadBlocks_snd _ _ m (by omega) (by omega)

/-! The lengths that are rejected, and the commands that complete (rules R130, R133 and R134). -/

/-- ENCRYPT of a length above BUF_BYTES. -/
theorem execEncrypt_tooLong (s : State) (hc : s.configured = true) (h : s.cfg.bufBytes < s.sampledLen) :
    execEncrypt s = .next (complete 0x2 .length [] s) := by
  rw [execEncrypt, if_neg (by simp [hc]), if_pos h]
  rfl

/-- DECRYPT of a length above BUF_BYTES, or of one the mode does not take. -/
theorem execDecrypt_badLength (s : State) (hc : s.configured = true)
    (h : s.cfg.bufBytes < s.sampledLen ∨ s.rejectsLength s.sampledLen = true) :
    execDecrypt s = .next (complete 0x3 .length [] s) := by
  rw [execDecrypt, if_neg (by simp [hc])]
  by_cases hl : s.cfg.bufBytes < s.sampledLen
  · rw [if_pos hl]
    rfl
  · rw [if_neg hl, if_pos (h.resolve_left hl)]
    rfl

/-- ENCRYPT of a message with an unwritten byte faults (rule R33). -/
theorem execEncrypt_noMessage (s : State) (hc : s.configured = true) (hl : s.sampledLen ≤ s.cfg.bufBytes)
    (hm : s.message = none) : execEncrypt s = .fault .uninitialisedInput := by
  have hm : Memory.readBytes s.inBuf 0 s.sampledLen = none := hm
  rw [execEncrypt, if_neg (by simp [hc]), if_neg (by omega), hm]

/-- DECRYPT of a ciphertext with an unwritten byte faults (rule R33). -/
theorem execDecrypt_noMessage (s : State) (hc : s.configured = true) (hl : s.sampledLen ≤ s.cfg.bufBytes)
    (hr : s.rejectsLength s.sampledLen = false) (hm : s.message = none) :
    execDecrypt s = .fault .uninitialisedInput := by
  have hm : Memory.readBytes s.inBuf 0 s.sampledLen = none := hm
  rw [execDecrypt, if_neg (by simp [hc]), if_neg (by omega), hr, hm]
  rfl

/-- An ENCRYPT of a length it takes that answers a next state has encrypted its message. -/
theorem execEncrypt_next (s t : State) (hc : s.configured = true) (hl : s.sampledLen ≤ s.cfg.bufBytes)
    (h : execEncrypt s = .next t) :
    ∃ m, m.length = s.sampledLen ∧
      t = complete 0x2 .ok (s.encryptBytes m).1 { s with ivChain := (s.encryptBytes m).2 } := by
  cases hm : s.message with
  | none => cases h.symm.trans (execEncrypt_noMessage s hc hl hm)
  | some m => exact ⟨m, message_length s m hm, Host.Outcome.next.inj (h.symm.trans (execEncrypt_eq s m hc hl hm))⟩

/-- DECRYPT in OFB that answers a next state has decrypted its ciphertext, and no padding is removed. -/
theorem execDecrypt_next_ofb (s t : State) (hc : s.configured = true) (hl : s.sampledLen ≤ s.cfg.bufBytes)
    (hofb : s.aMode = .ofb) (h : execDecrypt s = .next t) :
    ∃ c, c.length = s.sampledLen ∧
      t = complete 0x3 .ok (s.decryptBytes c).1 { s with ivChain := (s.decryptBytes c).2 } := by
  have hr := rejectsLength_ofb s s.sampledLen hofb
  cases hm : s.message with
  | none => cases h.symm.trans (execDecrypt_noMessage s hc hl hr hm)
  | some c =>
    have he := execDecrypt_eq s c hc hl hr hm
    rw [stripPadding_ofb s _ hofb] at he
    exact ⟨c, message_length s c hm, Host.Outcome.next.inj (h.symm.trans he)⟩

/-- Settles O28: the lengths of what the completing commands write, and the two length checks. -/
theorem lengthsByMode : Obligations.LengthsByMode := by
  unfold Obligations.LengthsByMode
  intro s hw hc
  refine ⟨fun t hl hmode h => ?_, fun i t hi hl hofb h => ?_, fun hmode hbad => ?_, fun hlong => ?_⟩
  · obtain ⟨m, hlen, rfl⟩ := execEncrypt_next s t hc hl h
    refine ⟨rfl, ?_⟩
    rw [outlen_encrypt_blockMode s _ m hw hmode (by omega), hlen, padCount]
    omega
  · obtain ⟨-, -, hmax⟩ := hw
    rcases hi with rfl | rfl
    · obtain ⟨m, hlen, rfl⟩ := execEncrypt_next s t hc hl h
      have hout : (s.encryptBytes m).1.length = m.length := by rw [encryptBytes_ofb s m hofb, ofbRun_length]
      exact ⟨rfl, by rw [outlen_complete_toNat _ _ _ _ (by omega), hout, hlen]⟩
    · obtain ⟨c, hlen, rfl⟩ := execDecrypt_next_ofb s t hc hl hofb h
      have hout := decryptBytes_length s c (.inl hofb)
      exact ⟨rfl, by rw [outlen_complete_toNat _ _ _ _ (by omega), hout, hlen]⟩
  · exact execDecrypt_badLength s hc (.inr ((rejectsLength_iff s _).2 ⟨hmode, hbad⟩))
  · exact ⟨execEncrypt_tooLong s hc hlong, execDecrypt_badLength s hc (.inl hlong)⟩

end Sys2Proof.Machine
end

section
/-! PROOF. What a CMD write starts or drops, and what INIT answers: O23, O43 and O44. -/

namespace Sys2Proof.Machine

/-! What INIT answers, check by check in the order of rule R142. -/

/-- The key length INIT wants, algorithm by algorithm (rule R141). -/
theorem ctrlKeylen_eq_keyBytes_iff (c : Word) :
    ctrlKeylen c = (ctrlAlg c).keyBytes ↔
      (ctrlAlg c = .des ∧ ctrlKeylen c = 8) ∨ (ctrlAlg c = .tdes ∧ ctrlKeylen c = 24) := by
  cases ctrlAlg c <;> simp [Alg.keyBytes]

/-- Only ECB needs no IV (rule R141). -/
theorem needsIv_iff (m : Mode) : m.needsIv = true ↔ m ≠ .ecb := by cases m <;> decide

/-- The first check of INIT, the key length. -/
theorem execInit_of_badKeyLength (s : State)
    (hk : ctrlKeylen s.sampledInit.ctrl ≠ (ctrlAlg s.sampledInit.ctrl).keyBytes) :
    execInit s = .next (complete 0x1 .validation [] s) := by
  rw [execInit, if_pos hk, raiseError]

/-- The second check of INIT, the mode. -/
theorem execInit_of_badMode (s : State)
    (hk : ctrlKeylen s.sampledInit.ctrl = (ctrlAlg s.sampledInit.ctrl).keyBytes) (hm : ctrlMode s.sampledInit.ctrl = none) :
    execInit s = .next (complete 0x1 .unsupportedMode [] s) := by
  rw [execInit, if_neg (not_not.2 hk), hm, raiseError]

/-- The third check of INIT, the IV length in CBC and OFB. -/
theorem execInit_of_badIvLength (s : State) (m : Mode)
    (hk : ctrlKeylen s.sampledInit.ctrl = (ctrlAlg s.sampledInit.ctrl).keyBytes) (hm : ctrlMode s.sampledInit.ctrl = some m)
    (hiv : m ≠ .ecb) (hv : ctrlIvlen s.sampledInit.ctrl ≠ 8) :
    execInit s = .next (complete 0x1 .validation [] s) := by
  rw [execInit, if_neg (not_not.2 hk), hm]
  exact if_pos ⟨(needsIv_iff m).2 hiv, hv⟩

/-- INIT latches the sampled registers where every check passes. -/
theorem execInit_of_checksPass (s : State) (m : Mode)
    (hk : ctrlKeylen s.sampledInit.ctrl = (ctrlAlg s.sampledInit.ctrl).keyBytes) (hm : ctrlMode s.sampledInit.ctrl = some m)
    (hv : m = .ecb ∨ ctrlIvlen s.sampledInit.ctrl = 8) :
    execInit s = .next (complete 0x1 .ok [] (s.latch m s.sampledInit)) := by
  rw [execInit, if_neg (not_not.2 hk), hm]
  refine if_neg ?_
  rintro ⟨hiv, hne⟩
  exact hv.elim ((needsIv_iff m).1 hiv) hne

/-- Settles O23: the four answers of INIT, and the last of them on the worked example. -/
theorem initLatchesOrReportsFirstFailure : Obligations.InitLatchesOrReportsFirstFailure := by
  unfold Obligations.InitLatchesOrReportsFirstFailure
  intro s c keyOk failed
  have hkey : ctrlKeylen c = (ctrlAlg c).keyBytes ↔ keyOk := ctrlKeylen_eq_keyBytes_iff c
  refine ⟨fun hk => execInit_of_badKeyLength s (mt hkey.1 hk), fun hk hm => execInit_of_badMode s (hkey.2 hk) hm,
    fun m hk hm hiv hv => execInit_of_badIvLength s m (hkey.2 hk) hm hiv hv,
    fun m hk hm hv => execInit_of_checksPass s m (hkey.2 hk) hm hv, fun hc => ?_⟩
  have hk : ctrlKeylen c = (ctrlAlg c).keyBytes := by rw [hc]; rfl
  have hm : ctrlMode c = some .cbc := by rw [hc]; rfl
  have ha : ctrlAlg c = .des := by rw [hc]; rfl
  have hv : ctrlIvlen c = 8 := by rw [hc]; rfl
  exact ⟨_, execInit_of_checksPass s .cbc hk hm (.inr hv), rfl, rfl, ha, rfl, rfl⟩

/-! The CMD register (rules R137 and R139). -/

/-- A block whose BUSY is 0 has no command in progress. -/
theorem running_eq_none_of_idle (s : State) (h : s.busy = false) : s.running = none := by
  simpa [State.busy] using h

/-- A CMD write to a busy block sets OVR and does nothing else (rule R139). -/
theorem step_writeCmd_busy (s : State) (w : Word) (hl : s.resetLine = false) (hb : s.busy = true) :
    step (s.hostWrites 0x008 .word w) = .next { s.noteWrite with ovr := true } := by
  have hb' : s.noteWrite.busy = true := hb
  rw [step_writeReg s 0x008 .cmd w (by decide) rfl rfl hl, writeReg, writeCmd, if_pos hb']

/-- What accept samples for INIT besides the command word and LEN (rule R137). -/
theorem sample_init (s : State) (w : Word) (h : opField w = 0x1) : (s.sample w).init = some s.liveInit := if_pos h

/-- Settles O43: the accepted state is `step_writeCmd_idle`, and an access's frame holds the command in progress. -/
theorem acceptSamplesOperands : Obligations.AcceptSamplesOperands := by
  unfold Obligations.AcceptSamplesOperands
  constructor
  · intro s w hl hidle
    have accepted := step_writeCmd_idle s w hl (running_eq_none_of_idle s hidle)
    exact ⟨_, s.noteWrite.sample w, accepted, rfl, rfl, rfl, rfl, rfl, sample_init s.noteWrite w, rfl⟩
  · intro s t addr width d r rest hl hr hb h
    rw [step_host s _ rest hl hb] at h
    obtain ⟨-, -, -, -, -, -, -, -, -, -, -, -, -, -, -, hrun⟩ := hostAccess_frame _ _ t h
    exact hrun r hr

/-- Settles O44: the busy branch of a CMD write. -/
theorem commandWhileBusyIsDropped : Obligations.CommandWhileBusyIsDropped := step_writeCmd_busy

end Sys2Proof.Machine
end

section
/-! PROOF. What every completion leaves in STATUS, and what an error leaves: O34 and O36. -/

namespace Sys2Proof.Machine

/-! O34. -/

/-- Bits 11:8 of STATUS are the number of ERR (rules R63 and R146). -/
theorem statusWord_err (s : State) : s.statusWord.extractLsb' 8 4 = s.err.code := by
  rw [State.statusWord]
  iterate 6 rw [BitVec.extractLsb'_append_eq_of_le (by decide)]
  exact BitVec.extractLsb'_append_eq_right

/-- The codes 7 to 15 have no name (rule R146). -/
theorem code_toNat_le (e : ErrCode) : e.code.toNat ≤ 6 := by cases e <;> decide

/-- Settles O34: the frame of a command gives the flags, and the field of STATUS and the bound on it hold in every state. -/
theorem completionWritesStatus : Obligations.CompletionWritesStatus := by
  refine ⟨fun i s t h => ?_, rfl, rfl, rfl, rfl, rfl, rfl, rfl⟩
  obtain ⟨hrun, hdone, hop, -, hctrl, -, -, -, -, -, hovr, hacc, -⟩ := exec_frame i s t h
  have hirq : t.irq = ctrlIrqen s.ctrl := by rw [State.irq, hdone, hctrl, Bool.true_and]
  have hbusy : t.busy = false := by rw [State.busy, hrun, Option.isSome_none]
  exact ⟨hbusy, hdone, hop, statusWord_err t, code_toNat_le t.err, hirq, hovr, hacc⟩

/-! O36. -/

/-- An error is found before any block is processed, and completes the state as it was, or it is the bad padding that DECRYPT
finds after the last block (rules R148 and R149). -/
theorem exec_error_cases (i : Instr) (s t : State) (h : exec i s = .next t) (he : t.err ≠ .ok) :
    (∃ code, code ≠ .padding ∧ t = complete (opcode i) code [] s) ∨
    (i = .decrypt ∧ ∃ c, s.message = some c ∧ s.rejectsLength s.sampledLen = false ∧
      s.stripPadding (s.decryptBytes c).1 = none ∧
      t = complete (opcode i) .padding [] { s with ivChain := (s.decryptBytes c).2 }) := by
  rcases defined_or_reserved i with rfl | rfl | rfl | rfl | ⟨ksel, rfl⟩ | hi
  · rcases execInit_cases s t h with ⟨code, -, hp, e⟩ | ⟨m, -, rfl⟩
    · exact .inl ⟨code, hp, e⟩
    · exact absurd rfl he
  · rcases execEncrypt_cases s t h with ⟨code, -, hp, e⟩ | ⟨-, -, m, -, rfl⟩
    · exact .inl ⟨code, hp, e⟩
    · exact absurd rfl he
  · rcases execDecrypt_cases s t h with ⟨code, -, hp, e⟩ | ⟨-, -, hr, c, hm, ⟨hs, e⟩ | ⟨out, -, rfl⟩⟩
    · exact .inl ⟨code, hp, e⟩
    · exact .inr ⟨rfl, c, hm, hr, hs, e⟩
    · exact absurd rfl he
  · rcases execResetIv_cases s t h with e | ⟨-, rfl⟩
    · exact .inl ⟨_, by decide, e⟩
    · exact absurd rfl he
  · rcases execKsread_cases ksel s t h with ⟨code, -, hp, e⟩ | ⟨-, k, -, rfl⟩
    · exact .inl ⟨code, hp, e⟩
    · exact absurd rfl he
  · exact .inl ⟨_, by decide, Host.Outcome.next.inj (h.symm.trans (exec_reserved i s hi))⟩

/-- OFB has no padding to be bad (rule R134). -/
theorem aMode_ne_ofb_of_stripPadding_eq_none (s : State) (q : List Byte) (h : s.stripPadding q = none) : s.aMode ≠ .ofb := by
  intro hofb
  rw [stripPadding_ofb s q hofb] at h
  cases h

/-- A length that DECRYPT takes in ECB or CBC is of whole blocks, and at least one (rule R130). -/
theorem wholeBlocks_of_not_rejectsLength (s : State) (n : Nat) (h : s.aMode ≠ .ofb) (hr : s.rejectsLength n = false) :
    0 < n ∧ n % 8 = 0 := by
  have hbad : ¬(n = 0 ∨ n % 8 ≠ 0) := fun hbad => by simp [(rejectsLength_iff s n).2 ⟨h, hbad⟩] at hr
  omega

/-- A CBC DECRYPT of a length it takes leaves the chain at the last ciphertext block (rules R127 and R149). -/
theorem decryptBytes_cbc_snd (s : State) (c : List Byte) (h : s.aMode = .cbc) (hr : s.rejectsLength c.length = false) :
    (s.decryptBytes c).2 = blockAt c (c.length / 8 - 1) := by
  obtain ⟨h0, h8⟩ := wholeBlocks_of_not_rejectsLength s c.length (by simp [h]) hr
  rw [decryptBytes_cbc s c h]
  exact cbcDecrypt_loadBlocks_snd _ _ c h0 h8

/-- Settles O36: an error found before any block completes the state as it was, and a bad padding leaves the chain where the
mode's run ended. -/
theorem errorsLeaveConfigurationAndChain : Obligations.ErrorsLeaveConfigurationAndChain := by
  intro i s t h he
  rcases exec_error_cases i s t h he with ⟨code, hp, rfl⟩ | ⟨hi, c, hm, hr, hs, rfl⟩
  · exact ⟨rfl, fun _ => rfl, fun hpad => absurd hpad hp⟩
  · refine ⟨rfl, fun hne => absurd rfl hne, fun _ => ⟨hi, aMode_ne_ofb_of_stripPadding_eq_none s _ hs, fun hecb => ?_,
      fun c' hcbc hm' => ?_⟩⟩
    · rw [complete_ivChain, decryptBytes_ecb s c hecb]
    · obtain rfl := Option.some.inj (hm.symm.trans hm')
      rw [← message_length s c hm] at hr ⊢
      exact decryptBytes_cbc_snd s c hcbc hr

end Sys2Proof.Machine
end

section
/-! PROOF. A write of the host to IN while a command runs: O49. -/

namespace Sys2Proof.Machine

/-- An ENCRYPT or a DECRYPT in progress is a cipher command in progress (rule R47). -/
theorem runsCipher_of_running (s : State) (r : Command) (hr : s.running = some r) (hop : r.op = 0x2 ∨ r.op = 0x3) :
    s.runsCipher = true := by
  rw [State.runsCipher, hr]
  simpa using hop

/-- A write to IN while a cipher command is in progress is the race of rule R166. -/
theorem writeIn_of_runsCipher (off : Nat) (w : AccessWidth) (d : Word) (s : State) (h : s.runsCipher = true) :
    writeIn off w d s = .fault .hostRaceOnIN := by
  rw [writeIn, if_pos h]

/-- An aligned write to the IN window, of any width, is taken and is a write to IN (rules R38 and R41). -/
theorem hostWrite_in (s : State) (k : Nat) (w : AccessWidth) (d : Word) (hk : k < s.cfg.bufBytes)
    (ha : k % w.bytes = 0) : hostWrite (0x4000 + k) w d s = writeIn (0x4000 + k) w d s.noteWrite := by
  have align : (0x4000 + k) % w.bytes = 0 := by
    cases w <;> simp only [AccessWidth.bytes] at ha ⊢ <;> omega
  have htaken : taken s.cfg (0x4000 + k) w = true := (taken_iff s.cfg _ w).2 ⟨.inr (by omega), align⟩
  rw [hostWrite, if_pos htaken, takenWrite, noteWrite_cfg, regionOf_in s.cfg k hk]

/-- Settles O49: the write reaches IN, and the command in progress is still the one it races when the write is noted. -/
theorem inWriteWhileCipherRunsFaults : Obligations.InWriteWhileCipherRunsFaults := by
  unfold Obligations.InWriteWhileCipherRunsFaults
  intro s k w d r hl hw hk ha hr hop
  obtain ⟨-, -, hmax⟩ := hw
  rw [step_hostWrites s (0x4000 + k) w d (by omega) hl, hostWrite_in s k w d hk ha]
  exact writeIn_of_runsCipher _ w d s.noteWrite (runsCipher_of_running s.noteWrite r hr hop)

end Sys2Proof.Machine
end

section
/-! PROOF. The command word both ways, and the words written out: O1, O3 and O4. -/

namespace Sys2Proof

/-- The fields OP and KSEL of every well-formed command decode to it (rules R55 and R70). -/
theorem decodeFields_opcode_kselOf (i : Instr) (h : WellFormed i) : decodeFields (opcode i) (kselOf i) = i := by
  cases i with
  | ksread ksel => exact Laws.FieldsDecode.ksread ksel h
  | init | encrypt | decrypt | resetIv | reserved0 | reserved6 | reserved7 | reserved8 | reserved9 | reservedA | reservedB
  | reservedC | reservedD | reservedE | reservedF => rfl

/-- The word of a well-formed command decodes to the command. -/
theorem decodeWord_encodeWord (i : Instr) (h : WellFormed i) : decodeWord (encodeWord i) = i := by
  rw [decodeWord, opField_encodeWord, kselField_encodeWord, decodeFields_opcode_kselOf i h]

/-- Settles O3: the four bytes join to the encoded word, whose fields decode to the command. -/
theorem decodeOfEncodeIsTheCommand : Obligations.DecodeOfEncodeIsTheCommand := by
  intro i rest h
  rw [encode, decode_wordBytes, decodeWord_encodeWord i h]

/-- Only KSREAD has an operand that must fit its field (rule R55). -/
theorem wellFormed_of_ksread (i : Instr) (h : ∀ k, i = .ksread k → k < 4) : WellFormed i := by
  cases i with
  | ksread ksel => exact h ksel rfl
  | init | encrypt | decrypt | resetIv | reserved0 | reserved6 | reserved7 | reserved8 | reserved9 | reservedA | reservedB
  | reservedC | reservedD | reservedE | reservedF => trivial

/-- What the opcode map gives is well-formed: KSEL comes from a 2-bit field. -/
theorem wellFormed_decodeFields (op : BitVec 4) (ksel : BitVec 2) : WellFormed (decodeFields op ksel) := by
  refine wellFormed_of_ksread _ fun k h => ?_
  obtain rfl : op = 0x5 := by
    rw [← Machine.opcode_decodeFields op ksel, h]
    rfl
  obtain rfl : ksel.toNat = k := Instr.ksread.inj h
  exact ksel.isLt

/-- KSREAD alone keeps KSEL: every other command is written with 0 there (rule R55). -/
theorem kselOf_decodeFields (op : BitVec 4) (ksel : BitVec 2) :
    kselOf (decodeFields op ksel) = if op = 0x5 then ksel else 0 := by
  revert op ksel
  decide

/-- The fields of an encoded word stand in the six low bits. -/
theorem encodeWord_eq (i : Instr) : encodeWord i = (kselOf i ++ opcode i).setWidth 32 := by
  rw [encodeWord, BitVec.append_assoc, BitVec.setWidth_eq_append (by decide)]

/-- Settles O4: the word is rebuilt from the two fields, and KSEL is kept for KSREAD alone. -/
theorem encodeOfDecodeKeepsReadBits : Obligations.EncodeOfDecodeKeepsReadBits := by
  intro w
  refine ⟨wellFormed_decodeFields _ _, ?_⟩
  rw [encodeWord_eq, decodeWord, Machine.opcode_decodeFields, kselOf_decodeFields]
  by_cases h : opField w = 0x5
  · have hm : w &&& 0xF = 0x5 := (opField_eq_iff w 0x5).1 h
    rw [if_pos h, if_pos hm, and_op_ksel]
  · have hm : w &&& 0xF ≠ 0x5 := mt (opField_eq_iff w 0x5).2 h
    rw [if_neg h, if_neg hm, and_op]
    apply BitVec.eq_of_toNat_eq
    rw [BitVec.toNat_setWidth, BitVec.toNat_append]
    simp

/-- Settles O1: the ten words, decoded. -/
theorem writtenOutWordsDecode : Obligations.WrittenOutWordsDecode :=
  ⟨rfl, rfl, rfl, rfl, rfl, rfl, rfl, rfl, rfl, rfl⟩

end Sys2Proof
end

section
/-! PROOF. What every command leaves, and where one stops: O29, O30 and O35. -/

namespace Sys2Proof.Machine

/-! O29. -/

/-- Before a successful INIT the four commands that need one report NotConfigured (rule R148). -/
theorem exec_unconfigured (i : Instr) (s : State)
    (hi : i = .encrypt ∨ i = .decrypt ∨ i = .resetIv ∨ ∃ ksel, i = .ksread ksel) (hc : s.configured = false) :
    exec i s = .next (complete (opcode i) .notConfigured [] s) := by
  rcases hi with rfl | rfl | rfl | ⟨ksel, rfl⟩ <;> exact if_pos hc

/-- Settles O29: the first check of each of the four commands. -/
theorem unconfiguredCommandsReportIt : Obligations.UnconfiguredCommandsReportIt := fun s i => exec_unconfigured i s

/-! O30. -/

/-- ENCRYPT stops exactly on a message with an unwritten byte, past its checks (rule R133). -/
theorem execEncrypt_fault_iff (s : State) (e : Fault) : execEncrypt s = .fault e ↔
    e = .uninitialisedInput ∧ s.configured = true ∧ s.sampledLen ≤ s.cfg.bufBytes ∧ s.message = none := by
  constructor
  · intro h
    by_cases hc : s.configured = true
    · by_cases hl : s.sampledLen ≤ s.cfg.bufBytes
      · cases hm : s.message with
        | none =>
          rw [execEncrypt_noMessage s hc hl hm] at h
          exact ⟨(Host.Outcome.fault.inj h).symm, hc, hl, rfl⟩
        | some m => cases h.symm.trans (execEncrypt_eq s m hc hl hm)
      · cases h.symm.trans (execEncrypt_tooLong s hc (by omega))
    · cases h.symm.trans (exec_unconfigured .encrypt s (.inl rfl) (by simpa using hc))
  · rintro ⟨rfl, hc, hl, hm⟩
    exact execEncrypt_noMessage s hc hl hm

/-- DECRYPT that takes its length answers a next state where its ciphertext is whole. -/
theorem execDecrypt_ne_fault (s : State) (c : List Byte) (e : Fault) (hc : s.configured = true)
    (hl : s.sampledLen ≤ s.cfg.bufBytes) (hr : s.rejectsLength s.sampledLen = false) (hm : s.message = some c) :
    execDecrypt s ≠ .fault e := by
  rw [execDecrypt_eq s c hc hl hr hm]
  cases s.stripPadding (s.decryptBytes c).1 <;> simp

/-- DECRYPT stops exactly on a ciphertext with an unwritten byte, past its checks (rule R134). -/
theorem execDecrypt_fault_iff (s : State) (e : Fault) : execDecrypt s = .fault e ↔
    e = .uninitialisedInput ∧ s.configured = true ∧ s.sampledLen ≤ s.cfg.bufBytes ∧
      s.rejectsLength s.sampledLen = false ∧ s.message = none := by
  constructor
  · intro h
    by_cases hc : s.configured = true
    · by_cases hl : s.cfg.bufBytes < s.sampledLen ∨ s.rejectsLength s.sampledLen = true
      · cases h.symm.trans (execDecrypt_badLength s hc hl)
      · obtain ⟨hfit, hr⟩ := not_or.1 hl
        rw [Nat.not_lt] at hfit
        rw [Bool.not_eq_true] at hr
        cases hm : s.message with
        | none =>
          rw [execDecrypt_noMessage s hc hfit hr hm] at h
          exact ⟨(Host.Outcome.fault.inj h).symm, hc, hfit, hr, rfl⟩
        | some c => exact absurd h (execDecrypt_ne_fault s c e hc hfit hr hm)
    · cases h.symm.trans (exec_unconfigured .decrypt s (.inr (.inl rfl)) (by simpa using hc))
  · rintro ⟨rfl, hc, hl, hr, hm⟩
    exact execDecrypt_noMessage s hc hl hr hm

/-- Of the commands only ENCRYPT and DECRYPT can stop (rule R159). -/
theorem exec_fault_cipher (i : Instr) (s : State) (e : Fault) (h : exec i s = .fault e) : i = .encrypt ∨ i = .decrypt := by
  rcases defined_or_reserved i with rfl | rfl | rfl | rfl | ⟨ksel, rfl⟩ | hi
  · simp only [exec, execInit, raiseError, succeed] at h
    split_ifs at h
    split at h
    · cases h
    · split_ifs at h
  · exact .inl rfl
  · exact .inr rfl
  · simp only [exec, execResetIv, raiseError, succeed] at h
    split_ifs at h
  · simp only [exec, execKsread, raiseError, succeed] at h
    split_ifs at h
    split at h <;> cases h
  · cases h.symm.trans (exec_reserved i s hi)

/-- The lengths DECRYPT takes (rule R130). -/
theorem rejectsLength_eq_false_iff (s : State) (n : Nat) :
    s.rejectsLength n = false ↔ s.aMode = .ofb ∨ (0 < n ∧ n % 8 = 0) := by
  rw [← Bool.not_eq_true, rejectsLength_iff]
  by_cases hm : s.aMode = .ofb
  · simp [hm]
  · simp only [hm, ne_eq, not_false_eq_true, true_and, false_or]
    omega

/-- Settles O30: the two commands that can stop, each with its exact condition. -/
theorem onlyUninitialisedInputFaults : Obligations.OnlyUninitialisedInputFaults := by
  refine fun i s => ⟨exec_not_refused i s, fun e => ?_⟩
  by_cases hi : i = .encrypt ∨ i = .decrypt
  · rcases hi with rfl | rfl
    · rw [show exec .encrypt s = execEncrypt s from rfl, execEncrypt_fault_iff, message_eq_none]
      simp
    · rw [show exec .decrypt s = execDecrypt s from rfl, execDecrypt_fault_iff, rejectsLength_eq_false_iff, message_eq_none]
      simp
  · refine iff_of_false (fun h => hi (exec_fault_cipher i s e h)) ?_
    rintro ⟨-, -, -, henc | ⟨hdec, -⟩, -⟩
    · exact hi (.inl henc)
    · exact hi (.inr hdec)

/-! O35. -/

/-- The active configuration and IV_INIT stand in `t` as in `s` (rules R21 and R23). -/
def State.SameConfig (s t : State) : Prop :=
  t.configured = s.configured ∧ t.aMode = s.aMode ∧ t.aAlg = s.aAlg ∧ t.aK0 = s.aK0 ∧ t.aK1 = s.aK1 ∧ t.aK2 = s.aK2 ∧
    t.ivInit = s.ivInit

/-- Every command but INIT leaves the active configuration and IV_INIT (rules R21 and R23). -/
theorem exec_sameConfig (i : Instr) (s t : State) (hi : i ≠ .init) (h : exec i s = .next t) : s.SameConfig t := by
  obtain ⟨code, out, u, rfl, rfl | ⟨v, rfl, -⟩ | ⟨m, -, -, e⟩⟩ := exec_completes i s t h
  · exact ⟨rfl, rfl, rfl, rfl, rfl, rfl, rfl⟩
  · exact ⟨rfl, rfl, rfl, rfl, rfl, rfl, rfl⟩
  · exact absurd e hi

/-- ENCRYPT and DECRYPT in ECB, and every command but these, INIT and RESET_IV, leave IV_CHAIN (rules R23 and R126). -/
theorem exec_ivChain (i : Instr) (s t : State) (hinit : i ≠ .init) (hreset : i ≠ .resetIv)
    (hmode : (i ≠ .encrypt ∧ i ≠ .decrypt) ∨ s.aMode = .ecb) (h : exec i s = .next t) : t.ivChain = s.ivChain := by
  rcases hmode with ⟨henc, hdec⟩ | hecb
  · obtain ⟨code, out, u, rfl, rfl | ⟨v, rfl, e⟩ | ⟨m, -, -, e⟩⟩ := exec_completes i s t h
    · rfl
    · rcases e with e | e | e
      · exact absurd e henc
      · exact absurd e hdec
      · exact absurd e hreset
    · exact absurd e hinit
  · rcases defined_or_reserved i with rfl | rfl | rfl | rfl | ⟨ksel, rfl⟩ | hi
    · exact absurd rfl hinit
    · rcases execEncrypt_cases s t h with ⟨code, -, -, rfl⟩ | ⟨-, -, m, -, rfl⟩
      · rfl
      · rw [complete_ivChain, encryptBytes_ecb s m hecb]
    · rcases execDecrypt_cases s t h with ⟨code, -, -, rfl⟩ | ⟨-, -, -, c, -, ⟨-, rfl⟩ | ⟨out, -, rfl⟩⟩
      · rfl
      · rw [complete_ivChain, decryptBytes_ecb s c hecb]
      · rw [complete_ivChain, decryptBytes_ecb s c hecb]
    · exact absurd rfl hreset
    · rcases execKsread_cases ksel s t h with ⟨code, -, -, rfl⟩ | ⟨-, k, -, rfl⟩ <;> rfl
    · cases h.symm.trans (exec_reserved i s hi)
      rfl

/-- What is left of DECRYPT's bytes is no longer than the ciphertext. -/
theorem stripPadding_decryptBytes_length (s : State) (c out : List Byte) (hr : s.rejectsLength c.length = false)
    (h : s.stripPadding (s.decryptBytes c).1 = some out) : out.length ≤ c.length := by
  rw [rejectsLength_eq_false_iff] at hr
  rw [← decryptBytes_length s c (hr.imp_right And.right)]
  by_cases hm : s.aMode = .ofb
  · rw [stripPadding_ofb s _ hm] at h
    rw [Option.some.inj h]
  · rw [stripPadding_blockMode s _ hm] at h
    exact unpad_length _ _ h

/-- A completed command puts at most OUT_BYTES bytes in OUT (rules R8 and R26). -/
theorem exec_output (i : Instr) (s t : State) (hw : s.cfg.wf) (h : exec i s = .next t) :
    ∃ out, t.outBuf = Memory.ofBytes 0 out ∧ t.outlen = BitVec.ofNat 32 out.length ∧ out.length ≤ s.cfg.outBytes := by
  obtain ⟨-, hmin, -⟩ := hw
  have empty (op code) (u : State) : ∃ out, (complete op code [] u).outBuf = Memory.ofBytes 0 out ∧
      (complete op code [] u).outlen = BitVec.ofNat 32 out.length ∧ out.length ≤ s.cfg.outBytes :=
    ⟨[], rfl, rfl, Nat.zero_le _⟩
  rcases defined_or_reserved i with rfl | rfl | rfl | rfl | ⟨ksel, rfl⟩ | hi
  · rcases execInit_cases s t h with ⟨code, -, -, rfl⟩ | ⟨m, -, rfl⟩ <;> exact empty _ _ _
  · rcases execEncrypt_cases s t h with ⟨code, -, -, rfl⟩ | ⟨-, hl, m, hm, rfl⟩
    · exact empty _ _ _
    · have hlen := message_length s m hm
      have hout := encryptBytes_length_le s m
      exact ⟨_, rfl, rfl, by rw [Config.outBytes]; omega⟩
  · rcases execDecrypt_cases s t h with ⟨code, -, -, rfl⟩ | ⟨-, hl, hr, c, hm, ⟨-, rfl⟩ | ⟨out, hs, rfl⟩⟩
    · exact empty _ _ _
    · exact empty _ _ _
    · rw [← message_length s c hm] at hl hr
      have hout := stripPadding_decryptBytes_length s c out hr hs
      exact ⟨out, rfl, rfl, by rw [Config.outBytes]; omega⟩
  · rcases execResetIv_cases s t h with rfl | ⟨-, rfl⟩ <;> exact empty _ _ _
  · rcases execKsread_cases ksel s t h with ⟨code, -, -, rfl⟩ | ⟨-, k, -, rfl⟩
    · exact empty _ _ _
    · exact ⟨_, rfl, rfl, by rw [scheduleBytes_length, Config.outBytes]; omega⟩
  · cases h.symm.trans (exec_reserved i s hi)
    exact empty _ _ _

/-- After a completed command a byte of OUT is specified exactly below OUTLEN, which fits OUT (rules R26 and R44). -/
theorem exec_outValid (i : Instr) (s t : State) (hw : s.cfg.wf) (h : exec i s = .next t) :
    Memory.wf t.outBuf ∧ (∀ k, (Memory.read t.outBuf k).isSome = true ↔ k < t.outlen.toNat) ∧
      t.outlen.toNat ≤ s.cfg.outBytes := by
  obtain ⟨out, hbuf, hlen, hfit⟩ := exec_output i s t hw h
  obtain ⟨-, -, hmax⟩ := hw
  have hn : t.outlen.toNat = out.length := by
    rw [hlen, BitVec.toNat_ofNat, Nat.mod_eq_of_lt]
    rw [Config.outBytes] at hfit
    omega
  refine ⟨hbuf ▸ Memory.wf_ofBytes out 0, fun k => ?_, hn ▸ hfit⟩
  rw [hbuf, hn, Memory.read_ofBytes]
  by_cases hk : k < out.length <;> simp [hk]

/-- Settles O35: the frame, the configuration, the chain and the output of a completed command. -/
theorem commandFrame : Obligations.CommandFrame := by
  intro i s t hw h
  obtain ⟨-, -, -, hcfg, hctrl, hlen, hk0, hk1, hk2, hiv, hovr, hacc, hin, hline, hbus, hans⟩ := exec_frame i s t h
  obtain ⟨-, hvalid, hfit⟩ := exec_outValid i s t hw h
  exact ⟨⟨hcfg, hctrl, hlen, hk0, hk1, hk2, hiv, hovr, hacc, hbus, hans, hline⟩, fun a => by rw [hin],
    fun hi => exec_sameConfig i s t hi h, fun h1 h2 h3 => exec_ivChain i s t h1 h2 h3 h, hvalid, hcfg ▸ hfit⟩

end Sys2Proof.Machine
end

section
/-! PROOF. The invariant at reset and over every step: O56 and O57. -/

namespace Sys2Proof.Machine

/-! At reset, whatever the reset input, the pending events, the answer and the draw counter. -/

/-- A block at its reset values meets the invariant (rules R32 and R160). -/
theorem resetWith_inv (c : Config) (hc : c.wf) (level : Bool) (bus : List BusEvent) (answer : Option Word) (draws : Nat) :
    ({ State.resetWith c with resetLine := level, bus := bus, answer := answer, draws := draws } : State).Inv where
  params := hc
  ctrlReserved := BitVec.zero_and
  inForm := .nil
  inSize := fun _ h => absurd h List.not_mem_nil
  outForm := .nil
  outValid := fun k => by simp [State.resetWith]
  outSize := Nat.zero_le _
  unconfigured := fun _ => ⟨rfl, rfl, rfl, rfl, rfl, rfl, rfl⟩
  sampledOnlyByInit := fun _ h => by cases h
  sampledReserved := fun _ _ h => by cases h
  held := by rintro (rfl : level = true); rfl

/-- Settles O56: the reset values with the input released and nothing pending. -/
theorem resetMeetsInvariant : Obligations.ResetMeetsInvariant :=
  ⟨fun c hc => resetWith_inv c hc false [] none 0, resetWith_inv Config.default (by decide) false [] none 0⟩

/-! A command. -/

/-- A command that leaves the block unconfigured found it so, and left the active configuration and the chain (rule R32). -/
theorem exec_unconfigured_frame (i : Instr) (s t : State) (h : exec i s = .next t) (hc : t.configured = false) :
    s.configured = false ∧ s.SameConfig t ∧ t.ivChain = s.ivChain := by
  have same {op code out} (e : t = complete op code out s) :
      s.configured = false ∧ s.SameConfig t ∧ t.ivChain = s.ivChain := by
    subst e
    exact ⟨hc, ⟨rfl, rfl, rfl, rfl, rfl, rfl, rfl⟩, rfl⟩
  obtain ⟨code, out, u, e, rfl | ⟨v, rfl, hi⟩ | ⟨m, -, rfl, -⟩⟩ := exec_completes i s t h
  · exact same e
  · have hs : s.configured = false := by rw [← hc, e]; rfl
    have hi' : i = .encrypt ∨ i = .decrypt ∨ i = .resetIv ∨ ∃ ksel, i = .ksread ksel := by tauto
    exact same (Host.Outcome.next.inj (h.symm.trans (exec_unconfigured i s hi' hs)))
  · rw [e] at hc
    cases hc

/-- A completed command keeps the invariant. -/
theorem exec_keeps_inv (i : Instr) (s t : State) (hs : s.Inv) (hl : s.resetLine = false) (h : exec i s = .next t) : t.Inv := by
  obtain ⟨hrun, -, -, hcfg, hctrl, -, -, -, -, -, -, -, hin, hline, -, -⟩ := exec_frame i s t h
  obtain ⟨hform, hvalid, hfit⟩ := exec_outValid i s t hs.params h
  exact {
    params := hcfg ▸ hs.params
    ctrlReserved := hctrl ▸ hs.ctrlReserved
    inForm := hin ▸ hs.inForm
    inSize := by rw [hin, hcfg]; exact hs.inSize
    outForm := hform
    outValid := hvalid
    outSize := hcfg ▸ hfit
    unconfigured := fun hc => by
      obtain ⟨hsc, ⟨-, hmode, halg, hk0, hk1, hk2, hinit⟩, hchain⟩ := exec_unconfigured_frame i s t h hc
      rw [hmode, halg, hk0, hk1, hk2, hinit, hchain]
      exact hs.unconfigured hsc
    sampledOnlyByInit := fun r hr => by rw [hrun] at hr; cases hr
    sampledReserved := fun r o hr => by rw [hrun] at hr; cases hr
    held := fun ht => by rw [hline, hl] at ht; cases ht }

/-- The engine's turn keeps the invariant. -/
theorem engineTurn_keeps_inv (s t : State) (hs : s.Inv) (hl : s.resetLine = false) (h : engineTurn s = .next t) : t.Inv := by
  cases hr : s.running with
  | none =>
    rw [engineTurn_idle s hr] at h
    exact Host.Outcome.next.inj h ▸ hs
  | some r =>
    rw [engineTurn_running s r hr] at h
    exact exec_keeps_inv _ s t hs hl h

/-! An access of the host. -/

/-- The invariant does not speak of the staging registers but CTRL's reserved bits, of the sticky flags, of DONE, nor of what the
model keeps of the bus. -/
theorem State.Inv.of_hostWritten {s : State} (hs : s.Inv) (hl : s.resetLine = false) (c l : Word) (k0 k1 k2 v : Block)
    (d o e : Bool) (bus : List BusEvent) (answer : Option Word) (draws : Nat) (hc : c &&& ~~~ctrlMask = 0) :
    ({ s with ctrl := c, len := l, key0 := k0, key1 := k1, key2 := k2, ivin := v, done := d, ovr := o, accErr := e
              bus := bus, answer := answer, draws := draws } : State).Inv :=
  { hs with
    ctrlReserved := hc
    held := fun h => absurd h (by simp [hl]) }

/-- Accepting a command keeps the invariant: what accept samples of CTRL has no reserved bit, and INIT alone samples it (rule
R137). -/
theorem State.Inv.accept {s : State} (hs : s.Inv) (hl : s.resetLine = false) (w : Word) : (s.accept w).Inv :=
  { hs with
    sampledOnlyByInit := fun r hr => by
      rw [accept_running] at hr
      cases hr
      rw [sample_op, State.sample]
      split_ifs with h
      · exact iff_of_true rfl h
      · exact iff_of_false Bool.false_ne_true h
    sampledReserved := fun r o hr ho => by
      rw [accept_running] at hr
      cases hr
      rw [State.sample] at ho
      split_ifs at ho
      cases ho
      exact hs.ctrlReserved
    held := fun h => absurd h (by simp [hl]) }

/-- A write to a register keeps the invariant. -/
theorem writeReg_keeps_inv (r : Reg) (d : Word) (s : State) (hs : s.Inv) (hl : s.resetLine = false) : (writeReg r d s).Inv := by
  have staged := fun l k0 k1 k2 v dn ov ae =>
    hs.of_hostWritten hl s.ctrl l k0 k1 k2 v dn ov ae s.bus s.answer s.draws hs.ctrlReserved
  cases r with
  | id | outlen | ivcurHi | ivcurLo => exact hs
  | ctrl =>
    refine hs.of_hostWritten hl (d &&& ctrlMask) s.len s.key0 s.key1 s.key2 s.ivin s.done s.ovr s.accErr s.bus s.answer s.draws ?_
    rw [BitVec.and_assoc]
    exact BitVec.and_zero
  | cmd =>
    rcases writeCmd_cases d s with ⟨-, e⟩ | ⟨-, e⟩ <;> rw [writeReg, e]
    · exact hs.accept hl d
    · exact staged _ _ _ _ _ _ _ _
  | status | len | key0Hi | key0Lo | key1Hi | key1Lo | key2Hi | key2Lo | ivinHi | ivinLo => exact staged _ _ _ _ _ _ _ _

/-- A taken write to IN stays inside it: BUF_BYTES is a multiple of every width (rules R8 and R38). -/
theorem end_le_of_taken_in (c : Config) (off : Nat) (w : AccessWidth) (hc : c.wf) (hr : regionOf c off = .inBuf)
    (ht : taken c off w = true) : 0x4000 ≤ off ∧ off + w.bytes ≤ 0x4000 + c.bufBytes := by
  obtain ⟨h8, -, -⟩ := hc
  obtain ⟨-, align⟩ := (taken_iff c off w).1 ht
  have range : 0x4000 ≤ off ∧ off < 0x4000 + c.bufBytes := by
    rw [regionOf] at hr
    split_ifs at hr
    omega
  cases w <;> simp only [AccessWidth.bytes] at align ⊢ <;> omega

/-- A write of the bytes of IN inside it keeps the invariant. -/
theorem State.Inv.writeIn {s : State} (hs : s.Inv) (hl : s.resetLine = false) (a : Nat) (bs : List Byte)
    (ha : a + bs.length ≤ s.cfg.bufBytes) : ({ s with inBuf := Memory.writeBytes s.inBuf a bs } : State).Inv :=
  { hs with
    inForm := Memory.wf_writeBytes bs s.inBuf a hs.inForm
    inSize := fun c h => by
      rcases Memory.mem_writeBytes bs s.inBuf a c h with ⟨-, h⟩ | h
      · exact Nat.lt_of_lt_of_le h ha
      · exact hs.inSize c h
    held := fun h => absurd h (by simp [hl]) }

/-- A taken write keeps the invariant. -/
theorem takenWrite_keeps_inv (off : Nat) (w : AccessWidth) (d : Word) (s t : State) (hs : s.Inv) (hl : s.resetLine = false)
    (ht : taken s.cfg off w = true) (h : takenWrite off w d s = .next t) : t.Inv := by
  rcases takenWrite_cases off w d s with e | ⟨r, e⟩ | ⟨hr, e⟩ | e
  · cases h.symm.trans e
    exact hs
  · cases h.symm.trans e
    exact writeReg_keeps_inv r d s hs hl
  · cases h.symm.trans e
    obtain ⟨hlow, hend⟩ := end_le_of_taken_in s.cfg off w hs.params hr ht
    exact hs.writeIn hl _ _ (by rw [laneBytes, unbe_length]; omega)
  · cases h.symm.trans e

/-- An access of the host keeps the invariant. -/
theorem hostAccess_keeps_inv (a : Access) (s t : State) (hs : s.Inv) (hl : s.resetLine = false)
    (h : hostAccess a s = .next t) : t.Inv := by
  have noted := fun acc answer draws => hs.of_hostWritten hl s.ctrl s.len s.key0 s.key1 s.key2 s.ivin s.done s.ovr acc s.bus
    answer draws hs.ctrlReserved
  unfold hostAccess at h
  split at h
  · cases h
    exact noted _ _ _
  · rename_i off hoff
    split at h
    · rename_i addr w
      rw [hostRead] at h
      split_ifs at h <;> cases h <;> exact noted _ _ _
    · rename_i addr w d
      rw [hostWrite] at h
      split_ifs at h with ht
      · exact takenWrite_keeps_inv off w d s.noteWrite t (noted _ _ _) hl ht h
      · cases h
        exact noted _ _ _

/-! O57. -/

/-- An access of the host leaves the pending events, the reset input and a command in progress as they are. -/
theorem hostAccess_leaves_running (a : Access) (s t : State) (h : hostAccess a s = .next t) :
    t.bus = s.bus ∧ t.resetLine = s.resetLine ∧ ∀ r, s.running = some r → t.running = some r := by
  obtain ⟨-, -, -, -, -, -, -, -, -, -, -, -, -, hbus, hline, hrun⟩ := hostAccess_frame a s t h
  exact ⟨hbus, hline, hrun⟩

/-- Both agents at one instant keep the invariant, in either order. -/
theorem togetherTurn_keeps_inv (a : Access) (s t : State) (hs : s.Inv) (hl : s.resetLine = false)
    (h : togetherTurn a s = .next t) : t.Inv := by
  rcases togetherTurn_cases a s t h with ⟨-, u, hu, ht⟩ | ⟨-, u, hu, ht⟩
  · obtain ⟨-, -, hline⟩ := engineTurn_leaves_idle s u hu
    exact hostAccess_keeps_inv a u t (engineTurn_keeps_inv s u hs hl hu) (hline.trans hl) ht
  · obtain ⟨-, hline, -⟩ := hostAccess_leaves_running a s u hu
    exact engineTurn_keeps_inv u t (hostAccess_keeps_inv a s u hs hl hu) (hline.trans hl) ht

/-- Settles O57: by the level of the reset input and the event the step takes. -/
theorem everyStepKeepsInvariant : Obligations.EveryStepKeepsInvariant := by
  intro s t hs h
  cases hl : s.resetLine with
  | true =>
    obtain ⟨level, answer, draws, rfl⟩ := step_cases_held s t hl h
    exact resetWith_inv s.cfg hs.params level _ answer draws
  | false =>
    have pending := fun bus => hs.of_hostWritten hl s.ctrl s.len s.key0 s.key1 s.key2 s.ivin s.done s.ovr s.accErr bus
      s.answer s.draws hs.ctrlReserved
    rcases step_cases_released s t hl h with
      ⟨-, he⟩ | ⟨rest, ⟨-, he⟩ | ⟨a, -, ha⟩ | ⟨a, -, ha⟩ | ⟨-, rfl⟩ | ⟨-, rfl⟩⟩
    · exact engineTurn_keeps_inv s t hs hl he
    · exact engineTurn_keeps_inv _ t (pending rest) hl he
    · exact hostAccess_keeps_inv a _ t (pending rest) hl ha
    · exact togetherTurn_keeps_inv a _ t (pending rest) hl ha
    · exact resetWith_inv s.cfg hs.params true rest none _
    · exact pending rest

end Sys2Proof.Machine
end

section
/-! PROOF. One step and a run of the machine: O54, O58, O59 and O60. -/

namespace Sys2Proof.Machine

/-! O58. -/

/-- A step on the engine's turn runs the command in progress, past that event. -/
theorem step_engine_running (s : State) (r : Command) (rest : List BusEvent) (hl : s.resetLine = false)
    (hr : s.running = some r) (hb : s.bus = .engine :: rest) :
    step s = exec (decodeFields r.op r.ksel) { s with bus := rest } := by
  rw [step_engine s rest hl hb, engineTurn_running { s with bus := rest } r hr]

/-- The step after an accept runs the command its word decodes to (rules R137 and R140). -/
theorem step_withCommand (s : State) (w : Word) :
    step (s.withCommand w) = exec (decodeWord w) { s.accept w with resetLine := false } :=
  step_engine_running (s.withCommand w) (s.sample w) s.bus rfl rfl rfl

/-- What the bytes of a word decode to is what the word decodes to. -/
theorem decode_wordBytes_iff (w : Word) (i : Instr) : decode (wordBytes w) = .ok (i, []) ↔ decodeWord w = i := by
  have h := decode_wordBytes w []
  rw [List.append_nil] at h
  rw [h]
  simp

/-- A table word of 32 bits decodes as the word it is. -/
theorem decodeTableWord_32 (w : Nat) : decodeTableWord 32 w = some (decodeWord (tableWord 32 w)) := by
  rw [decodeTableWord, if_neg (by decide), (decode_wordBytes_iff _ _).2 rfl]

/-- A table word of 32 bits is the word of its low bits. -/
theorem tableWord_32 (w : Nat) : tableWord 32 w = BitVec.ofNat 32 w :=
  BitVec.eq_of_toNat_eq (by simp [tableWord])

/-- Settles O58: the engine's turn, busy and idle, on its event and with nothing pending, and what an accept makes it run. -/
theorem engineStepRunsDecodedCommand : Obligations.EngineStepRunsDecodedCommand := by
  refine ⟨step_engine_running, fun s r hl hr hb => ?_, fun s w i hi => ?_, fun s w i hi => ?_, fun s rest hl hr hb => ?_,
    fun s hl hr hb => ?_⟩
  · rw [step_nil s hl hb, engineTurn_running s r hr]
  · rw [step_withCommand, (decode_wordBytes_iff w i).1 hi]
  · rw [decodeTableWord_32] at hi
    rw [State.withFetchWord, step_withCommand, Option.some.inj hi, tableWord_32]
  · rw [step_engine s rest hl hb, engineTurn_idle { s with bus := rest } hr]
  · rw [step_nil s hl hb, engineTurn_idle s hr]

/-! O59. -/

/-- An access of the host leaves the active configuration and IV_INIT (rules R21 and R23). -/
theorem hostAccess_sameConfig (a : Access) (s t : State) (h : hostAccess a s = .next t) : s.SameConfig t := by
  obtain ⟨-, hconf, hmode, halg, hk0, hk1, hk2, hinit, -⟩ := hostAccess_frame a s t h
  exact ⟨hconf, hmode, halg, hk0, hk1, hk2, hinit⟩

/-- The engine's turn leaves the active configuration and IV_INIT where no INIT is in progress. -/
theorem engineTurn_sameConfig (s t : State) (hop : ∀ r, s.running = some r → r.op ≠ 0x1) (h : engineTurn s = .next t) :
    s.SameConfig t := by
  cases hr : s.running with
  | none =>
    rw [engineTurn_idle s hr] at h
    cases h
    exact ⟨rfl, rfl, rfl, rfl, rfl, rfl, rfl⟩
  | some r =>
    rw [engineTurn_running s r hr] at h
    refine exec_sameConfig _ s t (fun hi => hop r hr ?_) h
    rw [← opcode_decodeFields r.op r.ksel, hi]
    rfl

/-- One configuration kept after another is kept. -/
theorem State.SameConfig.trans {s t u : State} (h : s.SameConfig t) (h' : t.SameConfig u) : s.SameConfig u := by
  obtain ⟨hconf, hmode, halg, hk0, hk1, hk2, hinit⟩ := h
  obtain ⟨hconf', hmode', halg', hk0', hk1', hk2', hinit'⟩ := h'
  exact ⟨hconf'.trans hconf, hmode'.trans hmode, halg'.trans halg, hk0'.trans hk0, hk1'.trans hk1, hk2'.trans hk2,
    hinit'.trans hinit⟩

/-- An access that is no CMD write leaves the command in progress, and starts none. -/
theorem hostAccess_running (a : Access) (s t : State) (hc : isCmdWrite s.cfg a = false) (h : hostAccess a s = .next t) :
    t.running = s.running := by
  rcases hostAccess_flag_cases a s t h with ⟨hr, -⟩ | ⟨d, hcmd, -⟩ | ⟨d, -, rfl⟩ | ⟨-, hr, -⟩
  · exact hr
  · simp [(isCmdWrite_iff s.cfg a).2 ⟨d, hcmd⟩] at hc
  · rfl
  · exact hr

/-- Settles O59: the host never reaches the configuration, and the engine only by INIT. -/
theorem onlyInitWritesActiveConfiguration : Obligations.OnlyInitWritesActiveConfiguration := by
  intro s t hl h hop hb
  rcases step_cases_released s t hl h with
    ⟨-, he⟩ | ⟨rest, ⟨-, he⟩ | ⟨a, -, ha⟩ | ⟨a, -, ha⟩ | ⟨e, -⟩ | ⟨-, rfl⟩⟩
  · exact engineTurn_sameConfig s t hop he
  · exact engineTurn_sameConfig { s with bus := rest } t hop he
  · exact hostAccess_sameConfig a { s with bus := rest } t ha
  · rcases togetherTurn_cases a _ t ha with ⟨-, u, hu, ht⟩ | ⟨hc, u, hu, ht⟩
    · exact (engineTurn_sameConfig { s with bus := rest } u hop hu).trans (hostAccess_sameConfig a u t ht)
    · refine (hostAccess_sameConfig a { s with bus := rest } u hu).trans (engineTurn_sameConfig u t ?_ ht)
      rw [hostAccess_running a _ u hc hu]
      exact hop
  · exact absurd (by rw [e]; rfl) hb
  · exact ⟨rfl, rfl, rfl, rfl, rfl, rfl, rfl⟩

/-! O60. -/

/-- A command that is run as ENCRYPT or DECRYPT was sampled with their OP. -/
theorem op_of_cipher (r : Command) (h : r.instr = .encrypt ∨ r.instr = .decrypt) : r.op = 0x2 ∨ r.op = 0x3 := by
  rw [← opcode_decodeFields r.op r.ksel, ← Command.instr]
  rcases h with h | h <;> rw [h] <;> simp [opcode]

/-- An access stops only where an ENCRYPT or a DECRYPT is in progress (rule R166). -/
theorem hostAccess_fault (a : Access) (s : State) (e : Fault) (h : hostAccess a s = .fault e) : s.runsCipher = true := by
  unfold hostAccess at h
  split at h
  · cases h
  · split at h
    · cases h
    · unfold hostWrite at h
      split_ifs at h
      unfold takenWrite at h
      split at h
      · split at h <;> cases h
      · rw [writeIn] at h
        split_ifs at h with hrun
        exact hrun
      all_goals cases h

/-- An ENCRYPT or a DECRYPT in progress, by its OP. -/
theorem op_of_runsCipher (s : State) (r : Command) (hr : s.running = some r) (h : s.runsCipher = true) :
    r.op = 0x2 ∨ r.op = 0x3 := by
  rw [State.runsCipher, hr] at h
  simpa using h

/-- A command that is run completes, or it is an ENCRYPT or a DECRYPT that stops with a fault. -/
theorem exec_completes_or_faults (r : Command) (s : State) :
    (∃ t, exec r.instr s = .next t ∧ t.bus = s.bus ∧ t.busy = false ∧ t.done = true ∧ t.lastop = opcode r.instr) ∨
    ((r.op = 0x2 ∨ r.op = 0x3) ∧ ∃ e, exec r.instr s = .fault e) := by
  cases h : exec r.instr s with
  | next t =>
    obtain ⟨hrun, hdone, hop, -, -, -, -, -, -, -, -, -, -, -, hbus, -⟩ := exec_frame _ s t h
    exact .inl ⟨t, rfl, hbus, by rw [State.busy, hrun]; rfl, hdone, hop⟩
  | fault e => exact .inr ⟨op_of_cipher r (exec_fault_cipher _ s e h), e, rfl⟩
  | refused e => exact absurd h (exec_not_refused _ s e)

/-- A run whose first step stops with a fault stops with it. -/
theorem run_succ_of_fault (M : Host.Core) (k : Nat) (s : M.State) (e : M.Fault) (h : M.step s = .fault e) :
    M.run (k + 1) s = .fault e := by
  rw [Host.Core.run, h]

/-- A run of one step is the step. -/
theorem run_one (M : Host.Core) (s : M.State) : M.run 1 s = M.step s := by
  rw [Host.Core.run]
  cases M.step s <;> rfl

/-- The engine's turn after any accesses of the host, on its event or with nothing pending. -/
theorem run_accesses_then_engine (accesses : List Access) (s : State) (r : Command) (rest : List BusEvent)
    (hl : s.resetLine = false) (hr : s.running = some r)
    (hb : s.bus = accesses.map .host ++ .engine :: rest ∨ (s.bus = accesses.map .host ∧ rest = [])) :
    (∃ t, Host.Core.run core (accesses.length + 1) s = .next t ∧
      t.bus = rest ∧ t.busy = false ∧ t.done = true ∧ t.lastop = opcode r.instr) ∨
    ((r.op = 0x2 ∨ r.op = 0x3) ∧ ∃ e, Host.Core.run core (accesses.length + 1) s = .fault e) := by
  induction accesses generalizing s with
  | nil =>
    have hstep : step s = exec r.instr { s with bus := rest } := by
      rcases hb with hb | ⟨hb, rfl⟩
      · exact step_engine_running s r rest hl hr hb
      · rw [step_nil s hl hb, engineTurn_running s r hr, ← show s.bus = [] from hb]
        rfl
    rw [List.length_nil, run_one core s, show core.step s = _ from hstep]
    exact exec_completes_or_faults r { s with bus := rest }
  | cons a accesses ih =>
    obtain ⟨bus, hbus, hb⟩ : ∃ bus, s.bus = .host a :: bus ∧
        (bus = accesses.map .host ++ .engine :: rest ∨ (bus = accesses.map .host ∧ rest = [])) := by
      rcases hb with hb | ⟨hb, hrest⟩
      · exact ⟨_, hb, .inl rfl⟩
      · exact ⟨_, hb, .inr ⟨rfl, hrest⟩⟩
    have hstep := step_host s a bus hl hbus
    rw [List.length_cons]
    cases h : hostAccess a { s with bus := bus } with
    | next u =>
      obtain ⟨hub, hul, hur⟩ := hostAccess_leaves_running a _ u h
      rw [run_succ_of_step core (accesses.length + 1) s u (hstep.trans h)]
      exact ih u (hul.trans hl) (hur r hr) (by rw [hub]; exact hb)
    | fault e =>
      exact .inr ⟨op_of_runsCipher { s with bus := bus } r hr (hostAccess_fault a _ e h), e,
        run_succ_of_fault core (accesses.length + 1) s e (hstep.trans h)⟩
    | refused e => exact absurd h (hostAccess_not_refused a _ e)

/-- A step takes the first pending event. -/
theorem step_bus (s t : State) (h : step s = .next t) : t.bus = s.bus.tail := by
  cases hl : s.resetLine with
  | true =>
    obtain ⟨level, answer, draws, rfl⟩ := step_cases_held s t hl h
    rfl
  | false =>
    rcases step_cases_released s t hl h with
      ⟨hb, he⟩ | ⟨rest, ⟨hb, he⟩ | ⟨a, hb, ha⟩ | ⟨a, hb, ha⟩ | ⟨hb, rfl⟩ | ⟨hb, rfl⟩⟩ <;> rw [hb]
    · obtain ⟨-, hbus, -⟩ := engineTurn_leaves_idle s t he
      rw [hbus, hb]
      rfl
    · obtain ⟨-, hbus, -⟩ := engineTurn_leaves_idle _ t he
      exact hbus
    · obtain ⟨hbus, -⟩ := hostAccess_leaves_running a _ t ha
      exact hbus
    · rcases togetherTurn_cases a _ t ha with ⟨-, u, hu, ht⟩ | ⟨-, u, hu, ht⟩
      · obtain ⟨-, hbus, -⟩ := engineTurn_leaves_idle _ u hu
        obtain ⟨hbus', -⟩ := hostAccess_leaves_running a u t ht
        exact hbus'.trans hbus
      · obtain ⟨-, hbus, -⟩ := engineTurn_leaves_idle u t ht
        obtain ⟨hbus', -⟩ := hostAccess_leaves_running a _ u hu
        exact hbus.trans hbus'
    · rfl
    · rfl

/-- With nothing pending a step leaves the engine idle, or stops. -/
theorem step_nil_idle (s t : State) (hb : s.bus = []) (h : step s = .next t) : t.running = none := by
  cases hl : s.resetLine with
  | true =>
    obtain ⟨level, answer, draws, rfl⟩ := step_cases_held s t hl h
    rfl
  | false =>
    rw [step_nil s hl hb] at h
    exact (engineTurn_leaves_idle s t h).1

/-- Two moves in a row are refused only where one of them is. -/
theorem andThen_ne_refused (x : Result) (f : State → Result) (r : Refusal) (hx : x ≠ .refused r)
    (hf : ∀ u, f u ≠ .refused r) : andThen x f ≠ .refused r := by
  cases x with
  | next u => exact hf u
  | fault e => simp [andThen]
  | refused q => exact hx

/-- No step is refused. -/
theorem step_not_refused (s : State) (r : Refusal) : step s ≠ .refused r := by
  have held (a : Access) (u : State) : heldAccess a u ≠ .refused r :=
    andThen_ne_refused _ _ r (hostAccess_not_refused a _ r) (fun _ => by simp)
  have event (e : BusEvent) (u : State) : nextEvent e u ≠ .refused r := by
    rw [nextEvent]
    split_ifs
    · cases e with
      | host a => exact held a u
      | engine => simp [heldEvent]
      | together a => exact held a u
      | reset level => simp [heldEvent]
    · cases e with
      | host a => exact hostAccess_not_refused a u r
      | engine => exact engineTurn_not_refused u r
      | together a =>
        show togetherTurn a u ≠ _
        rw [togetherTurn]
        split_ifs
        · exact andThen_ne_refused _ _ r (engineTurn_not_refused u r) fun v => hostAccess_not_refused a v r
        · exact andThen_ne_refused _ _ r (hostAccess_not_refused a u r) fun v => engineTurn_not_refused v r
      | reset level => simp [takeEvent]
  rw [step, nextMove]
  cases s.bus with
  | nil => exact event .engine s
  | cons e rest => exact event e _

/-- Once every pending event and one more step have passed the engine is idle, unless a step stopped with a fault. -/
theorem run_all_pending (n : Nat) (s : State) (hn : s.bus.length = n) :
    (∃ t, Host.Core.run core (n + 1) s = .next t ∧ t.bus = [] ∧ t.busy = false) ∨
    (∃ e, Host.Core.run core (n + 1) s = .fault e) := by
  induction n generalizing s with
  | zero =>
    have hb : s.bus = [] := List.length_eq_zero_iff.1 hn
    rw [run_one core s]
    cases h : step s with
    | next t =>
      refine .inl ⟨t, h, ?_, ?_⟩
      · rw [step_bus s t h, hb]
        rfl
      · rw [State.busy, step_nil_idle s t hb h]
        rfl
    | fault e => exact .inr ⟨e, h⟩
    | refused r => exact absurd h (step_not_refused s r)
  | succ n ih =>
    cases h : step s with
    | next u =>
      rw [run_succ_of_step core (n + 1) s u h]
      exact ih u (by rw [step_bus s u h, List.length_tail, hn]; rfl)
    | fault e => exact .inr ⟨e, run_succ_of_fault core (n + 1) s e h⟩
    | refused r => exact absurd h (step_not_refused s r)

/-- Settles O60: by induction on the accesses before the engine's turn, and on the number of pending events. -/
theorem commandInProgressCompletesOnItsTurn : Obligations.CommandInProgressCompletesOnItsTurn :=
  ⟨fun s r accesses rest => run_accesses_then_engine accesses s r rest, fun s => run_all_pending _ s rfl⟩

/-! O54. -/

/-- A step that takes both agents at one instant. -/
theorem step_together (s : State) (a : Access) (rest : List BusEvent) (hl : s.resetLine = false)
    (hb : s.bus = .together a :: rest) : step s = togetherTurn a { s with bus := rest } := step_event s _ rest hl hb

/-- With no command in progress both agents at one instant are the access alone. -/
theorem togetherTurn_idle (a : Access) (s : State) (hr : s.running = none) : togetherTurn a s = hostAccess a s := by
  cases hc : isCmdWrite s.cfg a with
  | true => rw [togetherTurn, if_pos hc, engineTurn_idle s hr, andThen]
  | false =>
    rw [togetherTurn, if_neg (by simp [hc])]
    cases h : hostAccess a s with
    | next u => exact engineTurn_idle u ((hostAccess_running a s u hc h).trans hr)
    | fault e => rfl
    | refused e => rfl

/-- At the instant of a completion an access that is no CMD write comes first (rule R64). -/
theorem togetherTurn_of_not_cmdWrite (a : Access) (s : State) (hc : isCmdWrite s.cfg a = false) :
    togetherTurn a s = andThen (hostAccess a s) engineTurn := by
  rw [togetherTurn, if_neg (by simp [hc])]

/-- A CMD write to an idle block is accepted (rules R62 and R137). -/
theorem hostAccess_writeCmd_idle (s : State) (d : Word) (hl : s.resetLine = false) (hi : s.running = none) :
    hostAccess (.write (s.cfg.base + 0x008) .word d) s = .next (s.noteWrite.accept d) :=
  (step_host (s.hostWrites 0x008 .word d) _ s.bus hl rfl).symm.trans (step_writeCmd_idle s d hl hi)

/-- What stands after an access and then the completion of the command in progress, field by field. -/
theorem access_then_completion (a : Access) (r : Command) (s u t : State) (hu : hostAccess a s = .next u)
    (ht : exec r.instr u = .next t) :
    (t.done = true ∧ t.lastop = opcode r.instr ∧ t.bus = s.bus) ∧ t.busy = false ∧ t.answer = u.answer ∧ t.ovr = u.ovr ∧
      t.accErr = u.accErr ∧ t.ctrl = u.ctrl ∧ t.len = u.len ∧ t.key0 = u.key0 ∧ t.key1 = u.key1 ∧ t.key2 = u.key2 ∧
      t.ivin = u.ivin ∧ ∀ k, Memory.read t.inBuf k = Memory.read u.inBuf k := by
  obtain ⟨hrun, hdone, hop, -, hctrl, hlen, hk0, hk1, hk2, hiv, hovr, hacc, hin, -, hbus, hans⟩ := exec_frame _ u t ht
  obtain ⟨hbus', -⟩ := hostAccess_leaves_running a s u hu
  exact ⟨⟨hdone, hop, hbus.trans hbus'⟩, by rw [State.busy, hrun]; rfl, hans, hovr, hacc, hctrl, hlen, hk0, hk1, hk2, hiv,
    fun k => by rw [hin]⟩

/-- What stands after the completion of the command in progress and then a CMD write: it is accepted, and samples the staging
registers as the command left them, which is as they were (rule R153). -/
theorem completion_then_cmdWrite (d : Word) (r : Command) (s u t : State) (hl : s.resetLine = false)
    (hu : exec r.instr s = .next u) (ht : hostAccess (.write (s.cfg.base + 0x008) .word d) u = .next t) :
    (t.done = true ∧ t.lastop = opcode r.instr ∧ t.bus = s.bus) ∧ t.ovr = s.ovr ∧ t.running = some (s.sample d) := by
  obtain ⟨hrun, hdone, hop, hcfg, hctrl, hlen, hk0, hk1, hk2, hiv, hovr, -, -, hline, hbus, -⟩ := exec_frame _ s u hu
  rw [← hcfg, hostAccess_writeCmd_idle u d (hline.trans hl) hrun] at ht
  cases ht
  have live : u.liveInit = s.liveInit := by rw [State.liveInit, hctrl, hk0, hk1, hk2, hiv, State.liveInit]
  have sampled : u.noteWrite.sample d = s.sample d := by
    show ({ op := _, ksel := _, len := u.len, init := if _ then some u.liveInit else none } : Command) = _
    rw [hlen, live, State.sample]
  exact ⟨⟨hdone, hop, hbus⟩, hovr, congrArg some sampled⟩

/-- Settles O54: the access comes before the completion unless it is a CMD write, which comes after it. -/
theorem completionWinsOverSimultaneousClear : Obligations.CompletionWinsOverSimultaneousClear := by
  intro s a rest hl hb alone cmd
  have hstep := step_together s a rest hl hb
  have halone : alone = hostAccess a { s with bus := rest } := step_host { s with bus := .host a :: rest } a rest hl rfl
  have hcmd : isCmdWrite s.cfg a = true ↔ cmd := isCmdWrite_iff s.cfg a
  rw [hstep, halone]
  refine ⟨togetherTurn_idle a { s with bus := rest }, fun r hr => ⟨fun hno => ?_, fun t ht => ?_⟩⟩
  · have hc : isCmdWrite s.cfg a = false := by simpa using mt hcmd.1 hno
    rw [togetherTurn_of_not_cmdWrite a { s with bus := rest } hc]
    refine ⟨fun e he => by rw [he, andThen], fun u hu => ?_⟩
    obtain ⟨-, -, hrun⟩ := hostAccess_leaves_running a _ u hu
    refine ⟨hrun r hr, ?_⟩
    rw [hu, andThen, engineTurn_running u r (hrun r hr), Command.instr]
  · rcases togetherTurn_cases a { s with bus := rest } t ht with ⟨hc, u, hu, ha⟩ | ⟨hc, u, hu, he⟩
    · obtain ⟨d, rfl⟩ := hcmd.1 hc
      rw [engineTurn_running { s with bus := rest } r hr] at hu
      obtain ⟨⟨hdone, hop, hbus⟩, hovr, hrun⟩ := completion_then_cmdWrite d r { s with bus := rest } u t hl hu ha
      refine ⟨hdone, hop, hbus, fun hno => absurd ⟨d, rfl⟩ hno, fun d' e => ?_⟩
      cases e
      exact ⟨hovr, _, hrun, rfl, rfl, rfl, rfl⟩
    · obtain ⟨-, -, hrun⟩ := hostAccess_leaves_running a _ u hu
      rw [engineTurn_running u r (hrun r hr)] at he
      obtain ⟨⟨hdone, hop, hbus⟩, kept⟩ := access_then_completion a r { s with bus := rest } u t hu he
      obtain ⟨hidle, hfields⟩ := kept
      have hno : ¬cmd := fun h => by simp [hcmd.2 h] at hc
      exact ⟨hdone, hop, hbus, fun _ => ⟨hidle, u, hu, hfields⟩, fun d e => absurd ⟨d, e⟩ hno⟩

end Sys2Proof.Machine
end

section
/-! PROOF. The permutations and the key schedule: O6, O7, O9, O10, O11 and O12. -/

namespace Sys2Proof.Machine

/-! O6. -/

/-- The Horner sum of `permute`, from a starting value, as the sum of rule R77 over the entries. -/
theorem permuteSum_eq {w : Nat} (v : BitVec w) (t : List Nat) (u : Nat) :
    t.foldl (fun u j => 2 * u + (cipherBit v j).toNat) u = u * 2 ^ t.length +
      ((List.range t.length).map fun i => (cipherBit v (t.getD i 0)).toNat * 2 ^ (t.length - 1 - i)).sum := by
  induction t generalizing u with
  | nil => simp
  | cons a t ih =>
    have shift : ((List.range t.length).map fun i =>
        (cipherBit v ((a :: t).getD (i + 1) 0)).toNat * 2 ^ (t.length - (i + 1))) =
        (List.range t.length).map fun i => (cipherBit v (t.getD i 0)).toNat * 2 ^ (t.length - 1 - i) :=
      List.map_congr_left fun i _ => by rw [List.getD_cons_succ, Nat.sub_sub, Nat.add_comm 1]
    rw [List.foldl_cons, ih, List.length_cons, List.range_succ_eq_map, List.map_cons, List.sum_cons, List.map_map,
      Nat.add_sub_cancel]
    simp only [Function.comp_def, Nat.succ_eq_add_one]
    rw [shift, List.getD_cons_zero, Nat.sub_zero]
    ring

/-- The Horner sum of `permute` fits the bits its table has. -/
theorem permuteSum_lt {w : Nat} (v : BitVec w) (t : List Nat) :
    t.foldl (fun u j => 2 * u + (cipherBit v j).toNat) 0 < 2 ^ t.length := by
  apply Nat.lt_pow_two_of_testBit
  intro i hi
  rw [permuteSum_testBit, if_neg (by omega), Nat.zero_testBit]

/-- A permutation as a number, the sum of rule R77. -/
theorem permute_toNat {n w : Nat} (t : List Nat) (v : BitVec w) (h : t.length = n) :
    (permute n t v).toNat =
      ((List.range n).map fun i => (v.getLsbD (w - t.getD i 0)).toNat * 2 ^ (n - 1 - i)).sum := by
  subst h
  rw [permute, BitVec.toNat_ofNat, Nat.mod_eq_of_lt (permuteSum_lt v t), permuteSum_eq, Nat.zero_mul, Nat.zero_add]
  rfl

/-- Position 58 stands first in IP's table and nowhere else (rule R81). -/
theorem tIP_eq_58_iff : ∀ i < 64, (tIP.getD i 0 = 58 ↔ i = 0) := by decide

/-- The entries of IP's table are positions of a block (rule R81). -/
theorem tIP_range : ∀ j ∈ tIP, 1 ≤ j ∧ j ≤ 64 := by decide

/-- An entry of a table is one of its members. -/
theorem getD_mem (t : List Nat) (i : Nat) (h : i < t.length) : t.getD i 0 ∈ t := by
  rw [List.getD_eq_getElem _ _ h]
  exact List.getElem_mem h

/-- Settles O6: the bits and the number of a permutation, its linearity, and IP's first entry. -/
theorem permuteFollowsItsTable : Obligations.PermuteFollowsItsTable := by
  refine ⟨fun n w t v hn _ => ⟨fun i h1 hi => cipherBit_permute t v i hn h1 hi, permute_toNat t v hn⟩,
    fun n w t a b hn => permute_xor t a b hn, fun x hx i h1 hi => ?_⟩
  obtain ⟨hlow, hhigh⟩ := tIP_range _ (getD_mem tIP (i - 1) (show i - 1 < 64 by omega))
  rw [ip, cipherBit_permute tIP x i (show tIP.length = 64 from rfl) h1 hi, hx _ hlow hhigh, tIP_eq_58_iff _ (by omega)]
  omega

/-! O7. -/

/-- Two permutations whose tables undo each other undo each other. -/
theorem permute_permute {n : Nat} (t u : List Nat) (x : BitVec n) (ht : t.length = n) (hu : u.length = n)
    (hr : ∀ i, 1 ≤ i → i ≤ n → 1 ≤ u.getD (i - 1) 0 ∧ u.getD (i - 1) 0 ≤ n)
    (h : ∀ i, 1 ≤ i → i ≤ n → t.getD (u.getD (i - 1) 0 - 1) 0 = i) : permute n u (permute n t x) = x := by
  apply cipherBit_ext
  intro i h1 hi
  obtain ⟨hlow, hhigh⟩ := hr i h1 hi
  rw [cipherBit_permute u _ i hu h1 hi, cipherBit_permute t x _ ht hlow hhigh, h i h1 hi]

/-- FP's table at IP's entries, and IP's at FP's (rules R81 and R82). -/
theorem tFP_tIP : ∀ i < 65, 1 ≤ i →
    tFP.getD (tIP.getD (i - 1) 0 - 1) 0 = i ∧ tIP.getD (tFP.getD (i - 1) 0 - 1) 0 = i := by decide

/-- The entries of FP's table are positions of a block (rule R82). -/
theorem tFP_range : ∀ j ∈ tFP, 1 ≤ j ∧ j ≤ 64 := by decide

@[simp] theorem fp_ip (x : Block) : fp (ip x) = x :=
  permute_permute tIP tFP x rfl rfl (fun i _ hi => tFP_range _ (getD_mem tFP (i - 1) (show i - 1 < 64 by omega)))
    fun i h1 hi => (tFP_tIP i (by omega) h1).2

@[simp] theorem ip_fp (x : Block) : ip (fp x) = x :=
  permute_permute tFP tIP x rfl rfl (fun i _ hi => tIP_range _ (getD_mem tIP (i - 1) (show i - 1 < 64 by omega)))
    fun i h1 hi => (tFP_tIP i (by omega) h1).1

/-- Settles O7: the two tables undo each other entry by entry. -/
theorem finalPermutationInvertsInitial : Obligations.FinalPermutationInvertsInitial :=
  ⟨fun x => ⟨fp_ip x, ip_fp x⟩, fun i h1 hi => (tFP_tIP i (by omega) h1).1, fun _ => rfl⟩

/-! O9 and O10. -/

@[simp] theorem rotations_length (h : HalfKey) (ns : List Nat) : (rotations h ns).length = ns.length := by
  induction ns generalizing h with
  | nil => rfl
  | cons n ns ih => rw [rotations, List.length_cons, List.length_cons, ih]

/-- The half after round i + 1 is the first half rotated by the counts up to that round (rule R89). -/
theorem rotations_getElem? (h : HalfKey) (ns : List Nat) (i : Nat) (hi : i < ns.length) :
    (rotations h ns)[i]? = some ((ns.take (i + 1)).foldl rotl28 h) := by
  induction ns generalizing h i with
  | nil => simp at hi
  | cons n ns ih =>
    cases i with
    | zero => rfl
    | succ i =>
      rw [rotations, List.getElem?_cons_succ, ih _ i (by simpa using hi)]
      rfl

/-- The half after a round is the half before it rotated by the round's count (rule R89). -/
theorem rotations_getElem?_succ (h : HalfKey) (ns : List Nat) (i : Nat) (hi : i + 1 < ns.length) :
    (rotations h ns)[i + 1]? = (rotations h ns)[i]?.map fun c => rotl28 c (ns.getD (i + 1) 0) := by
  rw [rotations_getElem? h ns _ hi, rotations_getElem? h ns i (by omega), List.take_add_one, List.foldl_append,
    List.getElem?_eq_getElem hi, List.getD_eq_getElem _ _ hi]
  rfl

/-- The half after round i, by the cumulative count (rules R86 and R89). -/
theorem rotations_shiftCounts (h : HalfKey) (i : Nat) (h1 : 1 ≤ i) (hi : i ≤ 16) :
    (rotations h shiftCounts)[i - 1]? = some (h.rotateLeft (shiftCounts.take i).sum) := by
  have small : ∀ n ∈ shiftCounts, n < 28 := by decide
  rw [rotations_getElem? h shiftCounts _ (show i - 1 < 16 by omega), Nat.sub_add_cancel h1,
    foldl_rotl28 h _ fun n hn => small n (List.mem_of_mem_take hn)]

/-- After round 16 a half is where it started (rule R93). -/
theorem rotations_full_turn (h : HalfKey) : (rotations h shiftCounts)[15]? = some h := by
  rw [rotations_shiftCounts h 16 (by decide) (by decide)]
  exact congrArg some (rotateLeft_of_dvd h 28 (Nat.dvd_refl 28))

/-- Subkey i is PC2 of the halves after round i (rule R90). -/
theorem ks_getElem? (k : Block) (i : Nat) (c d : HalfKey) (hc : (rotations (c0 k) shiftCounts)[i]? = some c)
    (hd : (rotations (d0 k) shiftCounts)[i]? = some d) : (ks k)[i]? = some (pc2 (c ++ d)) := by
  rw [ks, List.getElem?_zipWith, hc, hd]

/-- Settles O9: each round's half from the one before and from the first, and the subkey they give. -/
theorem subkeysUseCumulativeRotations : Obligations.SubkeysUseCumulativeRotations := by
  refine fun k => ⟨ks_length k, fun h => ⟨rfl, fun i h1 hi => ?_⟩, fun i h1 hi =>
    ⟨rotations_shiftCounts (c0 k) i h1 hi, rotations_shiftCounts (d0 k) i h1 hi, fun c d => ks_getElem? k _ c d⟩⟩
  obtain ⟨j, rfl⟩ := Nat.exists_eq_add_of_le' h1
  exact rotations_getElem?_succ h shiftCounts j hi

/-- Settles O10: the reversed list, and the full turn of both halves. -/
theorem reversedScheduleAndFullTurn : Obligations.ReversedScheduleAndFullTurn := by
  refine fun k => ⟨by rw [ksr, List.length_reverse, ks_length], fun i h1 hi => ?_, rotations_full_turn (c0 k),
    rotations_full_turn (d0 k)⟩
  rw [ksr, List.getElem?_reverse (by rw [ks_length]; omega), ks_length]
  congr 1
  omega

/-! O11. -/

/-- PC-1 lists no parity position (rule R85). -/
theorem tPC1_mask : ∀ i < 56, cipherBit (0xFEFEFEFEFEFEFEFE : Block) (tPC1.getD i 0) = true := by decide +kernel

/-- PC-1 drops the parity bits. -/
theorem pc1_and_mask (k : Block) : pc1 (k &&& 0xFEFEFEFEFEFEFEFE) = pc1 k := by
  apply cipherBit_ext
  intro i h1 hi
  have hlen : tPC1.length = 56 := rfl
  have kept := tPC1_mask (i - 1) (by omega)
  rw [cipherBit] at kept
  rw [pc1, pc1, cipherBit_permute tPC1 _ i hlen h1 hi, cipherBit_permute tPC1 _ i hlen h1 hi, cipherBit, BitVec.getLsbD_and,
    kept, Bool.and_true, cipherBit]

/-- The schedule depends on the key through PC-1 alone (rules R88 to R90). -/
theorem ks_congr (k j : Block) (h : pc1 k = pc1 j) : ks k = ks j := by rw [ks, ks, c0, c0, d0, d0, h]

/-- Settles O11: PC-1 drops the parity bits. -/
theorem parityBitsDoNotReachTheSchedule : Obligations.ParityBitsDoNotReachTheSchedule := by
  refine fun k j h => ks_congr k j ?_
  rw [← pc1_and_mask k, h, pc1_and_mask]

/-! O12. -/

/-- Settles O12: each property of a table, checked on its entries. -/
theorem tablesHaveTheirStatedShape : Obligations.TablesHaveTheirStatedShape := by
  unfold Obligations.TablesHaveTheirStatedShape
  decide +kernel

end Sys2Proof.Machine
end

section
/-! PROOF. The substitution array, the round function and the block ciphers: O13 to O20. -/

namespace Sys2Proof.Machine

/-! O13. -/

/-- The column of a chunk, bit by bit (rule R99). -/
theorem sboxCol_eq (b : BitVec 6) : sboxCol b =
    8 * (b.getLsbD 4).toNat + 4 * (b.getLsbD 3).toNat + 2 * (b.getLsbD 2).toNat + (b.getLsbD 1).toNat := by
  revert b
  decide

/-- Bit i of chunk m is bit 6(m-1)+i of Y (rule R98). -/
theorem cipherBit_chunk (y : Subkey) (m i : Nat) (hm : 1 ≤ m) (hm8 : m ≤ 8) (h1 : 1 ≤ i) (h6 : i ≤ 6) :
    cipherBit (chunk m y) i = cipherBit y (6 * (m - 1) + i) := by
  have hlane : 6 - i < 6 := by omega
  have hpos : 48 - 6 * m + (6 - i) = 48 - (6 * (m - 1) + i) := by omega
  rw [cipherBit, chunk, BitVec.getLsbD_extractLsb', decide_eq_true hlane, Bool.true_and, hpos, cipherBit]

/-- Nibble m of the array is lane m, the first at the top (rule R108). -/
theorem sboxArray_nibbles (y : Subkey) :
    (sboxArray y).extractLsb' 28 4 = sboxLane tS1 (chunk 1 y) ∧ (sboxArray y).extractLsb' 24 4 = sboxLane tS2 (chunk 2 y) ∧
    (sboxArray y).extractLsb' 20 4 = sboxLane tS3 (chunk 3 y) ∧ (sboxArray y).extractLsb' 16 4 = sboxLane tS4 (chunk 4 y) ∧
    (sboxArray y).extractLsb' 12 4 = sboxLane tS5 (chunk 5 y) ∧ (sboxArray y).extractLsb' 8 4 = sboxLane tS6 (chunk 6 y) ∧
    (sboxArray y).extractLsb' 4 4 = sboxLane tS7 (chunk 7 y) ∧ (sboxArray y).extractLsb' 0 4 = sboxLane tS8 (chunk 8 y) := by
  rw [sboxArray]
  refine ⟨?_, ?_, ?_, ?_, ?_, ?_, ?_, BitVec.extractLsb'_append_eq_right⟩
  · iterate 7 rw [BitVec.extractLsb'_append_eq_of_le (by decide)]
    exact BitVec.extractLsb'_eq_self
  · iterate 6 rw [BitVec.extractLsb'_append_eq_of_le (by decide)]
    exact BitVec.extractLsb'_append_eq_right
  · iterate 5 rw [BitVec.extractLsb'_append_eq_of_le (by decide)]
    exact BitVec.extractLsb'_append_eq_right
  · iterate 4 rw [BitVec.extractLsb'_append_eq_of_le (by decide)]
    exact BitVec.extractLsb'_append_eq_right
  · iterate 3 rw [BitVec.extractLsb'_append_eq_of_le (by decide)]
    exact BitVec.extractLsb'_append_eq_right
  · iterate 2 rw [BitVec.extractLsb'_append_eq_of_le (by decide)]
    exact BitVec.extractLsb'_append_eq_right
  · rw [BitVec.extractLsb'_append_eq_of_le (by decide)]
    exact BitVec.extractLsb'_append_eq_right

/-- Settles O13: the nibbles are the lanes, and a lane's row and column are bits of its chunk. -/
theorem substitutionIndexesByChunk : Obligations.SubstitutionIndexesByChunk := by
  unfold Obligations.SubstitutionIndexesByChunk
  intro row col look
  have lane (t : List (List Nat)) (b : BitVec 6) : sboxLane t b = look t b := by
    rw [sboxLane, sboxCol_eq]
    rfl
  refine ⟨fun y => ?_, fun y m i => cipherBit_chunk y m i, rfl, rfl⟩
  simp only [← lane]
  exact sboxArray_nibbles y

/-! O14. -/

/-- The eight lanes in order, each with the number of its chunk (rules R98 and R108). -/
def sboxLanes : List (Nat × List (List Nat)) :=
  [(1, tS1), (2, tS2), (3, tS3), (4, tS4), (5, tS5), (6, tS6), (7, tS7), (8, tS8)]

/-- Every entry of an S-box fits a nibble (rules R100 to R107). -/
theorem sbox_entry_lt : ∀ mt ∈ sboxLanes, ∀ b : BitVec 6, (mt.2.getD (sboxRow b) []).getD (sboxCol b) 0 < 16 := by
  decide +kernel

/-- One step of the accumulation of rule R110. -/
def accumulateLane (y : Subkey) (sout : Half) (mt : Nat × List (List Nat)) : Half :=
  (sout <<< 4) ||| BitVec.ofNat 32 ((mt.2.getD (sboxRow (chunk mt.1 y)) []).getD (sboxCol (chunk mt.1 y)) 0)

/-- A step of the accumulation puts a lane below what stands. -/
theorem accumulateLane_setWidth {w : Nat} (y : Subkey) (x : BitVec w) (mt : Nat × List (List Nat)) (h : mt ∈ sboxLanes) :
    accumulateLane y (x.setWidth 32) mt = (x ++ sboxLane mt.2 (chunk mt.1 y)).setWidth 32 := by
  have entry := sbox_entry_lt mt h (chunk mt.1 y)
  rw [BitVec.setWidth_append_eq_shiftLeft_setWidth_or, accumulateLane, sboxLane]
  congr 1
  apply BitVec.eq_of_toNat_eq
  rw [BitVec.toNat_setWidth, BitVec.toNat_ofNat, BitVec.toNat_ofNat, Nat.mod_eq_of_lt entry]

/-- The accumulation of the eight lanes is the substitution array (rules R108 and R110). -/
theorem foldl_accumulateLane (y : Subkey) : sboxLanes.foldl (accumulateLane y) 0 = sboxArray y := by
  have topLane : accumulateLane y 0 (1, tS1) = (sboxLane tS1 (chunk 1 y)).setWidth 32 :=
    (accumulateLane_setWidth y (0#0) (1, tS1) (by simp [sboxLanes])).trans (by rw [BitVec.zero_width_append]; rfl)
  simp only [sboxLanes, List.foldl_cons, List.foldl_nil]
  rw [topLane]
  iterate 7 rw [accumulateLane_setWidth y _ _ (by simp [sboxLanes])]
  exact BitVec.setWidth_eq _

/-- E of a complement is the complement of E (rule R83). -/
theorem expand_not (r : Half) : expand (~~~r) = ~~~(expand r) := permute_not tE r rfl (by decide)

/-- Complementing both operands of XOR changes nothing. -/
theorem not_xor_not {w : Nat} (x y : BitVec w) : ~~~x ^^^ ~~~y = x ^^^ y := by
  rw [← BitVec.not_xor_left, ← BitVec.not_xor_right, BitVec.not_not]

/-- Complementing both operands of the round function changes nothing (rule R110). -/
theorem roundF_not (r : Half) (k : Subkey) : roundF (~~~r) (~~~k) = roundF r k := by
  rw [roundF, expand_not, not_xor_not, roundF]

/-- Settles O14: the accumulation is the array, complements cancel in the XOR, and the values. -/
theorem roundFunctionFollowsItsSteps : Obligations.RoundFunctionFollowsItsSteps := by
  refine ⟨fun r k => ?_, by decide +kernel, by decide +kernel, roundF_not, by decide +kernel, by decide +kernel,
    by decide +kernel, by decide +kernel, by decide +kernel⟩
  rw [roundF, ← foldl_accumulateLane]
  refine congrArg contract (List.foldl_ext _ _ _ fun sout mt _ => ?_)
  rw [accumulateLane, sboxRow, Nat.mul_comm]
  rfl

/-! O15. -/

/-- Splitting what was joined gives the halves, swapped (rules R112 and R114). -/
theorem splitIP_joinFP (lr : Half × Half) : splitIP (joinFP lr) = lr.swap := by
  rw [splitIP, joinFP, ip_fp]
  exact Prod.ext BitVec.extractLsb'_append_eq_left BitVec.extractLsb'_append_eq_right

/-- Joining the swapped halves of a block gives the block. -/
theorem joinFP_swap_splitIP (x : Block) : joinFP (splitIP x).swap = x := by
  rw [joinFP, splitIP]
  exact (congrArg fp (BitVec.extractLsb'_append_extractLsb' (w := 32) (len := 32))).trans (fp_ip x)

/-- A round on the swapped halves of a round with the same subkey undoes it (rule R113). -/
theorem feistelRound_swap_feistelRound (lr : Half × Half) (k : Subkey) :
    feistelRound (feistelRound lr k).swap k = lr.swap := by
  refine Prod.ext rfl ?_
  show lr.1 ^^^ roundF lr.2 k ^^^ roundF lr.2 k = lr.1
  rw [BitVec.xor_assoc, BitVec.xor_self, BitVec.xor_zero]

/-- The rounds on the swapped halves, with the subkeys backwards, undo the rounds (rule R115). -/
theorem foldl_feistelRound_reverse (lr : Half × Half) (keys : List Subkey) :
    keys.reverse.foldl feistelRound (keys.foldl feistelRound lr).swap = lr.swap := by
  induction keys generalizing lr with
  | nil => rfl
  | cons k keys ih =>
    simp only [List.reverse_cons, List.foldl_append, List.foldl_cons, List.foldl_nil, ih]
    exact feistelRound_swap_feistelRound lr k

/-- The Feistel primitive under the reversed list undoes it (rule R115). -/
theorem feistel_reverse_feistel (x : Block) (keys : List Subkey) : feistel (feistel x keys) keys.reverse = x := by
  rw [feistel, feistel, splitIP_joinFP, foldl_feistelRound_reverse, joinFP_swap_splitIP]

/-- Settles O15: round by round, from the last. -/
theorem feistelReversedInverts : Obligations.FeistelReversedInverts := feistel_reverse_feistel

/-! O16. -/

@[simp] theorem desD_desE (k x : Block) : desD k (desE k x) = x := feistel_reverse_feistel x (ks k)

@[simp] theorem desE_desD (k x : Block) : desE k (desD k x) = x := by
  have h := feistel_reverse_feistel x (ksr k)
  rwa [show (ksr k).reverse = ks k from List.reverse_reverse (ks k)] at h

/-- Settles O16: KS and KSR are each the other backwards. -/
theorem singleDesDirectionsInvert : Obligations.SingleDesDirectionsInvert :=
  ⟨fun k x => ⟨rfl, rfl, desD_desE k x, desE_desD k x⟩, by decide +kernel, by decide +kernel⟩

/-! O17: each part of the datapath on complemented operands. -/

/-- A bit of a complement. -/
theorem cipherBit_not {w : Nat} (v : BitVec w) (i : Nat) (h1 : 1 ≤ i) (hw : i ≤ w) : cipherBit (~~~v) i = !cipherBit v i := by
  have hlt : w - i < w := by omega
  rw [cipherBit, BitVec.getLsbD_not, decide_eq_true hlt, Bool.true_and, cipherBit]

/-- A part of a complement is the complement of the part. -/
theorem extractLsb'_not {w : Nat} (v : BitVec w) (start len : Nat) (h : start + len ≤ w) :
    (~~~v).extractLsb' start len = ~~~(v.extractLsb' start len) := by
  apply BitVec.eq_of_getLsbD_eq
  intro i hi
  have hlt : start + i < w := by omega
  simp [hi, hlt]

/-- A rotation of a complement is the complement of the rotation. -/
theorem rotl28_not (v : HalfKey) (n : Nat) (hn : n < 28) : rotl28 (~~~v) n = ~~~(rotl28 v n) := by
  rw [rotl28_eq_rotateLeft _ n hn, rotl28_eq_rotateLeft _ n hn]
  apply cipherBit_ext
  intro i h1 hi
  have hpos : (i - 1 + n) % 28 < 28 := Nat.mod_lt _ (by decide)
  rw [cipherBit_rotateLeft _ n i h1 hi, cipherBit_not _ _ (by omega) hpos, cipherBit_not _ i h1 hi,
    cipherBit_rotateLeft v n i h1 hi]

/-- The halves of a complemented half are the complements. -/
theorem rotations_not (h : HalfKey) (ns : List Nat) (hns : ∀ n ∈ ns, n < 28) :
    rotations (~~~h) ns = (rotations h ns).map (~~~·) := by
  induction ns generalizing h with
  | nil => rfl
  | cons n ns ih =>
    obtain ⟨hn, hns⟩ := List.forall_mem_cons.1 hns
    rw [rotations, rotl28_not h n hn, ih _ hns, rotations, List.map_cons]

theorem pc1_not (k : Block) : pc1 (~~~k) = ~~~(pc1 k) := permute_not tPC1 k rfl (by decide)

theorem pc2_not (c d : HalfKey) : pc2 (~~~c ++ ~~~d) = ~~~(pc2 (c ++ d)) := by
  rw [← BitVec.not_append]
  exact permute_not tPC2 (c ++ d) rfl (by decide)

theorem ip_not (x : Block) : ip (~~~x) = ~~~(ip x) := permute_not tIP x rfl tIP_range

theorem fp_not (x : Block) : fp (~~~x) = ~~~(fp x) := permute_not tFP x rfl tFP_range

/-- The schedule of a complemented key is the complement of the schedule. -/
theorem ks_not (k : Block) : ks (~~~k) = (ks k).map (~~~·) := by
  have small : ∀ n ∈ shiftCounts, n < 28 := by decide
  have hc : c0 (~~~k) = ~~~(c0 k) := by rw [c0, pc1_not, extractLsb'_not _ _ _ (by decide), c0]
  have hd : d0 (~~~k) = ~~~(d0 k) := by rw [d0, pc1_not, extractLsb'_not _ _ _ (by decide), d0]
  rw [ks, hc, hd, rotations_not _ _ small, rotations_not _ _ small, List.zipWith_map, ks, List.map_zipWith]
  simp only [pc2_not]

/-- Both halves complemented. -/
def notHalves (lr : Half × Half) : Half × Half := (~~~lr.1, ~~~lr.2)

/-- A round on complemented halves and subkey gives the complemented halves: F sees no difference. -/
theorem feistelRound_not (lr : Half × Half) (k : Subkey) :
    feistelRound (notHalves lr) (~~~k) = notHalves (feistelRound lr k) := by
  refine Prod.ext rfl ?_
  show ~~~lr.1 ^^^ roundF (~~~lr.2) (~~~k) = ~~~(lr.1 ^^^ roundF lr.2 k)
  rw [roundF_not, BitVec.not_xor_left]

/-- The rounds on complemented halves and subkeys. -/
theorem foldl_feistelRound_not (lr : Half × Half) (keys : List Subkey) :
    (keys.map (~~~·)).foldl feistelRound (notHalves lr) = notHalves (keys.foldl feistelRound lr) := by
  induction keys generalizing lr with
  | nil => rfl
  | cons k keys ih => rw [List.map_cons, List.foldl_cons, feistelRound_not, ih, List.foldl_cons]

theorem splitIP_not (x : Block) : splitIP (~~~x) = notHalves (splitIP x) := by
  rw [splitIP, ip_not, extractLsb'_not _ _ _ (by decide), extractLsb'_not _ _ _ (by decide)]
  rfl

theorem joinFP_not (lr : Half × Half) : joinFP (notHalves lr) = ~~~(joinFP lr) := by
  rw [joinFP, joinFP, ← fp_not, BitVec.not_append]
  rfl

/-- Settles O17: the complement passes through the schedule, the rounds and both ends of the primitive. -/
theorem desComplementProperty : Obligations.DesComplementProperty := by
  intro k x
  rw [desE, ks_not, feistel, splitIP_not, foldl_feistelRound_not, joinFP_not, desE, feistel]

/-! O18, O19 and O20. -/

@[simp] theorem tdesD_tdesE (k0 k1 k2 x : Block) : tdesD k0 k1 k2 (tdesE k0 k1 k2 x) = x := by simp [tdesD, tdesE]

@[simp] theorem tdesE_tdesD (k0 k1 k2 x : Block) : tdesE k0 k1 k2 (tdesD k0 k1 k2 x) = x := by simp [tdesD, tdesE]

/-- Settles O18: the three directions undo each other from the inside out. -/
theorem tripleDesOrderAndInverse : Obligations.TripleDesOrderAndInverse :=
  ⟨fun k0 k1 k2 x => ⟨rfl, rfl, tdesD_tdesE k0 k1 k2 x⟩, by decide +kernel, by decide +kernel⟩

/-- Settles O19: with one key the first two directions undo each other. -/
theorem tripleDesDegeneratesToSingle : Obligations.TripleDesDegeneratesToSingle := by
  refine ⟨fun k x => ⟨?_, ?_⟩, by decide +kernel⟩
  · rw [tdesE, desD_desE]
  · rw [tdesD, desE_desD]

/-- Block_D undoes Block_E (rule R123). -/
@[simp] theorem blockD_blockE (s : State) (x : Block) : s.blockD (s.blockE x) = x := by
  rw [State.blockD, State.blockE]
  cases s.aAlg with
  | des => exact desD_desE s.aK0 x
  | tdes => exact tdesD_tdesE s.aK0 s.aK1 s.aK2 x

/-- Block_E undoes Block_D (rule R123). -/
@[simp] theorem blockE_blockD (s : State) (x : Block) : s.blockE (s.blockD x) = x := by
  rw [State.blockD, State.blockE]
  cases s.aAlg with
  | des => exact desE_desD s.aK0 x
  | tdes => exact tdesE_tdesD s.aK0 s.aK1 s.aK2 x

/-- Settles O20: by the active algorithm. -/
theorem activeBlockPrimitiveInverts : Obligations.ActiveBlockPrimitiveInverts := by
  refine fun s x => ⟨fun h => ?_, fun h => ?_, blockD_blockE s x, blockE_blockD s x⟩
  · rw [State.blockE, State.blockD, h]
    exact ⟨rfl, rfl⟩
  · rw [State.blockE, State.blockD, h]
    exact ⟨rfl, rfl⟩

end Sys2Proof.Machine
end

section
/-! PROOF. Padding, the OFB stream and the round trip of the modes: O21, O22, O27, O38 and O39. -/

namespace Sys2Proof.Machine

/-! O21 and O22. -/

/-- Padding removal, by the last byte (rule R125). -/
theorem unpad_of_last (q : List Byte) (p : Byte) (h : q[q.length - 1]? = some p) :
    unpad q = if q.length < p.toNat ∨ p.toNat = 0 ∨ 8 < p.toNat then none else some (q.take (q.length - p.toNat)) := by
  have hp : q.getD (q.length - 1) 0 = p := by rw [List.getD_eq_getElem?_getD, h, Option.getD_some]
  rw [unpad, hp]

/-- Every byte that padding appends is the count (rule R124). -/
theorem pad_getElem?_of_le (m : List Byte) (k : Nat) (h : m.length ≤ k) (hk : k < (pad m).length) :
    (pad m)[k]? = some (BitVec.ofNat 8 (padCount m.length)) := by
  rw [pad_length] at hk
  rw [pad, List.getElem?_append_right h, List.getElem?_replicate, if_pos (by omega)]

/-- Removing the padding of a padded message gives the message (rule R135 (e)). -/
theorem unpad_pad (m : List Byte) : unpad (pad m) = some m := by
  have hpos := padCount_pos m.length
  have hle := padCount_le m.length
  have hlen := pad_length m
  have hp : (BitVec.ofNat 8 (padCount m.length)).toNat = padCount m.length := by
    rw [BitVec.toNat_ofNat, Nat.mod_eq_of_lt (by omega)]
  rw [unpad_of_last _ _ (pad_getElem?_of_le m _ (by omega) (by omega)), hp, if_neg (by omega), hlen, Nat.add_sub_cancel, pad,
    List.take_left]

/-- Settles O21: the two parts of a padded message, and its last byte. -/
theorem paddingAddsItsOwnCount : Obligations.PaddingAddsItsOwnCount := by
  refine ⟨fun m => ?_, rfl, fun m hm => ?_, rfl, unpad_pad⟩
  · have hpos := padCount_pos m.length
    have hmod := pad_length_mod m
    exact ⟨hpos, padCount_le m.length, pad_length m, by rw [pad_length, hmod], by rw [pad_length]; omega,
      fun k hk => List.getElem?_append_left hk, fun k h hk => pad_getElem?_of_le m k h hk⟩
  · rw [pad, hm]
    rfl

/-- Settles O22: the last byte decides. -/
theorem paddingRemovalReadsLastByte : Obligations.PaddingRemovalReadsLastByte := by
  refine ⟨fun q p h0 h8 hp => ?_, by decide, by decide⟩
  have hzero : p.toNat = 0 ↔ p = 0 := BitVec.toNat_inj (y := 0)
  simp only [unpad_of_last q p hp, hzero]
  exact ⟨fun h => if_pos h, fun h => if_neg h, by omega⟩

/-! O27 and O39. -/

theorem decryptBytes_ofb (s : State) (c : List Byte) (h : s.aMode = .ofb) :
    s.decryptBytes c = ofbRun s.blockE s.ivChain (chunks8 c) := by
  rw [State.decryptBytes, h]

/-- ENCRYPT and DECRYPT in OFB complete with one and the same run (rule R128). -/
theorem exec_ofb (s : State) (m : List Byte) (i : Instr) (hi : i = .encrypt ∨ i = .decrypt) (hc : s.configured = true)
    (h : s.aMode = .ofb) (hl : s.sampledLen ≤ s.cfg.bufBytes) (hm : s.message = some m) :
    exec i s = .next (complete (opcode i) .ok (ofbRun s.blockE s.ivChain (chunks8 m)).1
      { s with ivChain := (ofbRun s.blockE s.ivChain (chunks8 m)).2 }) := by
  rcases hi with rfl | rfl
  · rw [← encryptBytes_ofb s m h]
    exact execEncrypt_eq s m hc hl hm
  · refine (execDecrypt_eq s m hc hl (rejectsLength_ofb s _ h) hm).trans ?_
    rw [stripPadding_ofb s _ h, decryptBytes_ofb s m h]
    rfl

/-- Byte k of OUT after an OFB run is the message's XORed with the keystream's (rule R129). -/
theorem read_ofbRun (e : Block → Block) (iv : Block) (m : List Byte) (k : Nat) (hk : k < m.length) :
    Memory.read (Memory.ofBytes 0 (ofbRun e iv (chunks8 m)).1) k =
      some (m.getD k 0 ^^^ (ofbChain e iv (k / 8 + 1)).extractLsb' (8 * (7 - k % 8)) 8) := by
  rw [Memory.read_ofBytes, ofbRun_length, if_pos ⟨Nat.zero_le k, by omega⟩, Nat.sub_zero, ofbRun_getD e iv m k hk]

/-- Settles O27: the run's length, its bytes and the chaining value it leaves. -/
theorem ofbXorsItsKeystream : Obligations.OfbXorsItsKeystream := by
  intro s m i hi hw hc hofb hl hm
  obtain ⟨-, -, hmax⟩ := hw
  have hlen := message_length s m hm
  refine ⟨_, exec_ofb s m i hi hc hofb hl hm, rfl, rfl, rfl, rfl, ?_, fun k hk => read_ofbRun _ _ m k (by omega), ?_⟩
  · rw [outlen_complete_toNat _ _ _ _ (by rw [ofbRun_length]; omega), ofbRun_length, hlen]
  · rw [complete_ivChain, ofbRun_snd, chunks8_length, hlen]

/-- Two values masked by one differ as they do. -/
theorem xor_xor_xor_cancel_right {w : Nat} (a b k : BitVec w) : (a ^^^ k) ^^^ (b ^^^ k) = a ^^^ b := by
  rw [BitVec.xor_comm b k, ← BitVec.xor_assoc, BitVec.xor_assoc a k k, BitVec.xor_self, BitVec.xor_zero]

/-- Settles O39: both outputs are masked by one keystream, which does not depend on the message. -/
theorem ofbFlipsTheSameBits : Obligations.OfbFlipsTheSameBits := by
  intro s t u m l mem hw hc hofb hm hm' ht hu herr
  have hlen := message_length s m hm
  have hlen' : l.length = s.sampledLen := message_length { s with inBuf := mem } l hm'
  rcases execEncrypt_cases s t ht with ⟨code, hcode, -, rfl⟩ | ⟨-, hl, -, -, -⟩
  · exact absurd herr hcode
  · cases ht.symm.trans (exec_ofb s m .encrypt (.inl rfl) hc hofb hl hm)
    cases hu.symm.trans (exec_ofb { s with inBuf := mem } l .encrypt (.inl rfl) hc hofb hl hm')
    refine ⟨?_, ?_, fun k hk => ⟨_, _, read_ofbRun _ _ m k (by omega), read_ofbRun _ _ l k (by omega),
      xor_xor_xor_cancel_right _ _ _⟩⟩
    · rw [complete_outlen, complete_outlen, ofbRun_length, ofbRun_length, hlen, hlen']
    · rw [complete_ivChain, complete_ivChain, ofbRun_snd, ofbRun_snd, chunks8_length, chunks8_length, hlen, hlen']
      rfl

/-! O38. -/

/-- DECRYPT's bytes from ENCRYPT's, with the padding removed, are the message: with one configuration, and in CBC and OFB from one
chaining value (rule R135 (a)). -/
theorem stripPadding_decrypt_encrypt (s d : State) (m : List Byte) (hmode : d.aMode = s.aMode) (hD : d.blockD = s.blockD)
    (hE : d.blockE = s.blockE) (hchain : s.aMode = .ecb ∨ d.ivChain = s.ivChain) :
    d.stripPadding (d.decryptBytes (s.encryptBytes m).1).1 = some m := by
  have hwhole : (pad m).length % 8 = 0 := by rw [pad_length, pad_length_mod]
  cases hm : s.aMode with
  | ecb =>
    rw [encryptBytes_ecb s m hm, decryptBytes_ecb d _ (hmode.trans hm), loadBlocks_storeBlocks, List.map_map, hD,
      show s.blockD ∘ s.blockE = id from funext (blockD_blockE s), List.map_id, storeBlocks_loadBlocks _ hwhole,
      stripPadding_blockMode d _ (by simp [hmode, hm]), unpad_pad]
  | cbc =>
    have hiv : d.ivChain = s.ivChain := hchain.resolve_left (by simp [hm])
    rw [encryptBytes_cbc s m hm, decryptBytes_cbc d _ (hmode.trans hm), loadBlocks_storeBlocks, hiv, hD,
      cbcDecrypt_cbcEncrypt _ _ (blockD_blockE s), storeBlocks_loadBlocks _ hwhole,
      stripPadding_blockMode d _ (by simp [hmode, hm]), unpad_pad]
  | ofb =>
    have hiv : d.ivChain = s.ivChain := hchain.resolve_left (by simp [hm])
    rw [encryptBytes_ofb s m hm, decryptBytes_ofb d _ (hmode.trans hm), hiv, hE, ofbRun_ofbRun,
      stripPadding_ofb d _ (hmode.trans hm)]

/-- DECRYPT takes the length of what ENCRYPT wrote. -/
theorem rejectsLength_encryptBytes (s d : State) (m : List Byte) (hmode : d.aMode = s.aMode) :
    d.rejectsLength (s.encryptBytes m).1.length = false := by
  rw [rejectsLength_eq_false_iff, hmode]
  by_cases hm : s.aMode = .ofb
  · exact .inl hm
  · have hpos := padCount_pos m.length
    rw [encryptBytes_length_blockMode s m hm, pad_length_mod]
    exact .inr ⟨by omega, rfl⟩

/-- A block loaded with the bytes `c` has them as its message. -/
theorem message_ofBytes (s : State) (c : List Byte) (hl : s.sampledLen = c.length) (hb : s.inBuf = Memory.ofBytes 0 c) :
    s.message = some c := by
  rw [State.message, hl, hb, Memory.readBytes_ofBytes _ _ _ (by omega), List.drop_zero, List.take_length]

/-- DECRYPT of what ENCRYPT wrote completes with the message. -/
theorem execDecrypt_encryptBytes (s d : State) (m : List Byte) (hc : d.configured = true) (hmode : d.aMode = s.aMode)
    (hD : d.blockD = s.blockD) (hE : d.blockE = s.blockE) (hchain : s.aMode = .ecb ∨ d.ivChain = s.ivChain)
    (hlen : d.sampledLen = (s.encryptBytes m).1.length) (hin : d.inBuf = Memory.ofBytes 0 (s.encryptBytes m).1)
    (hfit : (s.encryptBytes m).1.length ≤ d.cfg.bufBytes) :
    execDecrypt d =
      .next (complete 0x3 .ok m { d with ivChain := (d.decryptBytes (s.encryptBytes m).1).2 }) := by
  rw [execDecrypt_eq d _ hc (hlen ▸ hfit) (hlen ▸ rejectsLength_encryptBytes s d m hmode) (message_ofBytes d _ hlen hin),
    stripPadding_decrypt_encrypt s d m hmode hD hE hchain]

/-- RESET_IV of a configured block puts the supplied IV back (rule R143). -/
theorem execResetIv_configured (s : State) (hc : s.configured = true) :
    execResetIv s = .next (complete 0x4 .ok [] { s with ivChain := s.ivInit }) := by
  rw [execResetIv, if_neg (by simp [hc]), succeed]

/-- Settles O38: RESET_IV puts back the chaining value that ENCRYPT started from, and DECRYPT's run undoes ENCRYPT's. -/
theorem decryptAfterEncryptReturnsMessage : Obligations.DecryptAfterEncryptReturnsMessage := by
  intro s t u m c hw hc hchain hm ht herr hu hread hfit
  obtain ⟨-, -, hmax⟩ := hw
  rcases execEncrypt_cases s t ht with ⟨code, hcode, -, rfl⟩ | ⟨-, hl, m', hm', rfl⟩
  · exact absurd herr hcode
  obtain rfl := Option.some.inj (hm.symm.trans hm')
  have hlen := message_length s m hm
  have hout := encryptBytes_length_le s m
  rw [outlen_complete_toNat _ _ _ _ (by omega), complete_outBuf, Memory.readBytes_ofBytes _ _ _ (by omega), List.drop_zero,
    List.take_length] at hread
  obtain rfl := Option.some.inj hread
  cases hu.symm.trans (execResetIv_configured _ hc)
  refine ⟨_, execDecrypt_encryptBytes s _ m hc rfl rfl rfl (hchain.imp_right Eq.symm) ?_ rfl hfit, rfl,
    outlen_complete_toNat _ _ _ _ (by omega), ?_⟩
  · rw [sampledLen_idle _ rfl, BitVec.toNat_ofNat, Nat.mod_eq_of_lt (by omega)]
  · rw [complete_outBuf, Memory.readBytes_ofBytes _ _ _ (by omega), List.drop_zero, List.take_length]

end Sys2Proof.Machine
end

section
/-! PROOF. RESET_IV, KSREAD and the registers a running command does not read: O31, O32 and O37. -/

namespace Sys2Proof.Machine

/-! What a command does not read it carries along. -/

/-- The change `f` of the block is one that no command but INIT and RESET_IV sees in `s`: it passes through a completion, and
leaves what the checks, the mode's run and KSREAD read. -/
structure State.Unread (s : State) (f : State → State) : Prop where
  completes : ∀ op code out u, complete op code out (f u) = f (complete op code out u)
  configured : (f s).configured = s.configured
  cfg : (f s).cfg = s.cfg
  mode : (f s).aMode = s.aMode
  len : (f s).sampledLen = s.sampledLen
  message : (f s).message = s.message
  key : ∀ ksel, (f s).selectKey ksel = s.selectKey ksel
  encrypted : ∀ m, ((f s).encryptBytes m).1 = (s.encryptBytes m).1 ∧
    ({ f s with ivChain := ((f s).encryptBytes m).2 } : State) = f { s with ivChain := (s.encryptBytes m).2 }
  decrypted : ∀ c, ((f s).decryptBytes c).1 = (s.decryptBytes c).1 ∧
    ({ f s with ivChain := ((f s).decryptBytes c).2 } : State) = f { s with ivChain := (s.decryptBytes c).2 }

section
variable {s t : State} {f : State → State}

/-- Before a successful INIT the four commands carry any such change along. -/
theorem State.Unread.exec_unconfigured (h : s.Unread f) (i : Instr) (hc : s.configured = false)
    (hi : i = .encrypt ∨ i = .decrypt ∨ i = .resetIv ∨ ∃ ksel, i = .ksread ksel) (ht : exec i s = .next t) :
    exec i (f s) = .next (f t) := by
  cases ht.symm.trans (Machine.exec_unconfigured i s hi hc)
  rw [← h.completes]
  exact Machine.exec_unconfigured i (f s) hi (h.configured.trans hc)

theorem State.Unread.execEncrypt (h : s.Unread f) (hc : s.configured = true) (ht : execEncrypt s = .next t) :
    execEncrypt (f s) = .next (f t) := by
  have hc' := h.configured.trans hc
  by_cases hl : s.sampledLen ≤ s.cfg.bufBytes
  · have hl' : (f s).sampledLen ≤ (f s).cfg.bufBytes := by rwa [h.len, h.cfg]
    cases hm : s.message with
    | none => cases ht.symm.trans (execEncrypt_noMessage s hc hl hm)
    | some m =>
      cases ht.symm.trans (execEncrypt_eq s m hc hl hm)
      obtain ⟨hout, hchain⟩ := h.encrypted m
      rw [execEncrypt_eq (f s) m hc' hl' (h.message.trans hm), hout, hchain, h.completes]
  · cases ht.symm.trans (execEncrypt_tooLong s hc (by omega))
    rw [← h.completes]
    exact execEncrypt_tooLong (f s) hc' (by rw [h.len, h.cfg]; omega)

theorem State.Unread.execDecrypt (h : s.Unread f) (hc : s.configured = true) (ht : execDecrypt s = .next t) :
    execDecrypt (f s) = .next (f t) := by
  have hc' := h.configured.trans hc
  have hrej : (f s).rejectsLength (f s).sampledLen = s.rejectsLength s.sampledLen := by
    rw [h.len, State.rejectsLength, h.mode, State.rejectsLength]
  by_cases hbad : s.cfg.bufBytes < s.sampledLen ∨ s.rejectsLength s.sampledLen = true
  · cases ht.symm.trans (execDecrypt_badLength s hc hbad)
    rw [← h.completes]
    exact execDecrypt_badLength (f s) hc' (by rwa [hrej, h.len, h.cfg])
  · obtain ⟨hl, hr⟩ := not_or.1 hbad
    rw [Nat.not_lt] at hl
    rw [Bool.not_eq_true] at hr
    have hl' : (f s).sampledLen ≤ (f s).cfg.bufBytes := by rwa [h.len, h.cfg]
    cases hm : s.message with
    | none => cases ht.symm.trans (execDecrypt_noMessage s hc hl hr hm)
    | some c =>
      obtain ⟨hout, hchain⟩ := h.decrypted c
      have hstrip : (f s).stripPadding ((f s).decryptBytes c).1 = s.stripPadding (s.decryptBytes c).1 := by
        rw [hout, State.stripPadding, h.mode, State.stripPadding]
      rw [execDecrypt_eq s c hc hl hr hm] at ht
      rw [execDecrypt_eq (f s) c hc' hl' (hrej.trans hr) (h.message.trans hm), hstrip, hchain]
      cases hs : s.stripPadding (s.decryptBytes c).1 with
      | none =>
        rw [hs] at ht
        cases ht
        exact congrArg _ (h.completes _ _ _ _)
      | some out =>
        rw [hs] at ht
        cases ht
        exact congrArg _ (h.completes _ _ _ _)

/-- KSREAD of a configured block where KSEL selects no key (rule R144). -/
theorem execKsread_of_noKey (ksel : Nat) (s : State) (hc : s.configured = true) (hk : s.selectKey ksel = none) :
    execKsread ksel s = .next (complete 0x5 .validation [] s) := by
  rw [execKsread, if_neg (by simp [hc]), hk]
  rfl

/-- KSREAD of a configured block writes the schedule of the key KSEL selects (rule R144). -/
theorem execKsread_of_key (ksel : Nat) (s : State) (k : Block) (hc : s.configured = true) (hk : s.selectKey ksel = some k) :
    execKsread ksel s = .next (complete 0x5 .ok (scheduleBytes k) s) := by
  rw [execKsread, if_neg (by simp [hc]), hk]
  rfl

theorem State.Unread.execKsread (h : s.Unread f) (ksel : Nat) (hc : s.configured = true) (ht : execKsread ksel s = .next t) :
    execKsread ksel (f s) = .next (f t) := by
  have hc' := h.configured.trans hc
  cases hk : s.selectKey ksel with
  | none =>
    cases ht.symm.trans (execKsread_of_noKey ksel s hc hk)
    rw [execKsread_of_noKey ksel (f s) hc' ((h.key ksel).trans hk), h.completes]
  | some k =>
    cases ht.symm.trans (execKsread_of_key ksel s k hc hk)
    rw [execKsread_of_key ksel (f s) k hc' ((h.key ksel).trans hk), h.completes]

/-- Every command but INIT and RESET_IV carries along what it does not read. -/
theorem State.Unread.exec (h : s.Unread f) (i : Instr) (hinit : i ≠ .init) (hreset : i ≠ .resetIv)
    (ht : exec i s = .next t) : exec i (f s) = .next (f t) := by
  by_cases hc : s.configured = true
  · rcases defined_or_reserved i with rfl | rfl | rfl | rfl | ⟨ksel, rfl⟩ | hi
    · exact absurd rfl hinit
    · exact h.execEncrypt hc ht
    · exact h.execDecrypt hc ht
    · exact absurd rfl hreset
    · exact h.execKsread ksel hc ht
    · cases ht.symm.trans (exec_reserved i s hi)
      rw [exec_reserved i (f s) hi, h.completes]
  · rw [Bool.not_eq_true] at hc
    rcases defined_or_reserved i with rfl | rfl | rfl | rfl | ⟨ksel, rfl⟩ | hi
    · exact absurd rfl hinit
    · exact h.exec_unconfigured .encrypt hc (.inl rfl) ht
    · exact h.exec_unconfigured .decrypt hc (.inr (.inl rfl)) ht
    · exact absurd rfl hreset
    · exact h.exec_unconfigured _ hc (.inr (.inr (.inr ⟨ksel, rfl⟩))) ht
    · cases ht.symm.trans (exec_reserved i s hi)
      rw [exec_reserved i (f s) hi, h.completes]

end

/-! O37. -/

/-- A block with other values in the staging registers. -/
def State.withStaging (c l : Word) (k0 k1 k2 v : Block) (s : State) : State :=
  { s with ctrl := c, len := l, key0 := k0, key1 := k1, key2 := k2, ivin := v }

/-- While a command is in progress no command reads the staging registers: LEN was sampled (rules R137 and R140). -/
theorem unread_withStaging (s : State) (r : Command) (hr : s.running = some r) (c l : Word) (k0 k1 k2 v : Block) :
    s.Unread (State.withStaging c l k0 k1 k2 v) := by
  have hlen : (s.withStaging c l k0 k1 k2 v).sampledLen = s.sampledLen := by
    rw [State.sampledLen, State.sampledLen, hr, show (s.withStaging c l k0 k1 k2 v).running = some r from hr]
  exact {
    completes := fun _ _ _ _ => rfl
    configured := rfl
    cfg := rfl
    mode := rfl
    len := hlen
    message := by rw [State.message, hlen, State.message]; rfl
    key := fun _ => rfl
    encrypted := fun _ => ⟨rfl, rfl⟩
    decrypted := fun _ => ⟨rfl, rfl⟩ }

/-- INIT in progress reads what accept sampled (rules R137 and R141). -/
theorem execInit_withStaging (s t : State) (r : Command) (hr : s.running = some r) (hi : r.init.isSome = true) (c l : Word)
    (k0 k1 k2 v : Block) (ht : execInit s = .next t) :
    execInit (s.withStaging c l k0 k1 k2 v) = .next (t.withStaging c l k0 k1 k2 v) := by
  obtain ⟨o, ho⟩ := Option.isSome_iff_exists.1 hi
  have sampled (u : State) (hu : u.running = some r) : u.sampledInit = o := by
    rw [State.sampledInit, hu]
    simp only [ho, Option.getD_some]
  have hs := sampled s hr
  have hs' := sampled (s.withStaging c l k0 k1 k2 v) hr
  rw [execInit, hs] at ht
  rw [execInit, hs']
  split_ifs at ht ⊢ with hk
  · cases ht
    rfl
  · cases hm : ctrlMode o.ctrl with
    | none =>
      rw [hm] at ht
      cases ht
      rfl
    | some m =>
      simp only [hm] at ht ⊢
      split_ifs at ht ⊢ with hv <;> cases ht <;> rfl

/-- RESET_IV reads no staging register. -/
theorem execResetIv_withStaging (s t : State) (c l : Word) (k0 k1 k2 v : Block) (ht : execResetIv s = .next t) :
    execResetIv (s.withStaging c l k0 k1 k2 v) = .next (t.withStaging c l k0 k1 k2 v) := by
  rw [execResetIv] at ht
  split_ifs at ht with hc <;> cases ht
  · exact if_pos hc
  · exact if_neg hc

/-- Settles O37: INIT reads its sampled registers, RESET_IV none, and the others LEN as it was sampled. -/
theorem stagingWritesDoNotReachARunningCommand : Obligations.StagingWritesDoNotReachARunningCommand := by
  intro s t r c l k0 k1 k2 v hr hinit ht
  by_cases hi : r.instr = .init
  · have hop : r.op = 0x1 := by
      rw [← opcode_decodeFields r.op r.ksel, ← Command.instr, hi]
      rfl
    rw [hi] at ht ⊢
    exact execInit_withStaging s t r hr (hinit hop) c l k0 k1 k2 v ht
  by_cases hreset : r.instr = .resetIv
  · rw [hreset] at ht ⊢
    exact execResetIv_withStaging s t c l k0 k1 k2 v ht
  · exact (unread_withStaging s r hr c l k0 k1 k2 v).exec r.instr hi hreset ht

/-! O31. -/

/-- A block with another value in IV_CHAIN. -/
def State.withChain (v : Block) (s : State) : State := { s with ivChain := v }

/-- In ECB no command reads IV_CHAIN (rule R143). -/
theorem unread_withChain (s : State) (v : Block) (h : s.aMode = .ecb) : s.Unread (State.withChain v) where
  completes := fun _ _ _ _ => rfl
  configured := rfl
  cfg := rfl
  mode := rfl
  len := rfl
  message := rfl
  key := fun _ => rfl
  encrypted := fun m => by
    rw [encryptBytes_ecb s m h, encryptBytes_ecb (s.withChain v) m h]
    exact ⟨rfl, rfl⟩
  decrypted := fun c => by
    rw [decryptBytes_ecb s c h, decryptBytes_ecb (s.withChain v) c h]
    exact ⟨rfl, rfl⟩

/-- A second RESET_IV finds what the first left (rule R143). -/
theorem execResetIv_twice (s t u : State) (ht : execResetIv s = .next t) (hu : execResetIv t = .next u) :
    u = { t with draws := t.draws + 1 } := by
  by_cases hc : s.configured = true
  · cases ht.symm.trans (execResetIv_configured s hc)
    cases hu.symm.trans (execResetIv_configured _ hc)
    rfl
  · rw [Bool.not_eq_true] at hc
    have hi : Instr.resetIv = .encrypt ∨ Instr.resetIv = .decrypt ∨ Instr.resetIv = .resetIv ∨
        ∃ ksel, Instr.resetIv = .ksread ksel := .inr (.inr (.inl rfl))
    cases ht.symm.trans (exec_unconfigured .resetIv s hi hc)
    cases hu.symm.trans (exec_unconfigured .resetIv _ hi hc)
    rfl

/-- The chaining value that the worked example's ENCRYPT leaves (rules R127 and R143). -/
theorem cbcEncrypt_example :
    (cbcEncrypt (desE 0x133457799BBCDFF1) 0x1234567890ABCDEF (loadBlocks (pad [0x61, 0x62, 0x63]))).2 =
      0xA6DF41DD72E86C1E := by decide +kernel

/-- The worked example of rule R143. -/
theorem resetIv_example (s : State) (hw : s.cfg.wf) (hc : s.configured = true) (hm : s.aMode = .cbc) (ha : s.aAlg = .des)
    (hk : s.aK0 = 0x133457799BBCDFF1) (hi : s.ivInit = 0x1234567890ABCDEF) (hv : s.ivChain = 0x1234567890ABCDEF)
    (hmsg : s.message = some [0x61, 0x62, 0x63]) :
    ∃ t u, execEncrypt s = .next t ∧ t.ivChain = 0xA6DF41DD72E86C1E ∧ execResetIv t = .next u ∧
      u.ivChain = 0x1234567890ABCDEF := by
  obtain ⟨-, hmin, -⟩ := hw
  have hlen : 3 = s.sampledLen := message_length s _ hmsg
  have hE : s.blockE = desE 0x133457799BBCDFF1 := by
    funext x
    rw [State.blockE, ha, hk]
  refine ⟨_, _, execEncrypt_eq s _ hc (by omega) hmsg, ?_, execResetIv_configured _ hc, hi⟩
  rw [complete_ivChain, encryptBytes_cbc s _ hm, hE, hv]
  exact cbcEncrypt_example

/-- Settles O31: both answers, the second RESET_IV, what only INIT writes, what ECB does not read, and the example. -/
theorem resetIvRestoresSuppliedIv : Obligations.ResetIvRestoresSuppliedIv := by
  refine fun s => ⟨execResetIv_configured s, exec_unconfigured .resetIv s (.inr (.inr (.inl rfl))),
    execResetIv_twice s, fun i t hi ht => ?_, fun i t v hecb hinit hreset ht => ?_, resetIv_example s⟩
  · obtain ⟨-, -, -, -, -, -, hiv⟩ := exec_sameConfig i s t hi ht
    exact hiv
  · exact (unread_withChain s v hecb).exec i hinit hreset ht

/-! O32. -/

/-- Byte j of value i in the bytes of a list of values. -/
theorem flatMap_unbe_getD {w : Nat} (n : Nat) (l : List (BitVec w)) (i j : Nat) (hi : i < l.length) (hj : j < n) :
    (l.flatMap (unbe n)).getD (n * i + j) 0 = (l.getD i 0).extractLsb' (8 * (n - 1 - j)) 8 := by
  induction l generalizing i with
  | nil => simp at hi
  | cons x l ih =>
    rw [List.flatMap_cons]
    cases i with
    | zero => rw [Nat.mul_zero, Nat.zero_add, List.getD_append _ _ _ _ (by rwa [unbe_length]), unbe_getD n x j hj,
        List.getD_cons_zero]
    | succ i =>
      have hge : n ≤ n * (i + 1) + j := by rw [Nat.mul_succ]; omega
      have hsub : n * (i + 1) + j - n = n * i + j := by rw [Nat.mul_succ]; omega
      rw [List.getD_append_right _ _ _ _ (by rwa [unbe_length]), unbe_length, hsub, ih i (by simpa using hi),
        List.getD_cons_succ]

/-- Byte j of subkey i of what KSREAD writes (rule R144). -/
theorem read_scheduleBytes (k : Block) (i j : Nat) (h1 : 1 ≤ i) (hi : i ≤ 16) (hj : j < 6) :
    Memory.read (Memory.ofBytes 0 (scheduleBytes k)) (6 * (i - 1) + j) =
      some (((ks k).getD (i - 1) 0).extractLsb' (8 * (5 - j)) 8) := by
  rw [Memory.read_ofBytes, scheduleBytes_length, if_pos (by omega), Nat.sub_zero, scheduleBytes,
    flatMap_unbe_getD 6 (ks k) (i - 1) j (by rw [ks_length]; omega) hj]

/-- The key KSEL selects, by the algorithm: none for KSEL = 3, and for KSEL ≠ 0 with DES (rules R55 and R144). -/
theorem selectKey_eq (s : State) (ksel : Nat) (h4 : ksel < 4) :
    s.selectKey ksel = if ksel = 3 ∨ (s.aAlg = .des ∧ ksel ≠ 0) then none
      else some (if ksel = 0 then s.aK0 else if ksel = 1 then s.aK1 else s.aK2) := by
  cases ha : s.aAlg with
  | des => interval_cases ksel <;> simp [State.selectKey, ha]
  | tdes => interval_cases ksel <;> simp [State.selectKey, ha]

/-- The first and the last subkey of the worked example (rule R144). -/
theorem scheduleBytes_example :
    ((scheduleBytes 0xEF00EF00FF80FF80).drop 0).take 6 = [0x6F, 0xAC, 0x1B, 0xB8, 0xE6, 0x02] ∧
    ((scheduleBytes 0xEF00EF00FF80FF80).drop 90).take 6 = [0x9B, 0x53, 0xE5, 0x43, 0x18, 0xBD] := by decide +kernel

/-- Settles O32: by the key KSEL selects. -/
theorem ksreadWritesTheSchedule : Obligations.KsreadWritesTheSchedule := by
  intro s ksel h4 failed
  refine ⟨exec_unconfigured _ s (.inr (.inr (.inr ⟨ksel, rfl⟩))), fun hc h => ?_, fun hc h => ?_, fun hc hk => ?_⟩
  · exact execKsread_of_noKey ksel s hc ((selectKey_eq s ksel h4).trans (if_pos h))
  · refine ⟨_, execKsread_of_key ksel s _ hc ((selectKey_eq s ksel h4).trans (if_neg h)), rfl, rfl, rfl, rfl, ?_, rfl, rfl,
      fun i h1 hi j hj => read_scheduleBytes _ i j h1 hi hj⟩
    rw [complete_outlen, scheduleBytes_length]
    rfl
  · have ht := execKsread_of_key 0 s s.aK0 hc rfl
    obtain ⟨hfirst, hlast⟩ := scheduleBytes_example
    rw [hk] at ht
    refine ⟨_, ht, ?_, ?_⟩
    · rw [complete_outBuf, Memory.readBytes_ofBytes _ _ _ (by rw [scheduleBytes_length]; omega), hfirst]
    · rw [complete_outBuf, Memory.readBytes_ofBytes _ _ _ (by rw [scheduleBytes_length]), hlast]

end Sys2Proof.Machine
end

section
/-! PROOF. The registers as the host reads and writes them: O24, O40, O41 and O42. -/

namespace Sys2Proof.Machine

/-! O24. -/

/-- MODE as its two bits (rule R58). -/
theorem ctrlMode_field (c : Word) : c.extractLsb' 0 2 = BitVec.ofBool (c.getLsbD 1) ++ BitVec.ofBool (c.getLsbD 0) := by
  apply BitVec.eq_of_getLsbD_eq
  intro i hi
  rw [BitVec.getLsbD_append]
  interval_cases i <;> simp

/-- The mode each value of the field names (rule R59). -/
theorem ctrlMode_cases (c : Word) :
    (ctrlMode c = some .ecb ↔ c.getLsbD 1 = false ∧ c.getLsbD 0 = false) ∧
    (ctrlMode c = some .cbc ↔ c.getLsbD 1 = false ∧ c.getLsbD 0 = true) ∧
    (ctrlMode c = some .ofb ↔ c.getLsbD 1 = true ∧ c.getLsbD 0 = false) ∧
    (ctrlMode c = none ↔ c.getLsbD 1 = true ∧ c.getLsbD 0 = true) := by
  rw [ctrlMode, ctrlMode_field]
  cases c.getLsbD 1 <;> cases c.getLsbD 0 <;> simp

/-- A field as a number: the word shifted down to it, cut to its width. -/
theorem extractLsb'_toNat_eq (c : Word) (start len : Nat) :
    (c.extractLsb' start len).toNat = c.toNat / 2 ^ start % 2 ^ len := by
  rw [BitVec.extractLsb'_toNat, Nat.shiftRight_eq_div_pow]

/-- Settles O24: MODE by its two bits, ALG by its one, and the two lengths as numbers. -/
theorem initReadsCtrlFields : Obligations.InitReadsCtrlFields := by
  intro c
  obtain ⟨hecb, hcbc, hofb, hnone⟩ := ctrlMode_cases c
  refine ⟨hecb, hcbc, hofb, hnone, ?_, extractLsb'_toNat_eq c 8 5, extractLsb'_toNat_eq c 16 4⟩
  rw [ctrlAlg]
  cases c.getLsbD 2 <;> simp

/-! O40. -/

/-- What a read answers to the host: nothing outside the window, 0 where it is refused, else the data (rules R40, R41 and R48). -/
theorem hostAccess_read_answer (s t : State) (addr : Nat) (w : AccessWidth) (h : hostAccess (.read addr w) s = .next t) :
    t.answer = (windowOffset s.cfg addr).map fun off => if taken s.cfg off w then s.readData off w else 0 := by
  rw [hostAccess, Access.addr] at h
  cases ho : windowOffset s.cfg addr with
  | none =>
    rw [ho] at h
    cases h
    rfl
  | some off =>
    rw [ho] at h
    cases h
    rw [hostRead, Option.map_some]
    split_ifs <;> rfl

/-- A step that takes an access of the host while the reset input is asserted. -/
theorem step_host_held (s : State) (a : Access) (rest : List BusEvent) (hl : s.resetLine = true) (hb : s.bus = .host a :: rest) :
    step s = heldAccess a { s with bus := rest } := by
  rw [step, nextMove, hb]
  show nextEvent _ _ = _
  rw [nextEvent, if_pos hl, heldEvent]

/-- A read while the reset input is asserted answers as a block just reset does (rule R160). -/
theorem held_read_answer (s t u : State) (off : Nat) (w : AccessWidth) (hl : s.resetLine = true)
    (ht : step (s.hostReads off w) = .next t)
    (hu : step (({ State.resetWith s.cfg with draws := s.draws } : State).hostReads off w) = .next u) :
    t.answer = u.answer := by
  rw [step_host_held (s.hostReads off w) _ s.bus hl rfl] at ht
  obtain ⟨v, hv, hheld, -⟩ := heldAccess_eq (.read (s.cfg.base + off) w) { s.hostReads off w with bus := s.bus }
  cases ht.symm.trans hheld
  rw [step_host (({ State.resetWith s.cfg with draws := s.draws } : State).hostReads off w) _ [] rfl rfl] at hu
  rw [holdReset_answer, hostAccess_read_answer _ v _ w hv]
  exact (hostAccess_read_answer _ u _ w hu).symm

/-- Settles O40: each register's value by its offset, and a read of a block held in reset. -/
theorem registerReadsAnswerTheirValue : Obligations.RegisterReadsAnswerTheirValue := by
  refine ⟨?_, held_read_answer⟩
  intro s hl reads
  have read (off : Nat) (r : Reg) (v : Word) (ho : off < 0x48) (h4 : off % 4 = 0) (hr : regAt off = some r)
      (hv : s.readReg r = v) : reads off v :=
    ⟨_, step_readReg s off r ho h4 hr hl, by rw [hv]⟩
  refine ⟨read _ .id _ (by decide) rfl rfl rfl, read _ .ctrl _ (by decide) rfl rfl rfl, read _ .cmd _ (by decide) rfl rfl rfl,
    read _ .status _ (by decide) rfl rfl rfl, read _ .len _ (by decide) rfl rfl rfl,
    read _ .key0Hi _ (by decide) rfl rfl rfl, read _ .key0Lo _ (by decide) rfl rfl rfl,
    read _ .key1Hi _ (by decide) rfl rfl rfl, read _ .key1Lo _ (by decide) rfl rfl rfl,
    read _ .key2Hi _ (by decide) rfl rfl rfl, read _ .key2Lo _ (by decide) rfl rfl rfl,
    read _ .ivinHi _ (by decide) rfl rfl rfl, read _ .ivinLo _ (by decide) rfl rfl rfl, fun idle => ?_, fun busy => ?_⟩
  · have hb : ¬ s.busy = true := by simp [idle]
    exact ⟨read _ .outlen _ (by decide) rfl rfl (if_neg hb), read _ .ivcurHi _ (by decide) rfl rfl (if_neg hb),
      read _ .ivcurLo _ (by decide) rfl rfl (if_neg hb)⟩
  · exact ⟨read _ .outlen _ (by decide) rfl rfl (if_pos busy), read _ .ivcurHi _ (by decide) rfl rfl (if_pos busy),
      read _ .ivcurLo _ (by decide) rfl rfl (if_pos busy)⟩

/-! O41. -/

/-- Settles O41: each staging register and each read-only one by its offset. -/
theorem stagingWritesStoreTheirWord : Obligations.StagingWritesStoreTheirWord := by
  intro s d hl writes hi lo
  have write (off : Nat) (r : Reg) (ho : off < 0x48) (h4 : off % 4 = 0) (hr : regAt off = some r) :
      step (s.hostWrites off .word d) = .next (writeReg r d s.noteWrite) := step_writeReg s off r d ho h4 hr hl
  exact ⟨write _ .ctrl (by decide) rfl rfl, write _ .len (by decide) rfl rfl, write _ .key0Hi (by decide) rfl rfl,
    write _ .key0Lo (by decide) rfl rfl, write _ .key1Hi (by decide) rfl rfl, write _ .key1Lo (by decide) rfl rfl,
    write _ .key2Hi (by decide) rfl rfl, write _ .key2Lo (by decide) rfl rfl, write _ .ivinHi (by decide) rfl rfl,
    write _ .ivinLo (by decide) rfl rfl, write _ .id (by decide) rfl rfl, write _ .outlen (by decide) rfl rfl,
    write _ .ivcurHi (by decide) rfl rfl, write _ .ivcurLo (by decide) rfl rfl⟩

/-! O42. -/

/-- The five low flags of STATUS (rule R63). -/
theorem statusWord_flags (s : State) :
    s.statusWord.getLsbD 0 = s.busy ∧ s.statusWord.getLsbD 1 = s.done ∧ s.statusWord.getLsbD 2 = s.configured ∧
    s.statusWord.getLsbD 3 = s.ovr ∧ s.statusWord.getLsbD 4 = s.accErr := by
  rw [State.statusWord]
  simp only [BitVec.getLsbD_append]
  simp

/-- The fields of several bits of STATUS (rule R63). -/
theorem statusWord_fields (s : State) :
    s.statusWord.extractLsb' 5 3 = 0 ∧ s.statusWord.extractLsb' 8 4 = s.err.code ∧
    s.statusWord.extractLsb' 12 4 = s.lastop ∧ s.statusWord.extractLsb' 16 16 = 0 := by
  refine ⟨?_, statusWord_err s, ?_, ?_⟩ <;> rw [State.statusWord]
  · iterate 5 rw [BitVec.extractLsb'_append_eq_of_le (by decide)]
    exact BitVec.extractLsb'_append_eq_right
  · iterate 7 rw [BitVec.extractLsb'_append_eq_of_le (by decide)]
    exact BitVec.extractLsb'_append_eq_right
  · iterate 8 rw [BitVec.extractLsb'_append_eq_of_le (by decide)]
    exact BitVec.extractLsb'_eq_self

/-- A write-1-to-clear bit keeps its flag or clears it (rule R63). -/
theorem writeOneToClear_eq (flag one : Bool) : (flag && !one) = if one then false else flag := by
  cases one <;> simp

/-- Settles O42: the fields of the word, and the three flags a write clears. -/
theorem statusFieldsAndClears : Obligations.StatusFieldsAndClears := by
  have zero : (0#16 ++ 0#4 ++ 0#4 ++ 0#3 ++ 0#1 ++ 0#1 ++ 0#1 ++ 0#1 ++ 0#1 : Word) = 0 := by decide
  refine ⟨fun _ => zero, fun s => ⟨?_, fun d hl => ?_⟩⟩
  · obtain ⟨hbusy, hdone, hconf, hovr, hacc⟩ := statusWord_flags s
    exact ⟨hbusy, hdone, hconf, hovr, hacc, statusWord_fields s⟩
  · rw [step_writeReg s 0x00C .status d (by decide) rfl rfl hl, writeReg, State.writeStatus]
    simp only [writeOneToClear_eq]
    rfl

end Sys2Proof.Machine
end

section
/-! PROOF. What the host reads, and what it reads back of IN and OUT: O47, O48 and O50. -/

namespace Sys2Proof.Machine

/-! O47. -/

/-- The block after a taken read: another answer and another draw counter (rule R43). -/
def State.noteRead (s : State) (answer : Option Word) (draws : Nat) : State := { s with answer := answer, draws := draws }

/-- The byte at a buffer offset is specified to an idle read (rules R33 and R44). -/
def State.Specified (s : State) (off : Nat) : Prop :=
  (regionOf s.cfg off = .inBuf → (Memory.read s.inBuf (off - 0x4000)).isSome = true) ∧
  (regionOf s.cfg off = .outBuf →
    off - 0x8000 < s.outlen.toNat ∧ (Memory.read s.outBuf (off - 0x8000)).isSome = true)

/-- The bytes of a read of a buffer, in offset order. -/
def State.readBytes (s : State) (off : Nat) (w : AccessWidth) : List Byte :=
  (List.range w.bytes).map fun k => s.bufferByte (off + k)

@[simp] theorem readBytes_length (s : State) (off : Nat) (w : AccessWidth) : (s.readBytes off w).length = w.bytes := by
  simp [State.readBytes]

theorem readBytes_getD (s : State) (off j : Nat) (w : AccessWidth) (hj : j < w.bytes) :
    (s.readBytes off w).getD j 0 = s.bufferByte (off + j) := by
  simp [State.readBytes, List.getD_eq_getElem?_getD, hj]

/-- An idle read of a specified byte does not depend on the draw counter. -/
theorem bufferByte_noteRead (s : State) (off : Nat) (answer : Option Word) (draws : Nat) (hb : s.busy = false)
    (h : s.Specified off) : (s.noteRead answer draws).bufferByte off = s.bufferByte off := by
  obtain ⟨hin, hout⟩ := h
  cases hr : regionOf s.cfg off with
  | inBuf =>
    obtain ⟨b, hbyte⟩ := Option.isSome_iff_exists.1 (hin hr)
    have read (t : State) (hc : t.cfg = s.cfg) (ht : t.inBuf = s.inBuf) : t.bufferByte off = b := by
      rw [State.bufferByte, hc, hr, ht]
      simp only [hbyte, Option.getD_some]
    exact (read (s.noteRead answer draws) rfl rfl).trans (read s rfl rfl).symm
  | outBuf =>
    obtain ⟨hlt, hsome⟩ := hout hr
    obtain ⟨b, hbyte⟩ := Option.isSome_iff_exists.1 hsome
    have read (t : State) (hc : t.cfg = s.cfg) (ht : t.outBuf = s.outBuf) (hl : t.outlen = s.outlen)
        (hrun : t.busy = s.busy) : t.bufferByte off = b := by
      have valid : ¬(t.busy = true ∨ t.outlen.toNat ≤ off - 0x8000) := by
        rw [hrun, hl, hb]
        simp [hlt]
      rw [State.bufferByte, hc, hr, ht]
      simp only [if_neg valid, hbyte, Option.getD_some]
    exact (read (s.noteRead answer draws) rfl rfl rfl rfl).trans (read s rfl rfl rfl rfl).symm
  | registers | reservedLow | reservedAfterIn | reservedAfterOut =>
    rw [State.bufferByte, State.bufferByte, show (s.noteRead answer draws).cfg = s.cfg from rfl, hr]

/-- An idle read of a register does not depend on the draw counter. -/
theorem readReg_noteRead (s : State) (r : Reg) (answer : Option Word) (draws : Nat) (hb : s.busy = false) :
    (s.noteRead answer draws).readReg r = s.readReg r := by
  have hbusy : ¬ s.busy = true := by simp [hb]
  have hbusy' : ¬ (s.noteRead answer draws).busy = true := hbusy
  cases r with
  | outlen | ivcurHi | ivcurLo =>
    rw [State.readReg, State.readReg, if_neg hbusy, if_neg hbusy']
    rfl
  | id | ctrl | cmd | status | len | key0Hi | key0Lo | key1Hi | key1Lo | key2Hi | key2Lo | ivinHi | ivinLo => rfl

/-- An idle read of specified bytes does not depend on the draw counter (rule R43). -/
theorem readData_noteRead (s : State) (off : Nat) (w : AccessWidth) (answer : Option Word) (draws : Nat) (hb : s.busy = false)
    (h : ∀ j, j < w.bytes → s.Specified (off + j)) : (s.noteRead answer draws).readData off w = s.readData off w := by
  have bytes : (s.noteRead answer draws).readBytes off w = s.readBytes off w :=
    List.map_congr_left fun k hk => bufferByte_noteRead s _ answer draws hb (h k (List.mem_range.1 hk))
  rw [State.readData, State.readData, show (s.noteRead answer draws).cfg = s.cfg from rfl]
  cases regionOf s.cfg off with
  | registers =>
    cases regAt off with
    | none => rfl
    | some r => exact readReg_noteRead s r answer draws hb
  | inBuf | outBuf => exact congrArg (be 32) bytes
  | reservedLow | reservedAfterIn | reservedAfterOut => rfl

/-- A taken read changes the answer and the draw counter alone (rule R43). -/
theorem hostRead_taken (off : Nat) (w : AccessWidth) (s : State) (h : taken s.cfg off w = true) :
    hostRead off w s = s.noteRead (some (s.readData off w)) (s.draws + 1) := if_pos h

/-- A refused read sets ACCERR and answers 0 (rules R41 and R48). -/
theorem hostRead_refused (off : Nat) (w : AccessWidth) (s : State) (h : taken s.cfg off w = false) :
    hostRead off w s = { s with answer := some 0, accErr := true } := if_neg (by simp [h])

/-- Settles O47: a taken read leaves all that a second one reads, and a refused one answers 0 whatever stands. -/
theorem readsHaveNoSideEffect : Obligations.ReadsHaveNoSideEffect := by
  intro s t off w hl hoff ht
  cases ht.symm.trans (step_hostReads s off w hoff hl)
  cases htaken : taken s.cfg off w with
  | true =>
    rw [hostRead_taken off w s htaken]
    refine ⟨by rw [Bool.not_true, Bool.or_false]; rfl, fun hb h u hu => ?_⟩
    cases hu.symm.trans (step_hostReads _ off w hoff hl)
    refine (congrArg State.answer (hostRead_taken off w (s.noteRead (some (s.readData off w)) (s.draws + 1)) htaken)).trans
      (congrArg some (readData_noteRead s off w _ _ hb h))
  | false =>
    rw [hostRead_refused off w s htaken]
    refine ⟨by rw [Bool.not_false, Bool.or_true], fun _ _ u hu => ?_⟩
    cases hu.symm.trans (step_hostReads _ off w hoff hl)
    exact congrArg State.answer (hostRead_refused off w { s with answer := some 0, accErr := true } htaken)

/-! O48. -/

/-- An offset in a buffer is aligned where its distance from the buffer's start is: both buffers start at a multiple of 4. -/
theorem taken_buffer (c : Config) (base k : Nat) (w : AccessWidth) (hb : base = 0x4000 ∨ base = 0x8000)
    (ha : k % w.bytes = 0) : taken c (base + k) w = true := by
  refine (taken_iff c _ w).2 ⟨.inr (by omega), ?_⟩
  rcases hb with rfl | rfl <;> cases w <;> simp only [AccessWidth.bytes] at ha ⊢ <;> omega

/-- The low bytes of a word, loaded, are the word cut to them (rules R11 and R35). -/
theorem be_unbe_low (n : Nat) (d : Word) : be 32 (unbe n d) = BitVec.ofNat 32 (d.toNat % 2 ^ (8 * n)) := by
  apply BitVec.eq_of_getLsbD_eq
  intro i hi
  rw [be_getLsbD, unbe_length, BitVec.getLsbD_ofNat, Nat.testBit_mod_two_pow, BitVec.testBit_toNat]
  by_cases h : i / 8 < n
  · have hlow : i < 8 * n := by omega
    have hbyte : 8 * (n - 1 - (n - 1 - i / 8)) + i % 8 = i := by omega
    rw [unbe_getD n d _ (by omega), BitVec.getLsbD_extractLsb', hbyte, decide_eq_true h, decide_eq_true hlow,
      decide_eq_true (Nat.mod_lt i (by decide))]
    simp
  · have hhigh : ¬ i < 8 * n := by omega
    simp [h, hhigh]

/-- The byte a host reads of IN, where the host has written it (rule R33). -/
theorem bufferByte_in (s : State) (k : Nat) (b : Byte) (hk : k < s.cfg.bufBytes) (h : Memory.read s.inBuf k = some b) :
    s.bufferByte (0x4000 + k) = b := by
  rw [State.bufferByte, regionOf_in s.cfg k hk]
  simp only [Nat.add_sub_cancel_left, h, Option.getD_some]

/-- The block after a write of IN at buffer offset `k`. -/
def State.writtenIn (s : State) (k : Nat) (w : AccessWidth) (d : Word) : State :=
  { s.noteWrite with inBuf := Memory.writeBytes s.inBuf k (laneBytes w d) }

/-- The bytes of IN after a write of it: the lanes of the data, and elsewhere what stood (rule R35). -/
theorem read_writtenIn (s : State) (k a : Nat) (w : AccessWidth) (d : Word) :
    Memory.read (s.writtenIn k w d).inBuf a =
      if k ≤ a ∧ a < k + w.bytes then some (d.extractLsb' (8 * (w.bytes - 1 - (a - k))) 8) else Memory.read s.inBuf a := by
  rw [State.writtenIn, Memory.read_writeBytes, laneBytes, unbe_length]
  split_ifs with h
  · rw [unbe_getD _ d _ (by omega)]
  · rfl

/-- The step that takes a write of IN, outside a busy ENCRYPT or DECRYPT (rule R47). -/
theorem step_writeIn (s : State) (k : Nat) (w : AccessWidth) (d : Word) (hl : s.resetLine = false) (hw : s.cfg.wf)
    (hk : k < s.cfg.bufBytes) (ha : k % w.bytes = 0) (hrun : s.runsCipher = false) :
    step (s.hostWrites (0x4000 + k) w d) = .next (s.writtenIn k w d) := by
  obtain ⟨-, -, hmax⟩ := hw
  have hrun' : ¬ s.noteWrite.runsCipher = true := by
    show ¬ s.runsCipher = true
    simp [hrun]
  rw [step_hostWrites s (0x4000 + k) w d (by omega) hl, hostWrite_in s k w d hk ha, writeIn, if_neg hrun',
    Nat.add_sub_cancel_left]
  rfl

/-- A width has 1 to 4 bytes. -/
theorem bytes_range (w : AccessWidth) : 1 ≤ w.bytes ∧ w.bytes ≤ 4 := by cases w <;> decide

/-- A read of the bytes just written to IN answers their value. -/
theorem readData_writtenIn (s : State) (k : Nat) (w : AccessWidth) (d : Word) (hk : k + w.bytes ≤ s.cfg.bufBytes) :
    (s.writtenIn k w d).readData (0x4000 + k) w = BitVec.ofNat 32 (d.toNat % 2 ^ (8 * w.bytes)) := by
  obtain ⟨hpos, -⟩ := bytes_range w
  have bytes : (s.writtenIn k w d).readBytes (0x4000 + k) w = unbe w.bytes d := by
    refine List.map_congr_left fun j hj => ?_
    have hj := List.mem_range.1 hj
    rw [Nat.add_assoc]
    refine bufferByte_in _ (k + j) _ (show k + j < s.cfg.bufBytes by omega) ?_
    rw [read_writtenIn, if_pos (by omega), Nat.add_sub_cancel_left]
  rw [State.readData, show (s.writtenIn k w d).cfg = s.cfg from rfl, regionOf_in s.cfg k (by omega)]
  exact (congrArg (be 32) bytes).trans (be_unbe_low w.bytes d)

/-- Settles O48: the lanes of the write, and the read of what it stored. -/
theorem inWritesUseBigEndianLanes : Obligations.InWritesUseBigEndianLanes := by
  intro s k w d hl hw hk ha hrun
  obtain ⟨hpos, -⟩ := bytes_range w
  have hrun' : s.runsCipher = false := by
    rw [State.runsCipher]
    cases hr : s.running with
    | none => rfl
    | some r =>
      obtain ⟨h2, h3⟩ := hrun r hr
      simpa using And.intro h2 h3
  refine ⟨_, step_writeIn s k w d hl hw (by omega) ha hrun', rfl, fun j hj => ?_, fun a h => ?_, fun u hu => ?_⟩
  · rw [read_writtenIn, if_pos (by omega), Nat.add_sub_cancel_left]
  · rw [read_writtenIn, if_neg (by omega)]
  · obtain ⟨-, -, hmax⟩ := hw
    cases hu.symm.trans (step_hostReads (s.writtenIn k w d) (0x4000 + k) w (by omega) hl)
    exact (congrArg State.answer (hostRead_taken _ w (s.writtenIn k w d) (taken_buffer s.cfg 0x4000 k w (.inl rfl) ha))).trans
      (congrArg some (readData_writtenIn s k w d hk))

/-! O50. -/

/-- The byte a host reads of OUT below OUTLEN in an idle block (rule R44). -/
theorem bufferByte_out_valid (s : State) (k : Nat) (hs : s.Inv) (hk : k < s.outlen.toNat) (hb : s.busy = false) :
    Memory.read s.outBuf k = some (s.bufferByte (0x8000 + k)) := by
  have hfit := hs.outSize
  obtain ⟨b, hbyte⟩ := Option.isSome_iff_exists.1 ((hs.outValid k).2 hk)
  have valid : ¬(s.busy = true ∨ s.outlen.toNat ≤ k) := by simp [hb, hk]
  rw [State.bufferByte, regionOf_out s.cfg k hs.params (by omega)]
  simp only [Nat.add_sub_cancel_left, if_neg valid, hbyte, Option.getD_some]

/-- The byte a host reads of OUT at or beyond OUTLEN, or in a busy block (rules R44 and R47). -/
theorem bufferByte_out_free (s : State) (k : Nat) (hw : s.cfg.wf) (hk : k < s.cfg.outBytes)
    (h : s.busy = true ∨ s.outlen.toNat ≤ k) : s.bufferByte (0x8000 + k) = Config.freeByte s.draws (0x8000 + k) := by
  rw [State.bufferByte, regionOf_out s.cfg k hw hk]
  simp only [Nat.add_sub_cancel_left, if_pos h]
  rfl

/-- Settles O50: the answer's lanes are the bytes of OUT, each valid or free. -/
theorem outReadsAreValidBelowOutlen : Obligations.OutReadsAreValidBelowOutlen := by
  intro s k w hs hl hk ha
  have hw := hs.params
  obtain ⟨-, -, hmax⟩ := hs.params
  obtain ⟨hpos, hle⟩ := bytes_range w
  have hlen := readBytes_length s (0x8000 + k) w
  have hdata : s.readData (0x8000 + k) w = be 32 (s.readBytes (0x8000 + k) w) := by
    rw [State.readData, regionOf_out s.cfg k hw (by omega)]
    rfl
  refine ⟨_, s.readData (0x8000 + k) w, step_hostReads s _ w (by rw [Config.outBytes] at hk; omega) hl, ?_⟩
  rw [hostRead_taken _ w s (taken_buffer s.cfg 0x8000 k w (.inr rfl) ha), hdata]
  refine ⟨rfl, rfl, hlen ▸ be_toNat_lt 32 _, fun j hj => ?_⟩
  have lane := be_extractLsb' (s.readBytes (0x8000 + k) w) j (by omega) (by omega)
  rw [hlen, readBytes_getD s _ j w hj, Nat.add_assoc] at lane
  rw [lane, Nat.add_assoc]
  exact ⟨fun hb hlt => bufferByte_out_valid s (k + j) hs hlt hb, bufferByte_out_free s (k + j) hw (by omega)⟩

end Sys2Proof.Machine
end
